-- ==== Sys2Proof/Word.lean ====
section
/-! DEFINITION. The bit vectors the sequencer's registers, command words and byte lanes are made of
(30_encoding.md rule R91; 10_state.md rules R30, R49). -/

namespace Sys2Proof

/-- A byte lane, a descriptor id, a pin id, a registry entry, an event code. -/
abbrev Byte := BitVec 8

/-- A 16-bit field: a pulse width in µs (rule R33), or the immediate operand of a command (rule R91). -/
abbrev Half := BitVec 16

/-- A 32-bit register or command word (rules R51, R90). -/
abbrev Word := BitVec 32

end Sys2Proof
end

