-- ==== Sys2Proof/Config.lean ====
section
/-! DEFINITION. The named constants of 00_scope.md rules R10 and R11, the default of the parameter
N_DESC, and the one free value the spec leaves open (the level of a pin nothing has set yet). -/

namespace Sys2Proof

/-- The level of a pin (30_encoding.md rule R103); its 1-bit code is `Level.code` (Machine/Ops.lean). -/
inductive Level where
  | low
  | high
deriving DecidableEq, Repr, Inhabited

namespace Config

/-- MAX_CHANNELS: registry capacity (rule R10). -/
abbrev maxChannels : Nat := 10

/-- MIN_PULSE_WIDTH in µs (rule R10). -/
def minPulseWidth : Nat := 544

/-- MAX_PULSE_WIDTH in µs (rule R10). -/
def maxPulseWidth : Nat := 2400

/-- DEFAULT_PULSE_WIDTH in µs (rule R10). -/
def defaultPulseWidth : Nat := 1500

/-- ANGLE_MIN (rule R10). -/
def angleMin : Nat := 0

/-- ANGLE_MAX (rule R10). -/
def angleMax : Nat := 180

/-- SLOT_LENGTH_US: the requested timeslot length (rule R10). -/
def slotLengthUs : Nat := 2500

/-- REQ_TIMEOUT_US: the request timeout, sent and never timed by the block (rules R10, R145). -/
def reqTimeoutUs : Nat := 100000

/-- REFRESH_US: the refresh interval (rule R10). -/
def refreshUs : Nat := 10000

/-- REG_BYTES: the size of the register window (rules R11, R70). -/
def regBytes : Nat := 256

/-- INVALID: the index sentinel of a detached descriptor (rules R11, R31). -/
def invalid : Byte := 0xFF

/-- VERSION of the command set, shown by CFG[31:24] (10_state.md rule R51). -/
def version : Byte := 0x01

/-- The default of the parameter N_DESC (rule R11); `State.reset` takes it (log 1). -/
def defaultNDesc : Nat := 16

/-- DESIGN CHOICE (log 2): the BASE that `State.reset` takes; the spec leaves BASE open (rule R11). -/
def defaultBase : Nat := 0

/-- The level of pin `p` before the first `set(p, ·)` event: a free value (10_state.md rule R55,
93_implementation_defined.md I8; log 11). It has no body, so nothing can be proved about it. -/
opaque initialPinLevel : Byte → Level

end Config

end Sys2Proof
end

