-- ==== Sys2Proof/Syntax.lean ====
section
/-! DEFINITION. The eleven commands of PESEQ command set version 1 (30_encoding.md rule R94), one
constructor per row of spec/opcode_table.json. -/

namespace Sys2Proof

/-- A command. `d` is the descriptor id of rule R92; `pin`, `angle` and `value` are the immediates
of rule R93 as their fields hold them: `pin` unsigned, `angle` and `value` read as two's complement
by the commands that use them. -/
inductive Instr where
  /-- NOP (rule R110). -/
  | nop
  /-- ATTACH (rule R112). -/
  | attach (d : Byte) (pin : Byte)
  /-- DETACH (rule R115). -/
  | detach (d : Byte)
  /-- WRITE (rule R118). -/
  | write (d : Byte) (angle : Half)
  /-- WRITE_US (rule R121). -/
  | writeUs (d : Byte) (value : Half)
  /-- READ (rule R123). -/
  | read (d : Byte)
  /-- READ_US (rule R125). -/
  | readUs (d : Byte)
  /-- ATTACHED (rule R126). -/
  | attached (d : Byte)
  /-- INDEX (rule R127). -/
  | index (d : Byte)
  /-- PIN (rule R128). -/
  | pin (d : Byte)
  /-- RELEASE (rule R130). -/
  | release (d : Byte)
deriving DecidableEq, Repr

/-- The descriptor operand of a command, which NOP lacks (rule R92). -/
def Instr.desc? : Instr → Option Byte
  | .nop => none
  | .attach d _ => some d
  | .detach d => some d
  | .write d _ => some d
  | .writeUs d _ => some d
  | .read d => some d
  | .readUs d => some d
  | .attached d => some d
  | .index d => some d
  | .pin d => some d
  | .release d => some d

end Sys2Proof
end

