-- ==== Sys2Proof/WellFormed.lean ====
section
/-! DEFINITION. What makes a command legal beyond the form of its word: its descriptor operand names
a descriptor the block holds (30_encoding.md rules R92, R95). Every value of the immediates is legal
(rule R93), and their widths are in the types. -/

namespace Sys2Proof

/-- Rule R92: `d < N_DESC` for every command but NOP. -/
def Instr.wellFormed (nDesc : Nat) (i : Instr) : Bool :=
  match i.desc? with
  | none => true
  | some d => decide (d.toNat < nDesc)

end Sys2Proof
end

