-- ==== Sys2Proof/Decode.lean ====
section
/-! DEFINITION. The command decoder, total on any bytes and rejecting by name, the byte lanes of a
word, and the encoder (30_encoding.md rules R90 to R98; 20_memory.md rule R71). -/

namespace Sys2Proof

/-! ## Byte lanes (rule R71) -/

/-- Byte lane `j` of a word: its bits `[8j+7:8j]` (rule R71). -/
def laneOf (w : Word) (j : Nat) : Byte := w.extractLsb' (8 * j) 8

/-- The four byte lanes of a word, the one at the lowest offset first (rule R71). -/
def lanesOfWord (w : Word) : List Byte := [laneOf w 0, laneOf w 1, laneOf w 2, laneOf w 3]

/-- The word whose byte lanes are `b0` (lowest offset) to `b3` (rule R71). -/
def wordOfLanes (b0 b1 b2 b3 : Byte) : Word := b3 ++ b2 ++ b1 ++ b0

/-! ## The fields of format C (rule R91) -/

/-- OP: `w[31:24]`. -/
def opField (w : Word) : Byte := w.extractLsb' 24 8

/-- D: `w[23:16]`. -/
def dField (w : Word) : Byte := w.extractLsb' 16 8

/-- IMM: `w[15:0]`. -/
def immField (w : Word) : Half := w.extractLsb' 0 16

/-- The pin operand of ATTACH: `w[7:0]` (rule R93). -/
def pinField (w : Word) : Byte := w.extractLsb' 0 8

/-- The must-be-zero field of ATTACH: `w[15:8]` (rule R93). -/
def attachMbzField (w : Word) : Byte := w.extractLsb' 8 8

/-! ## The decoder -/

/-- Why a word, or a run of bytes, is no legal command (rules R95, R98). Every one of them has the
one effect of rule R97 on the machine. -/
inductive Reject where
  /-- Not the four byte lanes of one command word (rule R104). -/
  | notOneWord
  /-- OP is in 0x0B..0xFF (rule R98). -/
  | reservedOpcode
  /-- A must-be-zero bit is set: D or IMM of NOP, `w[15:8]` of ATTACH, IMM of a command without an
  immediate (rules R92, R93). -/
  | mustBeZero
  /-- `D ≥ N_DESC` (rule R92). -/
  | descriptorRange
deriving DecidableEq, Repr

/-- `i`, if the must-be-zero bits are zero and the descriptor operand is in range (rule R95). -/
def checked (nDesc : Nat) (mbzOk : Bool) (i : Instr) : Except Reject Instr :=
  if mbzOk then
    if i.wellFormed nDesc then .ok i else .error .descriptorRange
  else .error .mustBeZero

/-- Decode one command word (rules R91 to R95). -/
def decodeWord (nDesc : Nat) (w : Word) : Except Reject Instr :=
  let d := dField w
  let immZero := decide (immField w = 0)
  match (opField w).toNat with
  | 0x00 => checked nDesc (decide (d = 0) && immZero) .nop
  | 0x01 => checked nDesc (decide (attachMbzField w = 0)) (.attach d (pinField w))
  | 0x02 => checked nDesc immZero (.detach d)
  | 0x03 => checked nDesc true (.write d (immField w))
  | 0x04 => checked nDesc true (.writeUs d (immField w))
  | 0x05 => checked nDesc immZero (.read d)
  | 0x06 => checked nDesc immZero (.readUs d)
  | 0x07 => checked nDesc immZero (.attached d)
  | 0x08 => checked nDesc immZero (.index d)
  | 0x09 => checked nDesc immZero (.pin d)
  | 0x0A => checked nDesc immZero (.release d)
  | _ => .error .reservedOpcode

/-- Decode the byte lanes of a CMD write, lowest offset first (rules R71, R90). -/
def decode (nDesc : Nat) : List Byte → Except Reject Instr
  | [b0, b1, b2, b3] => decodeWord nDesc (wordOfLanes b0 b1 b2 b3)
  | _ => .error .notOneWord

/-! ## The encoder -/

/-- The opcode of a command (rule R94). -/
def Instr.op : Instr → Byte
  | .nop => 0x00
  | .attach _ _ => 0x01
  | .detach _ => 0x02
  | .write _ _ => 0x03
  | .writeUs _ _ => 0x04
  | .read _ => 0x05
  | .readUs _ => 0x06
  | .attached _ => 0x07
  | .index _ => 0x08
  | .pin _ => 0x09
  | .release _ => 0x0A

/-- The IMM field of a command (rules R93, R94): `{0x00, pin}` for ATTACH, the two's complement
operand for WRITE and WRITE_US, 0 otherwise. -/
def Instr.imm : Instr → Half
  | .nop => 0
  | .attach _ p => (0x00#8 : Byte) ++ p
  | .detach _ => 0
  | .write _ angle => angle
  | .writeUs _ value => value
  | .read _ => 0
  | .readUs _ => 0
  | .attached _ => 0
  | .index _ => 0
  | .pin _ => 0
  | .release _ => 0

/-- The word of a command: `{OP, D, IMM}` (rule R91), with D = 0 for NOP (rule R92). -/
def encodeWord (i : Instr) : Word := i.op ++ i.desc?.getD 0 ++ i.imm

/-- The byte lanes of a command's word, lowest offset first (rule R71). -/
def encode (i : Instr) : List Byte := lanesOfWord (encodeWord i)

/-! ## The opcode table as data (rule R95: the (match, mask) pair of each opcode) -/

/-- One row of the opcode table: the bits a word must have, and whether it has a descriptor operand. -/
structure OpcodeRow where
  mnemonic : String
  matchBits : Word
  mask : Word
  hasDesc : Bool
deriving DecidableEq, Repr

/-- spec/opcode_table.json, row by row. -/
def opcodeTable : List OpcodeRow :=
  [⟨"NOP", 0x00000000, 0xFFFFFFFF, false⟩,
   ⟨"ATTACH", 0x01000000, 0xFF00FF00, true⟩,
   ⟨"DETACH", 0x02000000, 0xFF00FFFF, true⟩,
   ⟨"WRITE", 0x03000000, 0xFF000000, true⟩,
   ⟨"WRITE_US", 0x04000000, 0xFF000000, true⟩,
   ⟨"READ", 0x05000000, 0xFF00FFFF, true⟩,
   ⟨"READ_US", 0x06000000, 0xFF00FFFF, true⟩,
   ⟨"ATTACHED", 0x07000000, 0xFF00FFFF, true⟩,
   ⟨"INDEX", 0x08000000, 0xFF00FFFF, true⟩,
   ⟨"PIN", 0x09000000, 0xFF00FFFF, true⟩,
   ⟨"RELEASE", 0x0A000000, 0xFF00FFFF, true⟩]

/-- A word fits a row: it has the row's fixed bits, and its D field is in range where the row has a
descriptor operand (rule R95). -/
def OpcodeRow.fits (nDesc : Nat) (r : OpcodeRow) (w : Word) : Bool :=
  decide (w &&& r.mask = r.matchBits) && (!r.hasDesc || decide ((dField w).toNat < nDesc))

/-! ## The host's table word -/

/-- The command the decoder reads from a word of which the opcode table gives `nbits` bits, the bits
above them zero; N_DESC at its default (rule R11; log 1). A command is one 32-bit word (rule R104). -/
def decodeTableWord (nbits w : Nat) : Option Instr :=
  (decode Config.defaultNDesc (lanesOfWord (BitVec.ofNat 32 (w % 2 ^ nbits)))).toOption

end Sys2Proof
end

