-- ==== Sys2Proof/Machine/State.lean ====
section
/-! DEFINITION. The machine's state as plain data (10_state.md), the port events and their trace
(60_exceptions.md rule R193), the turns of the agents (00_scope.md rule R16), and the reset state
(70_reset_and_hazards.md rules R200, R203). -/

namespace Sys2Proof.Machine

/-! ## Channel descriptors (10_state.md §1) -/

/-- One descriptor `DESC[d]` (rule R30). -/
structure Desc where
  /-- 0..9, or INVALID when detached (rule R31). -/
  index : Byte
  /-- Opaque pin identifier (rule R32). -/
  pin : Byte
  /-- Pulse width in µs (rule R33). -/
  width : Half
deriving DecidableEq, Repr

/-- The constructed descriptor, as reset and RELEASE leave it (rule R34). -/
def Desc.constructed : Desc :=
  { index := Config.invalid, pin := 0, width := BitVec.ofNat 16 Config.defaultPulseWidth }

/-! ## Channel Registry (10_state.md §2) -/

/-- The registry (rule R35): `SLOT[0..9]` and the 4-bit `COUNT`. -/
structure Registry where
  slot : Vector Byte Config.maxChannels
  count : BitVec 4
deriving DecidableEq, Repr

/-- The empty registry (rules R35, R200). -/
def Registry.empty : Registry :=
  { slot := Vector.replicate Config.maxChannels 0xFF, count := 0 }

/-! ## Generator (10_state.md §3) -/

/-- GEN_RUN (rule R39) and the 14-bit TRIG_CNT (rule R40). -/
structure Generator where
  run : Bool
  trigCnt : BitVec 14
deriving DecidableEq, Repr

/-- The stopped generator (rules R39, R40, R200). -/
def Generator.stopped : Generator := { run := false, trigCnt := 0 }

/-! ## Pulse engine (10_state.md §4) -/

/-- ENG_STATE (rule R42). Code 3 is never held, so it has no constructor (log 16). -/
inductive EngState where
  | idle
  | slotActive
  | ending
deriving DecidableEq, Repr

/-- One snapshot entry (rule R43). -/
structure SnapEntry where
  pin : Byte
  width : Half
deriving DecidableEq, Repr

/-- The pulse engine (rules R42 to R45). -/
structure Engine where
  /-- ENG_STATE. -/
  st : EngState
  /-- SNAP[0..9] (rule R43). -/
  snap : Vector SnapEntry Config.maxChannels
  /-- SNAP_N (rule R43). -/
  snapN : BitVec 4
  /-- LOWERED (rule R44). -/
  lowered : BitVec 10
  /-- CUR_T (rule R45). -/
  curT : Half
  /-- WAIT_CNT (rule R45). -/
  waitCnt : Half
deriving DecidableEq, Repr

/-- The engine after reset (rules R42 to R45, R200). -/
def Engine.atReset : Engine :=
  { st := .idle, snap := Vector.replicate Config.maxChannels { pin := 0, width := 0 },
    snapN := 0, lowered := 0, curT := 0, waitCnt := 0 }

/-! ## Ports (60_exceptions.md rule R193; 30_encoding.md §4) -/

/-- The action of an answer (rule R100); its 1-bit code is `Action.code` (Machine/Ops.lean). -/
inductive Action where
  /-- NONE: no action, keep the slot as it is. -/
  | none
  /-- END: end the slot. -/
  | endSlot
deriving DecidableEq, Repr

/-- A timeslot request record (rule R101). -/
structure Request where
  /-- 0 = EARLIEST. -/
  policy : BitVec 2
  lengthUs : BitVec 16
  /-- 0 = NORMAL. -/
  priority : BitVec 2
  timeoutUs : BitVec 32
deriving DecidableEq, Repr

/-- An output event of the sequencer (rule R193). -/
inductive PortEvent where
  /-- PIN: mark a pin as output (rule R103). -/
  | configure (pin : Byte)
  /-- PIN: drive a pin (rule R103). -/
  | set (pin : Byte) (level : Level)
  /-- RADIO: open the session (rule R102). -/
  | openSession
  /-- RADIO: close the session (rule R102). -/
  | closeSession
  /-- RADIO: request a timeslot (rule R101). -/
  | request (r : Request)
  /-- ACTION: answer one event (rule R100). -/
  | answer (code : Byte) (action : Action)
deriving DecidableEq, Repr

/-- An output event with the `now` of the step that emitted it (rules R15, R81). -/
structure Stamped where
  time : Nat
  event : PortEvent
deriving DecidableEq, Repr

/-! ## Turns (00_scope.md rules R16 to R20) -/

/-- The next move of an agent or a port. The order in which agents move is open (rule R19), so it is
plain data in the state (log 4); how often Ticks come is open too (log 15). -/
inductive Turn where
  /-- The host bus master reads `n` bytes at host-bus byte address `addr` (rules R15, R70). -/
  | hostRead (addr n : Nat)
  /-- The host bus master writes the byte lanes `data`, lowest first, at host-bus byte address
  `addr`; the access width is the number of lanes (rules R15, R70, R71; log 18). -/
  | hostWrite (addr : Nat) (data : List Byte)
  /-- The host radio stack delivers an event code (rules R20, R99, R155). -/
  | deliver (code : Byte)
  /-- The timebase ticks (rule R143). -/
  | tick
  /-- The pulse engine takes its urgent step, if one is enabled (rules R18, R160, R162). -/
  | engine
  /-- The RESET port (rule R200). -/
  | reset
deriving DecidableEq, Repr

/-! ## Stops -/

/-- The sequencer has no fault state, no halt and no trap, and every input has an effect (rule R180),
so there is no fault: nothing raises one (log 17; safe, since every step answers a next state). -/
inductive Fault where
deriving DecidableEq, Repr

/-- Why a step could have no meaning. -/
inductive Refusal where
  /-- Raised only by an arm of `exec` whose command has no meaning yet; no arm is in that case.
  Safe: a run stops there, and no false claim can be proved of what follows. -/
  | notModelled (mnemonic : String)
deriving DecidableEq, Repr

/-! ## The state -/

/-- Everything the spec gives the machine (10_state.md; 70_reset_and_hazards.md rule R200), the
model's time and output trace (rules R57, R15), the parameter BASE, and two fields of the model's own
(`readData`, `schedule`). N_DESC is the length of `desc` (log 1). -/
structure State where
  /-- DESC[0..N_DESC-1] (rule R30). -/
  desc : List Desc
  /-- SLOT and COUNT (rule R35). -/
  registry : Registry
  /-- GEN_RUN and TRIG_CNT (rules R39, R40). -/
  gen : Generator
  /-- ENG_STATE, SNAP, SNAP_N, LOWERED, CUR_T, WAIT_CNT (rules R42 to R45). -/
  engine : Engine
  /-- STATUS (rule R49). -/
  status : Word
  /-- RESULT (rule R50). -/
  result : Word
  /-- The current time in µs (rules R15, R57). -/
  now : Nat
  /-- The output events of all ports, oldest first (rules R15, R81; log 9). -/
  trace : List Stamped
  /-- BASE, the host-bus byte address of the register window; no step writes it (rule R70; log 2). -/
  base : Nat
  /-- The model's own field: the byte lanes the bus returned for the latest MemRead, lowest offset
  first (rules R71, R73; log 14). -/
  readData : List Byte
  /-- The model's own field: the turns still to come (rule R19; log 4). -/
  schedule : List Turn
deriving DecidableEq, Repr

/-- N_DESC, the number of descriptors the block holds (rules R11, R30; log 1). -/
def State.nDesc (s : State) : Nat := s.desc.length

/-- The initial state of a block with `nDesc` descriptors and its window at `base`: the reset state
of rule R200 with `now = 0` (rule R203), nothing emitted and no turn listed. -/
def State.initial (nDesc base : Nat) : State :=
  { desc := List.replicate nDesc Desc.constructed
    registry := Registry.empty
    gen := Generator.stopped
    engine := Engine.atReset
    status := 0
    result := 0
    now := 0
    trace := []
    base := base
    readData := []
    schedule := [] }

/-- The machine right after reset, N_DESC and BASE at their defaults (rules R11, R200, R203;
log 1, log 2). -/
def State.reset : State := State.initial Config.defaultNDesc Config.defaultBase

end Sys2Proof.Machine
end

