-- ==== Sys2Proof/Machine/Flags.lean ====
section
/-! DEFINITION. The sticky bits of STATUS: setting one, and the write-1-to-clear of a STATUS write
(10_state.md rules R49, R52). -/

namespace Sys2Proof.Machine

/-- The four sticky bits of STATUS (rule R49). -/
inductive StatusBit where
  /-- Bit 0: a command word that is no legal command (rule R97). -/
  | badCmd
  /-- Bit 1: a register access that is no legal access (rule R73). -/
  | badAcc
  /-- Bit 2: a timer-expiry event arrived while a train was active (rule R164). -/
  | overrun
  /-- Bit 3: a slot-started event arrived while the engine was not IDLE (rule R157). -/
  | overlap
deriving DecidableEq, Repr

/-- The bit's number in STATUS, which is the condition's code (rules R49, R181). -/
def StatusBit.pos : StatusBit → Nat
  | .badCmd => 0
  | .badAcc => 1
  | .overrun => 2
  | .overlap => 3

/-- The word with that one bit set. -/
def StatusBit.mask (b : StatusBit) : Word := BitVec.twoPow 32 b.pos

/-- `flag B`: set the sticky bit (rule R15). -/
def flag (b : StatusBit) (s : State) : State := { s with status := s.status ||| b.mask }

/-- A STATUS write of `v`: `STATUS <- STATUS & ~(v & 0xF)` (rule R52). -/
def clearStatus (v : Word) (s : State) : State := { s with status := s.status &&& ~~~(v &&& 0xF) }

end Sys2Proof.Machine
end

