-- ==== Sys2Proof/Machine/Operands.lean ====
section
/-! DEFINITION. How commands read their operands and the arithmetic on them: sign extension, the
clamp, the linear map and its inverse (00_scope.md rule R14; 40_channel_commands.md rules R118,
R119, R121, R123). -/

namespace Sys2Proof.Machine

/-- `sext_16(v)`: the 16-bit immediate as two's complement (rules R14, R93). -/
def sext16 (v : Half) : Int := v.toInt

/-- `zext_32` of an 8-bit field (rule R14). -/
def zext32 (v : Byte) : Word := v.setWidth 32

/-- `clamp(v, lo, hi) = max(lo, min(hi, v))` (rule R14). -/
def clamp (v lo hi : Int) : Int := max lo (min hi v)

/-- `map(x, a0, a1, b0, b1)`, on mathematical integers, rounding toward zero (rule R119). -/
def linMap (x a0 a1 b0 b1 : Int) : Int := Int.tdiv ((x - a0) * (b1 - b0)) (a1 - a0) + b0

/-- `clamp(value, 544, 2400)` as a width field (rule R121); the result fits 16 bits. -/
def clampWidth (value : Int) : Half :=
  BitVec.ofInt 16 (clamp value Config.minPulseWidth Config.maxPulseWidth)

/-- The pulse width of an angle, before the clamp (rule R118). -/
def angleToUs (angle : Int) : Int :=
  linMap angle Config.angleMin Config.angleMax Config.minPulseWidth Config.maxPulseWidth

/-- The angle READ reports for a stored width: `map(width + 1, 544, 2400, 0, 180)` (rule R123, C1). -/
def widthToAngle (width : Half) : Int :=
  linMap (width.toNat + 1) Config.minPulseWidth Config.maxPulseWidth Config.angleMin Config.angleMax

end Sys2Proof.Machine
end

