-- ==== Sys2Proof/Machine/Ops.lean ====
section
/-! DEFINITION. The operations commands and engine steps share: emitting port events, RESULT, access
to the descriptor file, the generator's start and stop, the registry's append and compaction, the
illegal command word, reset, and the pin level read back from the trace.

The sequencer raises no exception and returns from none (60_exceptions.md rules R180, R186, R187), so
no operation takes or leaves one. -/

/-- The 1-bit code of a pin level: 1 = HIGH, 0 = LOW (30_encoding.md rule R103). -/
def Sys2Proof.Level.code : Sys2Proof.Level → BitVec 1
  | .low => 0
  | .high => 1

namespace Sys2Proof.Machine

/-- The three outcomes of a step of this machine. -/
abbrev Out := Host.Outcome State Fault Refusal

/-! ## Output events (rules R15, R81, R193) -/

/-- `emit`: append one event, stamped with the current time. -/
def emit (e : PortEvent) (s : State) : State := { s with trace := s.trace ++ [⟨s.now, e⟩] }

/-- Emit several events, the first of the list first. -/
def emitAll (es : List PortEvent) (s : State) : State :=
  { s with trace := s.trace ++ es.map fun e => ⟨s.now, e⟩ }

/-- The one request the sequencer emits: `request(EARLIEST, 2500, NORMAL, 100000)` (rule R101). -/
def theRequest : Request :=
  { policy := 0, lengthUs := BitVec.ofNat 16 Config.slotLengthUs, priority := 0,
    timeoutUs := BitVec.ofNat 32 Config.reqTimeoutUs }

/-- The 1-bit code of the action of an answer: 0 = NONE, 1 = END (30_encoding.md rule R100). -/
def Action.code : Action → BitVec 1
  | .none => 0
  | .endSlot => 1

/-- The output ports (rule R193). -/
inductive Port where
  | pin
  | radio
  | action
deriving DecidableEq, Repr

/-- The port an event is emitted on (rule R193). -/
def PortEvent.port : PortEvent → Port
  | .configure _ => .pin
  | .set _ _ => .pin
  | .openSession => .radio
  | .closeSession => .radio
  | .request _ => .radio
  | .answer _ _ => .action

/-- The trace of one port, in the order of the events (rule R81). -/
def portTrace (p : Port) (tr : List Stamped) : List Stamped := tr.filter fun e => e.event.port = p

/-- What one event does to pin `p`: the level it sets, if it sets that pin (rules R55, R103). -/
def PortEvent.setsPin (p : Byte) : PortEvent → Option Level
  | .set q l => if q = p then some l else none
  | .configure _ => none
  | .openSession => none
  | .closeSession => none
  | .request _ => none
  | .answer _ _ => none

/-- The level of pin `p` at time `t`: that of the last `set(p, ·)` event emitted at or before `t`, and
before the first such event the free value of `Config.initialPinLevel` (rule R55). -/
def pinLevelAt (tr : List Stamped) (t : Nat) (p : Byte) : Level :=
  ((tr.filter fun e => e.time ≤ t).filterMap fun e => e.event.setsPin p).getLast?.getD
    (Config.initialPinLevel p)

/-! ## RESULT and descriptors -/

/-- `RESULT <- v` (rule R50). -/
def setResult (v : Word) (s : State) : State := { s with result := v }

/-- An illegal command word (rule R97): BADCMD, RESULT all ones, nothing else. -/
def illegalCommand (s : State) : State := setResult 0xFFFFFFFF (flag .badCmd s)

/-- `DESC[d]`, for `d < N_DESC` (rule R30). -/
def State.desc? (s : State) (d : Byte) : Option Desc := s.desc[d.toNat]?

/-- Run `k` on `DESC[d]`. A legal command names a descriptor the block holds (rules R92, R107); a
descriptor id out of range makes the command illegal, with the effect of rule R97 (log 13). -/
def withDesc (d : Byte) (s : State) (k : Desc → State) : State :=
  match s.desc? d with
  | some c => k c
  | none => illegalCommand s

/-- Change `DESC[d]` by `f`; a write to a descriptor the block does not hold is dropped (log 13). -/
def modifyDesc (d : Byte) (f : Desc → Desc) (s : State) : State :=
  { s with desc := s.desc.modify d.toNat f }

/-- Store a pulse width in `DESC[d]` (rules R118, R121, R130). -/
def setWidth (d : Byte) (w : Half) (s : State) : State := modifyDesc d (fun c => { c with width := w }) s

/-- A descriptor is attached iff its index is not INVALID (rule R31). -/
def Desc.isAttached (c : Desc) : Bool := decide (c.index ≠ Config.invalid)

/-! ## Generator start and stop (rules R140, R141) -/

/-- GenStart (rule R140). -/
def genStart (s : State) : State :=
  { emitAll [.openSession, .request theRequest] s with
    gen := { run := true, trigCnt := BitVec.ofNat 14 Config.refreshUs } }

/-- GenStop (rule R141). -/
def genStop (s : State) : State := emit .closeSession { s with gen := Generator.stopped }

/-! ## Registry (rules R112, R115) -/

/-- The state changes of the last branch of ATTACH (rule R112): descriptor `d` takes the registry slot
COUNT, that number becomes its index, and its pin is stored. -/
def appendEntry (d p : Byte) (s : State) : State :=
  { s with
    registry := { slot := s.registry.slot.setIfInBounds s.registry.count.toNat d,
                  count := s.registry.count + 1 }
    desc := s.desc.modify d.toNat fun c => { c with index := s.registry.count.setWidth 8, pin := p } }

/-- The last branch of ATTACH, but for its RESULT line: the entry is appended, its pin is configured,
and the generator starts if the entry is the first (rule R112). -/
def attachEntry (d p : Byte) (s : State) : State :=
  if s.registry.count = 0 then genStart (emit (.configure p) (appendEntry d p s))
  else emit (.configure p) (appendEntry d p s)

/-- One turn of the compaction loop of DETACH (rule R115): `SLOT[j] <- SLOT[j + 1]`, then
`DESC[SLOT[j]].index <- j`. -/
def shiftDown (p : Vector Byte Config.maxChannels × List Desc) (j : Nat) :
    Vector Byte Config.maxChannels × List Desc :=
  let id := p.1[j + 1]?.getD 0xFF
  (p.1.setIfInBounds j id, p.2.modify id.toNat fun c => { c with index := BitVec.ofNat 8 j })

/-- SLOT and DESC after the compaction loop `for j from i to COUNT - 2` (rule R115). -/
def compacted (i : Nat) (s : State) : Vector Byte Config.maxChannels × List Desc :=
  (List.range' i (s.registry.count.toNat - 1 - i)).foldl shiftDown (s.registry.slot, s.desc)

/-- The state changes of the else-branch of DETACH (rule R115): entry `i` of descriptor `d` leaves the
registry, the entries above it move down by one, the freed slot reads 0xFF. -/
def removeEntry (d : Byte) (i : Nat) (s : State) : State :=
  { s with
    registry := { slot := (compacted i s).1.setIfInBounds (s.registry.count.toNat - 1) 0xFF,
                  count := s.registry.count - 1 }
    desc := (compacted i s).2.modify d.toNat fun c => { c with index := Config.invalid } }

/-- The else-branch of DETACH, but for its RESULT line: the entry leaves, and the generator stops if
none is left (rules R115, R130). -/
def detachEntry (d : Byte) (i : Nat) (s : State) : State :=
  if s.registry.count - 1 = 0 then genStop (removeEntry d i s) else removeEntry d i s

/-! ## Reset (rules R200, R201, R203) -/

/-- The RESET port's step: every element of sequencer state takes its reset value; `now`, the output
trace, the parameters, the bus's data and the turns to come stay, and no event is emitted. -/
def resetStep (s : State) : State :=
  { State.initial s.nDesc s.base with
    now := s.now, trace := s.trace, readData := s.readData, schedule := s.schedule }

end Sys2Proof.Machine
end

