-- ==== Sys2Proof/Machine/QueryCmds.lean ====
section
/-! DEFINITION. The commands that only report a descriptor field in RESULT: READ, READ_US, ATTACHED,
INDEX, PIN (40_channel_commands.md rules R123, R125 to R128). -/

namespace Sys2Proof.Machine

/-- READ (rule R123). -/
def execRead (d : Byte) (s : State) : Out :=
  .next <| withDesc d s fun c => setResult (BitVec.ofInt 32 (widthToAngle c.width)) s

/-- READ_US (rule R125). -/
def execReadUs (d : Byte) (s : State) : Out :=
  .next <| withDesc d s fun c => setResult (c.width.setWidth 32) s

/-- ATTACHED (rule R126). -/
def execAttached (d : Byte) (s : State) : Out :=
  .next <| withDesc d s fun c => setResult (if c.isAttached then 1 else 0) s

/-- INDEX (rule R127). -/
def execIndex (d : Byte) (s : State) : Out :=
  .next <| withDesc d s fun c => setResult (zext32 c.index) s

/-- PIN (rule R128). -/
def execPin (d : Byte) (s : State) : Out :=
  .next <| withDesc d s fun c => setResult (zext32 c.pin) s

end Sys2Proof.Machine
end

