-- ==== Sys2Proof/Machine/RegistryCmds.lean ====
section
/-! DEFINITION. NOP and the commands that change the registry: ATTACH, DETACH, RELEASE
(40_channel_commands.md rules R110, R112, R115, R130). -/

namespace Sys2Proof.Machine

/-- NOP (rule R110): `RESULT <- 0`. -/
def execNop (s : State) : Out := .next (setResult 0 s)

/-- ATTACH (rule R112): an attached descriptor reports its index, a full registry reports INVALID,
and otherwise the descriptor takes the next registry slot, whose number is the result. -/
def execAttach (d p : Byte) (s : State) : Out :=
  .next <| withDesc d s fun c =>
    if c.isAttached then setResult (zext32 c.index) s
    else if s.registry.count.toNat = Config.maxChannels then setResult (zext32 Config.invalid) s
    else setResult (s.registry.count.setWidth 32) (attachEntry d p s)

/-- DETACH (rule R115): a detached descriptor is left alone, an attached one leaves the registry. -/
def execDetach (d : Byte) (s : State) : Out :=
  .next <| withDesc d s fun c =>
    if c.isAttached then setResult 0 (detachEntry d c.index.toNat s) else setResult 0 s

/-- RELEASE's construction of the descriptor afresh: width 1500, pin 0 (rule R130). -/
def construct (d : Byte) (s : State) : State :=
  modifyDesc d (fun c => { c with width := BitVec.ofNat 16 Config.defaultPulseWidth, pin := 0 }) s

/-- RELEASE (rule R130): detach if attached, then construct the descriptor afresh. -/
def execRelease (d : Byte) (s : State) : Out :=
  .next <| withDesc d s fun c =>
    setResult 0 (construct d (if c.isAttached then detachEntry d c.index.toNat s else s))

end Sys2Proof.Machine
end

