-- ==== Sys2Proof/Machine/WidthCmds.lean ====
section
/-! DEFINITION. The commands that store a pulse width: WRITE and WRITE_US (40_channel_commands.md
rules R118, R121). -/

namespace Sys2Proof.Machine

/-- WRITE (rule R118): map the angle linearly to µs, clamp, store. -/
def execWrite (d : Byte) (angle : Half) (s : State) : Out :=
  .next <| withDesc d s fun _ => setResult 0 (setWidth d (clampWidth (angleToUs (sext16 angle))) s)

/-- WRITE_US (rule R121): clamp the value, store. -/
def execWriteUs (d : Byte) (value : Half) (s : State) : Out :=
  .next <| withDesc d s fun _ => setResult 0 (setWidth d (clampWidth (sext16 value)) s)

end Sys2Proof.Machine
end

