-- ==== Sys2Proof/Machine/Dispatch.lean ====
section
/-! DEFINITION. One arm per command (30_encoding.md rule R94). -/

namespace Sys2Proof.Machine

def exec (i : Instr) (s : State) : Host.Outcome State Fault Refusal :=
  match i with
  | .nop => Sys2Proof.Machine.execNop s
  | .attach d p => Sys2Proof.Machine.execAttach d p s
  | .detach d => Sys2Proof.Machine.execDetach d s
  | .write d angle => Sys2Proof.Machine.execWrite d angle s
  | .writeUs d value => Sys2Proof.Machine.execWriteUs d value s
  | .read d => Sys2Proof.Machine.execRead d s
  | .readUs d => Sys2Proof.Machine.execReadUs d s
  | .attached d => Sys2Proof.Machine.execAttached d s
  | .index d => Sys2Proof.Machine.execIndex d s
  | .pin d => Sys2Proof.Machine.execPin d s
  | .release d => Sys2Proof.Machine.execRelease d s

end Sys2Proof.Machine
end

