-- ==== Sys2Proof/Machine/Registers.lean ====
section
/-! DEFINITION. The register window: which offset is which register, in which direction it may be
accessed, and what it reads as (10_state.md rules R51 to R54; 20_memory.md rules R72, R74). -/

namespace Sys2Proof.Machine

/-- The defined registers (rule R51). -/
inductive Reg where
  | cmd
  | result
  | status
  | gen
  | cfg
  | engT
  | engLowered
  | slot (i : Fin Config.maxChannels)
  | snap (k : Fin Config.maxChannels)
deriving DecidableEq, Repr

/-- The `i`-th register of a bank of ten, for `i` in range. -/
def bankReg (f : Fin Config.maxChannels → Reg) (i : Nat) : Option Reg :=
  if h : i < Config.maxChannels then some (f ⟨i, h⟩) else none

/-- The register at word number `j` of the window, offset `4j`; `none` for a reserved one (rules R51,
R74). -/
def Reg.ofWordIndex (j : Nat) : Option Reg :=
  match j with
  | 0 => some .cmd
  | 1 => some .result
  | 2 => some .status
  | 3 => some .gen
  | 4 => some .cfg
  | 5 => some .engT
  | 6 => some .engLowered
  | _ =>
    if 0x40 / 4 ≤ j ∧ j < 0x80 / 4 then bankReg .slot (j - 0x40 / 4)
    else if 0x80 / 4 ≤ j then bankReg .snap (j - 0x80 / 4)
    else none

/-- The defined register at byte offset `off`, which must be word-aligned (rules R51, R72). -/
def Reg.ofOffset (off : Nat) : Option Reg :=
  if off % 4 = 0 then Reg.ofWordIndex (off / 4) else none

/-- Reading is allowed: every register but CMD (rule R72). -/
def Reg.readable : Reg → Bool
  | .cmd => false
  | .result => true
  | .status => true
  | .gen => true
  | .cfg => true
  | .engT => true
  | .engLowered => true
  | .slot _ => true
  | .snap _ => true

/-- Writing is allowed: CMD and STATUS (rule R72). -/
def Reg.writable : Reg → Bool
  | .cmd => true
  | .result => false
  | .status => true
  | .gen => false
  | .cfg => false
  | .engT => false
  | .engLowered => false
  | .slot _ => false
  | .snap _ => false

/-- The register a legal read of `n` bytes at `off` reaches; `none` if the read is illegal (rule R72). -/
def readTarget (off n : Nat) : Option Reg :=
  if n = 4 then (Reg.ofOffset off).filter Reg.readable else none

/-- The register a legal write of `n` bytes at `off` reaches; `none` if the write is illegal (rule
R72). -/
def writeTarget (off n : Nat) : Option Reg :=
  if n = 4 then (Reg.ofOffset off).filter Reg.writable else none

/-- The 2-bit code of ENG_STATE (rule R42). -/
def EngState.code : EngState → BitVec 2
  | .idle => 0
  | .slotActive => 1
  | .ending => 2

/-- GEN: [0] GEN_RUN, [5:4] ENG_STATE, [11:8] COUNT, [15:12] SNAP_N, [31:16] TRIG_CNT (rules R51,
R53). -/
def genValue (s : State) : Word :=
  s.gen.trigCnt.setWidth 16 ++ s.engine.snapN ++ s.registry.count ++ (0 : BitVec 2) ++
    s.engine.st.code ++ (0 : BitVec 3) ++ BitVec.ofBool s.gen.run

/-- CFG: [7:0] MAX_CHANNELS, [16:8] N_DESC, [31:24] VERSION (rule R51). -/
def cfgValue (s : State) : Word :=
  Config.version ++ (0 : BitVec 7) ++ BitVec.ofNat 9 s.nDesc ++ BitVec.ofNat 8 Config.maxChannels

/-- What a register reads as (rules R51, R53, R54). CMD holds nothing and is never read legally. -/
def Reg.value (s : State) : Reg → Word
  | .cmd => 0
  | .result => s.result
  | .status => s.status
  | .gen => genValue s
  | .cfg => cfgValue s
  | .engT => s.engine.waitCnt ++ s.engine.curT
  | .engLowered => s.engine.lowered.setWidth 32
  | .slot i => s.registry.slot[i].setWidth 32
  | .snap k => (0 : BitVec 8) ++ s.engine.snap[k].pin ++ s.engine.snap[k].width

end Sys2Proof.Machine
end

