-- ==== Sys2Proof/Machine/Bus.lean ====
section
/-! DEFINITION. The accesses of the host bus master: reads and writes of the register window, and the
command a CMD write runs (20_memory.md rules R70 to R77; 30_encoding.md rules R90, R97). -/

namespace Sys2Proof.Machine

/-- The byte offset in the register window of host-bus byte address `addr`; `none` outside the window
`[BASE, BASE + 256)`, where the block is not addressed (rule R70; log 3). -/
def windowOffset (base addr : Nat) : Option Nat :=
  if base ≤ addr ∧ addr < base + Config.regBytes then some (addr - base) else none

/-- `MemRead(off, n)` (rule R73): a legal read returns the register's byte lanes and changes nothing;
an illegal one returns `n` zero bytes and sets BADACC. -/
def memRead (off n : Nat) (s : State) : State :=
  match readTarget off n with
  | some r => { s with readData := lanesOfWord (r.value s) }
  | none => flag .badAcc { s with readData := List.replicate n 0 }

/-- A CMD write (rule R90): a legal command runs, an illegal word acts as rule R97 says. -/
def runCommand (data : List Byte) (s : State) : Out :=
  match decode s.nDesc data with
  | .ok i => exec i s
  | .error _ => .next (illegalCommand s)

/-- The word of four byte lanes, lowest offset first; only four lanes reach a register (rules R71,
R72). -/
def busWord : List Byte → Word
  | [b0, b1, b2, b3] => wordOfLanes b0 b1 b2 b3
  | _ => 0

/-- `MemWrite(off, n, v)` with the lanes `data` of `v`, `n` of them (rules R72, R73): a CMD write runs
its command, a STATUS write clears bits, every other write is ignored and sets BADACC. -/
def memWrite (off : Nat) (data : List Byte) (s : State) : Out :=
  match writeTarget off data.length with
  | some .cmd => runCommand data s
  | some .status => .next (clearStatus (busWord data) s)
  | _ => .next (flag .badAcc s)

/-- A read by the host bus master; outside the window it does not reach the block (log 3). -/
def hostRead (addr n : Nat) (s : State) : State :=
  match windowOffset s.base addr with
  | some off => memRead off n s
  | none => s

/-- A write by the host bus master; outside the window it does not reach the block (log 3). -/
def hostWrite (addr : Nat) (data : List Byte) (s : State) : Out :=
  match windowOffset s.base addr with
  | some off => memWrite off data s
  | none => .next s

end Sys2Proof.Machine
end

