-- ==== Sys2Proof/Machine/Generator.lean ====
section
/-! DEFINITION. The timebase's step and the refresh trigger (41_generator.md rule R143), and which
engine steps are urgent (00_scope.md rule R18). -/

namespace Sys2Proof.Machine

/-- Wake is enabled (rule R160): a train is active and its wait is over. -/
def wakeEnabled (s : State) : Bool := decide (s.engine.st = .slotActive) && decide (s.engine.waitCnt = 0)

/-- End is enabled (rule R162). -/
def endEnabled (s : State) : Bool := decide (s.engine.st = .ending)

/-- An urgent engine step is enabled (rule R18). -/
def urgent (s : State) : Bool := wakeEnabled s || endEnabled s

/-- Tick is enabled iff no urgent step is (rules R18, R143). -/
def tickEnabled (s : State) : Bool := !urgent s

/-- The refresh trigger's part of Tick: count down, and at 0 emit a request and reload (rule R143). -/
def tickTrigger (s : State) : State :=
  if s.gen.run then
    if s.gen.trigCnt - 1 = 0 then
      { emit (.request theRequest) s with
        gen := { s.gen with trigCnt := BitVec.ofNat 14 Config.refreshUs } }
    else { s with gen := { s.gen with trigCnt := s.gen.trigCnt - 1 } }
  else s

/-- The pulse engine's part of Tick: one µs of the train's wait is over (rule R143). -/
def tickWait (s : State) : State :=
  if s.engine.st = .slotActive then { s with engine := { s.engine with waitCnt := s.engine.waitCnt - 1 } }
  else s

/-- Tick (rule R143). -/
def tick (s : State) : State := tickWait (tickTrigger { s with now := s.now + 1 })

end Sys2Proof.Machine
end

