-- ==== Sys2Proof/Machine/PulseEngine.lean ====
section
/-! DEFINITION. The pulse engine: event delivery, slot start, Wake, End, timer expiry, radio and other
events (42_pulse_engine.md rules R155 to R168), and the train as a pure function (rule R169). -/

namespace Sys2Proof.Machine

/-! ## Event codes (30_encoding.md rule R99) -/

/-- The four event kinds; OTHER keeps its code. -/
inductive EventKind where
  | slotStarted
  | timerExpiry
  | radio
  | other (code : Byte)
deriving DecidableEq, Repr

/-- The kind of an event code (rule R99). -/
def eventKind (code : Byte) : EventKind :=
  match code.toNat with
  | 0x00 => .slotStarted
  | 0x01 => .timerExpiry
  | 0x02 => .radio
  | _ => .other code

/-! ## Slot started (rules R157, R158) -/

/-- The pin and width of the descriptor at registry slot `k` (rules R158, R159). A registry slot below
COUNT names a descriptor the block holds (rule R36); one that does not reads as a constructed
descriptor (log 13). -/
def registryEntry (s : State) (k : Nat) : SnapEntry :=
  let c := (s.desc? (s.registry.slot[k]?.getD 0xFF)).getD Desc.constructed
  { pin := c.pin, width := c.width }

/-- SNAP after a slot start: entry `k < COUNT` is the registry's, the others keep their values (rule
R158). -/
def snapshot (s : State) : Vector SnapEntry Config.maxChannels :=
  Vector.ofFn fun k : Fin Config.maxChannels =>
    if k.val < s.registry.count.toNat then registryEntry s k.val else s.engine.snap[k]

/-- The valid entries of the snapshot, SNAP[0..SNAP_N-1]. -/
def Engine.entries (e : Engine) : List SnapEntry := e.snap.toList.take e.snapN.toNat

/-- Entry `k` of the snapshot is valid and not lowered yet. -/
def Engine.isPending (e : Engine) (k : Nat) : Bool :=
  decide (k < e.snapN.toNat) && !e.lowered.getLsbD k

/-- SNAP[k].width in µs; an index beyond the ten entries reads 0 (log 13). -/
def Engine.widthOf (e : Engine) (k : Nat) : Nat := ((e.snap[k]?.map fun x => x.width.toNat)).getD 0

/-- SNAP[k].pin; an index beyond the ten entries reads 0 (log 13). -/
def Engine.pinOf (e : Engine) (k : Nat) : Byte := ((e.snap[k]?.map fun x => x.pin)).getD 0

/-- The valid entries not lowered yet, in ascending index: the set Rem of rule R160. -/
def Engine.pending (e : Engine) : List Nat :=
  (List.range Config.maxChannels).filter fun k => e.isPending k

/-- The least width among the entries not lowered yet. -/
def Engine.minPendingWidth (e : Engine) : Option Nat := (e.pending.map e.widthOf).min?

/-- The engine with the registry's snapshot loaded: SNAP, SNAP_N and LOWERED (rule R158). -/
def loadSnapshot (s : State) : Engine :=
  { s.engine with snap := snapshot s, snapN := s.registry.count, lowered := 0 }

/-- The engine after a slot start with its snapshot loaded: ENDING if the snapshot is empty, else the
first wait, of the least width (rule R158). -/
def Engine.rise (e : Engine) : Engine :=
  match e.minPendingWidth with
  | none => { e with st := .ending }
  | some t => { e with st := .slotActive, curT := BitVec.ofNat 16 t, waitCnt := BitVec.ofNat 16 t }

/-- SLOT_STARTED while IDLE: snapshot and rise, every pin of the snapshot HIGH (rule R158). -/
def slotStart (s : State) : State :=
  { emitAll ((loadSnapshot s).entries.map fun x => .set x.pin .high) s with
    engine := (loadSnapshot s).rise }

/-- SLOT_STARTED while not IDLE (rule R157). -/
def slotOverlap (s : State) : State := emit (.answer 0x00 .none) (flag .overlap s)

/-- SLOT_STARTED (rule R155's table). -/
def slotStarted (s : State) : State := if s.engine.st = .idle then slotStart s else slotOverlap s

/-! ## Wake and End (rules R160, R162) -/

/-- The entries a Wake lowers, in ascending index: not lowered yet, of width at most CUR_T (rule
R160). -/
def Engine.due (e : Engine) : List Nat := e.pending.filter fun k => e.widthOf k ≤ e.curT.toNat

/-- LOWERED with the bits of `ks` set. -/
def markLowered (lowered : BitVec 10) (ks : List Nat) : BitVec 10 :=
  ks.foldl (fun m k => m ||| BitVec.twoPow 10 k) lowered

/-- The engine with the due entries marked in LOWERED (rule R160). -/
def Engine.lowerDue (e : Engine) : Engine := { e with lowered := markLowered e.lowered e.due }

/-- The engine after a Wake with its due entries marked: ENDING if nothing remains, else the next wait,
up to the least remaining width (rule R160). -/
def Engine.rewait (e : Engine) : Engine :=
  match e.minPendingWidth with
  | none => { e with st := .ending }
  | some nxt => { e with waitCnt := BitVec.ofNat 16 nxt - e.curT, curT := BitVec.ofNat 16 nxt }

/-- Wake (rule R160): the due pins LOW, then the next wait or ENDING. -/
def wake (s : State) : State :=
  { emitAll (s.engine.due.map fun k => .set (s.engine.pinOf k) .low) s with
    engine := s.engine.lowerDue.rewait }

/-- End (rule R162). -/
def endSlot (s : State) : State :=
  { emit (.answer 0x00 .endSlot) s with engine := { s.engine with st := .idle } }

/-- The urgent engine step that is enabled, if one is (rules R18, R160, R162). -/
def engineStep (s : State) : State :=
  if wakeEnabled s then wake s else if endEnabled s then endSlot s else s

/-! ## Timer expiry, radio and other events (rules R164 to R166) -/

/-- An overrun: the active train is aborted and its owed answer given (rule R164). -/
def abortTrain (s : State) : State := endSlot (flag .overrun s)

/-- TIMER_EXPIRY (rule R164): an active train is aborted; the event itself is answered END. -/
def timerExpiry (s : State) : State :=
  emit (.answer 0x01 .endSlot) (if s.engine.st = .slotActive then abortTrain s else s)

/-- RADIO (rule R165). -/
def radioEvent (s : State) : State := emit (.answer 0x02 .none) s

/-- OTHER (rule R166). -/
def otherEvent (code : Byte) (s : State) : State := emit (.answer code .none) s

/-- Deliver(code) (rule R155): enabled in every state, each branch the whole step. -/
def deliver (code : Byte) (s : State) : State :=
  match eventKind code with
  | .slotStarted => slotStarted s
  | .timerExpiry => timerExpiry s
  | .radio => radioEvent s
  | .other c => otherEvent c s

/-! ## The train as a pure function (rule R169) -/

/-- `v` put into an ascending list without repeats. -/
def insertWidth (v : Nat) : List Nat → List Nat
  | [] => [v]
  | x :: xs => if v < x then v :: x :: xs else if v = x then x :: xs else x :: insertWidth v xs

/-- The distinct widths of a snapshot, in increasing order. -/
def distinctWidths (es : List SnapEntry) : List Nat :=
  es.foldr (fun x ws => insertWidth x.width.toNat ws) []

/-- One event of a train: offset in µs from the slot start, pin and level. -/
structure TrainEvent where
  offset : Nat
  pin : Byte
  level : Level
deriving DecidableEq, Repr

/-- `train(S)` (rule R169): every pin HIGH at offset 0, then for each distinct width in increasing
order the pins of that width LOW at it. -/
def train (es : List SnapEntry) : List TrainEvent :=
  (es.map fun x => ⟨0, x.pin, .high⟩) ++
    (distinctWidths es).flatMap fun v =>
      (es.filter fun x => x.width.toNat = v).map fun x => ⟨v, x.pin, .low⟩

/-- A train event of a train begun at `ts`, as the pin port's trace shows it. -/
def TrainEvent.stamped (ts : Nat) (e : TrainEvent) : Stamped := ⟨ts + e.offset, .set e.pin e.level⟩

end Sys2Proof.Machine
end

