-- ==== Sys2Proof/Machine/Turns.lean ====
section
/-! DEFINITION. What one turn of an agent does (00_scope.md rules R16 to R20), and how a command word
is put where the machine takes its next turn. -/

namespace Sys2Proof.Machine

/-- One turn, `s` holding the turns after it. A Tick whose turn comes while an urgent engine step is
enabled waits: the engine step is taken and the Tick stays next (rule R18; log 6). An engine turn
with nothing urgent changes nothing (log 7). -/
def takeTurn (t : Turn) (s : State) : Out :=
  match t with
  | .hostRead addr n => .next (hostRead addr n s)
  | .hostWrite addr data => hostWrite addr data s
  | .deliver code => .next (deliver code s)
  | .tick =>
    if tickEnabled s then .next (tick s)
    else .next (engineStep { s with schedule := .tick :: s.schedule })
  | .engine => .next (engineStep s)
  | .reset => .next (resetStep s)

/-- The machine left to itself (log 5): the urgent engine step if one is enabled, else Tick. -/
def advance (s : State) : State := if tickEnabled s then tick s else engineStep s

/-- `s` with a CMD write of the word `w` (of which `nbits` bits are given, the others zero) as the
next turn (rules R90, R104; log 8). -/
def withCommandWord (s : State) (nbits w : Nat) : State :=
  { s with schedule :=
      .hostWrite s.base (lanesOfWord (BitVec.ofNat 32 (w % 2 ^ nbits))) :: s.schedule }

end Sys2Proof.Machine
end

