-- ==== Sys2Proof/Machine/Step.lean ====
section
/-! DEFINITION. One step of the machine: the next turn of its schedule (00_scope.md rules R17, R19). -/

namespace Sys2Proof.Machine

/-- Take the next turn listed, or, when none is, let the machine advance by itself (log 4, log 5). -/
def step (s : State) : Host.Outcome State Fault Refusal :=
  match s.schedule with
  | [] => .next (advance s)
  | t :: rest => takeTurn t { s with schedule := rest }

/-- `s` about to run the command word `w`: the block fetches nothing, so the word is the CMD write the
host bus master makes next (20_memory.md rule R84; log 8). -/
def State.withFetchWord (s : State) (nbits w : Nat) : State := withCommandWord s nbits w

end Sys2Proof.Machine
end

