-- ==== Sys2Proof/Machine/Assembler.lean ====
section
/-! DEFINITION. The assembler syntax and the pseudo-instructions (30_encoding.md rules R105, R106): a
line of text is parsed to an `AsmLine`, and an `AsmLine` assembles to the accesses a host makes. What
an access does is the machine's business (Machine/Bus.lean); nothing here gives a command a meaning. -/

namespace Sys2Proof.Machine

/-! ## Lines and what they assemble to -/

/-- A parsed line: the forms of rule R105, then the pseudo-instructions of rule R106. Operands are the
numbers as written; their ranges are checked when the line is assembled. -/
inductive AsmLine where
  | nop
  | attach (n : Nat) (pin : Int)
  | detach (n : Nat)
  | write (n : Nat) (angle : Int)
  | writeUs (n : Nat) (value : Int)
  | read (n : Nat)
  | readUs (n : Nat)
  | attached (n : Nat)
  | index (n : Nat)
  | pin (n : Nat)
  | release (n : Nat)
  | center (n : Nat)
  | toMin (n : Nat)
  | toMax (n : Nat)
  | servo (n : Nat) (pin value : Int)
  | clearStatus
deriving DecidableEq, Repr

/-- A write the host makes for a line: a command word to CMD, or a value to STATUS (rule R106). -/
inductive HostOp where
  | command (w : Word)
  | statusWrite (v : Word)
deriving DecidableEq, Repr

/-- The descriptor operand `dN`: an assembly error (`none`) if N is not below N_DESC (rule R105). -/
def asmDesc (nDesc n : Nat) : Option Byte := if n < nDesc then some (BitVec.ofNat 8 n) else none

/-- The operand PIN, 0..255 (rule R105). -/
def asmPin (v : Int) : Option Byte := if 0 ≤ v ∧ v ≤ 255 then some (BitVec.ofInt 8 v) else none

/-- The operands ANGLE and VALUE, -32768..32767, in two's complement (rule R105). -/
def asmHalf (v : Int) : Option Half :=
  if -32768 ≤ v ∧ v ≤ 32767 then some (BitVec.ofInt 16 v) else none

/-- ATTACH with its operands in range (rule R105). -/
def asmAttach (nDesc n : Nat) (v : Int) : Option Instr :=
  (asmDesc nDesc n).bind fun d => (asmPin v).map fun p => .attach d p

/-- WRITE_US with its operands in range (rule R105). -/
def asmWriteUs (nDesc n : Nat) (v : Int) : Option Instr :=
  (asmDesc nDesc n).bind fun d => (asmHalf v).map fun x => .writeUs d x

/-- The commands a line stands for, in order; `none` is an assembly error. `clear_status` is no
command and has none here (rules R105, R106). -/
def AsmLine.commands (nDesc : Nat) : AsmLine → Option (List Instr)
  | .nop => some [.nop]
  | .attach n p => (asmAttach nDesc n p).map fun i => [i]
  | .detach n => (asmDesc nDesc n).map fun d => [.detach d]
  | .write n a => (asmDesc nDesc n).bind fun d => (asmHalf a).map fun x => [.write d x]
  | .writeUs n v => (asmWriteUs nDesc n v).map fun i => [i]
  | .read n => (asmDesc nDesc n).map fun d => [.read d]
  | .readUs n => (asmDesc nDesc n).map fun d => [.readUs d]
  | .attached n => (asmDesc nDesc n).map fun d => [.attached d]
  | .index n => (asmDesc nDesc n).map fun d => [.index d]
  | .pin n => (asmDesc nDesc n).map fun d => [.pin d]
  | .release n => (asmDesc nDesc n).map fun d => [.release d]
  | .center n => (asmWriteUs nDesc n Config.defaultPulseWidth).map fun i => [i]
  | .toMin n => (asmWriteUs nDesc n Config.minPulseWidth).map fun i => [i]
  | .toMax n => (asmWriteUs nDesc n Config.maxPulseWidth).map fun i => [i]
  | .servo n p v =>
    (asmWriteUs nDesc n v).bind fun w => (asmAttach nDesc n p).map fun a => [w, a]
  | .clearStatus => some []

/-- The accesses a line stands for, in order: one CMD write per command, and for `clear_status` the
STATUS write of 0xF (rules R105, R106). -/
def AsmLine.assemble (nDesc : Nat) : AsmLine → Option (List HostOp)
  | .clearStatus => some [.statusWrite 0xF]
  | l => (l.commands nDesc).map fun is => is.map fun i => .command (encodeWord i)

/-- The access as a turn of the host bus master of a block at `base`: CMD is at offset 0x00, STATUS at
0x08 (10_state.md rule R51). -/
def HostOp.turn (base : Nat) : HostOp → Turn
  | .command w => .hostWrite base (lanesOfWord w)
  | .statusWrite v => .hostWrite (base + 0x08) (lanesOfWord v)

/-! ## The text of a line (rule R105; log 19) -/

/-- Blanks between the parts of a line. -/
def isBlank (c : Char) : Bool := c = ' ' || c = '\t'

/-- `cs` without the blanks at its two ends. -/
def trimBlanks (cs : List Char) : List Char :=
  ((cs.dropWhile isBlank).reverse.dropWhile isBlank).reverse

/-- A decimal digit's value. -/
def decDigit (c : Char) : Option Nat :=
  if '0' ≤ c ∧ c ≤ '9' then some (c.toNat - '0'.toNat) else none

/-- A hexadecimal digit's value, in either case. -/
def hexDigit (c : Char) : Option Nat :=
  if 'a' ≤ c ∧ c ≤ 'f' then some (c.toNat - 'a'.toNat + 10)
  else if 'A' ≤ c ∧ c ≤ 'F' then some (c.toNat - 'A'.toNat + 10)
  else decDigit c

/-- The digits `cs` in base `b`, continuing from `acc`. -/
def digitsFrom (b : Nat) (digit : Char → Option Nat) : Nat → List Char → Option Nat
  | acc, [] => some acc
  | acc, c :: cs => (digit c).bind fun v => digitsFrom b digit (acc * b + v) cs

/-- A number of at least one digit. -/
def digits (b : Nat) (digit : Char → Option Nat) : List Char → Option Nat
  | [] => none
  | c :: cs => digitsFrom b digit 0 (c :: cs)

/-- A number: decimal, optionally signed, or hexadecimal `0x..` (rule R105). -/
def parseNumber : List Char → Option Int
  | '0' :: 'x' :: cs => (digits 16 hexDigit cs).map fun n => (n : Int)
  | '-' :: cs => (digits 10 decDigit cs).map fun n => -(n : Int)
  | '+' :: cs => (digits 10 decDigit cs).map fun n => (n : Int)
  | cs => (digits 10 decDigit cs).map fun n => (n : Int)

/-- A descriptor `d<n>`, n decimal (rule R105). -/
def parseDesc : List Char → Option Nat
  | 'd' :: cs => digits 10 decDigit cs
  | _ => none

/-- The parts of `cs` between commas; `cur` is the part being read, backwards. -/
def splitCommas (cur : List Char) : List Char → List (List Char)
  | [] => [cur.reverse]
  | c :: cs => if c = ',' then cur.reverse :: splitCommas [] cs else splitCommas (c :: cur) cs

/-- The operands after a mnemonic: none for a blank rest, else the parts between commas. -/
def parseOperands (cs : List Char) : List (List Char) :=
  match trimBlanks cs with
  | [] => []
  | c :: cs => (splitCommas [] (c :: cs)).map trimBlanks

/-- A line's form with one descriptor operand. -/
def parseD (f : Nat → AsmLine) : List (List Char) → Option AsmLine
  | [d] => (parseDesc d).map f
  | _ => none

/-- A line's form with a descriptor and a number. -/
def parseDN (f : Nat → Int → AsmLine) : List (List Char) → Option AsmLine
  | [d, v] => (parseDesc d).bind fun n => (parseNumber v).map (f n)
  | _ => none

/-- A line's form with a descriptor and two numbers. -/
def parseDNN (f : Nat → Int → Int → AsmLine) : List (List Char) → Option AsmLine
  | [d, v, w] =>
    (parseDesc d).bind fun n => (parseNumber v).bind fun x => (parseNumber w).map (f n x)
  | _ => none

/-- A line's form without operands. -/
def parseBare (l : AsmLine) : List (List Char) → Option AsmLine
  | [] => some l
  | _ => none

/-- The form of a line by its mnemonic, lower case (rules R105, R106). -/
def parseForm (mnemonic : List Char) : List (List Char) → Option AsmLine :=
  if mnemonic = ['n', 'o', 'p'] then parseBare .nop
  else if mnemonic = ['a', 't', 't', 'a', 'c', 'h'] then parseDN .attach
  else if mnemonic = ['d', 'e', 't', 'a', 'c', 'h'] then parseD .detach
  else if mnemonic = ['w', 'r', 'i', 't', 'e'] then parseDN .write
  else if mnemonic = ['w', 'r', 'i', 't', 'e', '_', 'u', 's'] then parseDN .writeUs
  else if mnemonic = ['r', 'e', 'a', 'd'] then parseD .read
  else if mnemonic = ['r', 'e', 'a', 'd', '_', 'u', 's'] then parseD .readUs
  else if mnemonic = ['a', 't', 't', 'a', 'c', 'h', 'e', 'd'] then parseD .attached
  else if mnemonic = ['i', 'n', 'd', 'e', 'x'] then parseD .index
  else if mnemonic = ['p', 'i', 'n'] then parseD .pin
  else if mnemonic = ['r', 'e', 'l', 'e', 'a', 's', 'e'] then parseD .release
  else if mnemonic = ['c', 'e', 'n', 't', 'e', 'r'] then parseD .center
  else if mnemonic = ['t', 'o', '_', 'm', 'i', 'n'] then parseD .toMin
  else if mnemonic = ['t', 'o', '_', 'm', 'a', 'x'] then parseD .toMax
  else if mnemonic = ['s', 'e', 'r', 'v', 'o'] then parseDNN .servo
  else if mnemonic = ['c', 'l', 'e', 'a', 'r', '_', 's', 't', 'a', 't', 'u', 's'] then
    parseBare .clearStatus
  else fun _ => none

/-- A line of text without its comment; `some none` is a line with nothing on it, `none` a line that
has no form of rules R105 and R106. -/
def parseLine (text : List Char) : Option (Option AsmLine) :=
  let body := trimBlanks (text.takeWhile fun c => c ≠ ';')
  match body with
  | [] => some none
  | c :: cs =>
    let isPart := fun c => !isBlank c
    (parseForm ((c :: cs).takeWhile isPart) (parseOperands ((c :: cs).dropWhile isPart))).map some

/-- The accesses a line of text stands for; `none` is an assembly error (rule R105). -/
def assembleText (nDesc : Nat) (text : List Char) : Option (List HostOp) :=
  (parseLine text).bind fun
    | none => some []
    | some l => l.assemble nDesc

end Sys2Proof.Machine
end

