-- ==== Sys2Proof/Safety.lean ====
section
/-! DEFINITION. What holds after every step: the invariants of 10_state.md (rules R31, R33, R36, R37,
R40, R41, R43, R46, R49), and what a train and a slot still owe the ports (rules R48, R163). No state
is an error state (60_exceptions.md rule R180): a run is safe if these hold along it. -/

namespace Sys2Proof.Machine

/-! ## Descriptors and registry -/

/-- N_DESC is in its range (rule R11). -/
def State.SizeOk (s : State) : Prop := 1 ≤ s.nDesc ∧ s.nDesc ≤ 256

/-- Every stored width is a legal pulse width (rule R33). -/
def State.WidthsOk (s : State) : Prop :=
  ∀ c ∈ s.desc, Config.minPulseWidth ≤ c.width.toNat ∧ c.width.toNat ≤ Config.maxPulseWidth

/-- Every index is 0..9 or INVALID (rule R31). -/
def State.IndicesOk (s : State) : Prop :=
  ∀ c ∈ s.desc, c.index.toNat < Config.maxChannels ∨ c.index = Config.invalid

/-- SLOT[i]; an index beyond the ten slots reads 0xFF. -/
def State.slotId (s : State) (i : Nat) : Byte := s.registry.slot[i]?.getD 0xFF

/-- COUNT as a number. -/
def State.count (s : State) : Nat := s.registry.count.toNat

/-- The attached descriptors in registry order: SLOT[0..COUNT-1]. -/
def State.attachedIds (s : State) : List Byte := s.registry.slot.toList.take s.count

/-- The contiguity invariant (rules R35, R36). -/
def State.Contiguous (s : State) : Prop :=
  s.count ≤ Config.maxChannels ∧
  (∀ i, i < s.count → ∃ c, s.desc? (s.slotId i) = some c ∧ c.index.toNat = i) ∧
  (∀ i, s.count ≤ i → i < Config.maxChannels → s.slotId i = 0xFF)

/-- The membership invariant (rule R37): a descriptor is attached iff exactly one registry slot below
COUNT holds its id. -/
def State.Membership (s : State) : Prop :=
  ∀ d c, s.desc? d = some c →
    (c.isAttached = true ↔ ∃! i, i < s.count ∧ s.slotId i = d)

/-! ## Generator -/

/-- GEN_RUN = 1 iff COUNT > 0 (rule R41); TRIG_CNT is 1..10000 while running and 0 while stopped (rule
R40). -/
def State.GenOk (s : State) : Prop :=
  (s.gen.run = true ↔ 0 < s.count) ∧
  (s.gen.run = true → 1 ≤ s.gen.trigCnt.toNat ∧ s.gen.trigCnt.toNat ≤ Config.refreshUs) ∧
  (s.gen.run = false → s.gen.trigCnt = 0)

/-! ## Pulse engine -/

/-- The train invariants (rule R46), while a train is active. -/
def State.TrainOk (s : State) : Prop :=
  s.engine.st = .slotActive →
    1 ≤ s.engine.snapN.toNat ∧
    (∀ k, k < s.engine.snapN.toNat →
      Config.minPulseWidth ≤ s.engine.widthOf k ∧ s.engine.widthOf k ≤ Config.maxPulseWidth) ∧
    s.engine.minPendingWidth = some s.engine.curT.toNat ∧
    (∀ k, k < s.engine.snapN.toNat →
      (s.engine.lowered.getLsbD k = true ↔ s.engine.widthOf k < s.engine.curT.toNat)) ∧
    s.engine.waitCnt.toNat ≤ s.engine.curT.toNat ∧
    s.engine.curT.toNat ≤ s.now + s.engine.waitCnt.toNat

/-- SNAP_N is 0..10 (rule R43), and in ENDING every snapshot entry is lowered (rules R158, R160). -/
def State.EngineOk (s : State) : Prop :=
  s.engine.snapN.toNat ≤ Config.maxChannels ∧ (s.engine.st = .ending → s.engine.pending = [])

/-- The time of the slot-started event that began the active train: `ts = now + WAIT_CNT - CUR_T`
(rule R46). -/
def State.trainStart (s : State) : Nat := s.now + s.engine.waitCnt.toNat - s.engine.curT.toNat

/-! ## STATUS and the trace -/

/-- STATUS bits 31..4 are 0 (rule R49). -/
def State.StatusOk (s : State) : Prop := s.status.toNat < 16

/-- The trace stands in time order and nothing in it is later than `now` (rules R15, R81). -/
def State.TraceOk (s : State) : Prop :=
  (s.trace.map Stamped.time).Pairwise (· ≤ ·) ∧ ∀ e ∈ s.trace, e.time ≤ s.now

/-! ## The invariant of the machine -/

/-- What holds at reset and after every step. -/
structure State.Inv (s : State) : Prop where
  size : s.SizeOk
  widths : s.WidthsOk
  indices : s.IndicesOk
  contiguous : s.Contiguous
  membership : s.Membership
  gen : s.GenOk
  train : s.TrainOk
  engine : s.EngineOk
  status : s.StatusOk
  trace : s.TraceOk

/-! ## What is owed -/

/-- The LOW events the active train still owes the pin port: one per entry not lowered yet, at its
width from the train's start (rules R163, R169); none outside SLOT_ACTIVE. -/
def State.owedLows (s : State) : List Stamped :=
  if s.engine.st = .slotActive then
    s.engine.pending.map fun k => ⟨s.trainStart + s.engine.widthOf k, .set (s.engine.pinOf k) .low⟩
  else []

/-- The answers owed for a slot-started event that began a train: one outside IDLE (rule R48). -/
def State.owedAnswers (s : State) : Nat := if s.engine.st = .idle then 0 else 1

/-- The answers given so far (rule R100). -/
def answersGiven (tr : List Stamped) : Nat := (portTrace .action tr).length

/-- The events that drive a pin, out of a trace. -/
def pinDrives (tr : List Stamped) : List Stamped :=
  tr.filter fun e =>
    match e.event with
    | .set _ _ => true
    | .configure _ => false
    | .openSession => false
    | .closeSession => false
    | .request _ => false
    | .answer _ _ => false

/-- The openings and closings of the session, out of a trace. -/
def sessionEvents (tr : List Stamped) : List Stamped :=
  tr.filter fun e => decide (e.event = .openSession) || decide (e.event = .closeSession)

/-- The requests, out of a trace (rule R101). -/
def requestEvents (tr : List Stamped) : List Stamped :=
  tr.filter fun e =>
    match e.event with
    | .request _ => true
    | .configure _ => false
    | .set _ _ => false
    | .openSession => false
    | .closeSession => false
    | .answer _ _ => false

/-- The events a step added to the trace. -/
def newEvents (s t : State) : List Stamped := t.trace.drop s.trace.length

end Sys2Proof.Machine
end

