-- ==== Sys2Proof/Certificates/Slice0/Obligations.lean ====
section
/-! DEFINITION. The statements for the provers. Each docstring names the rule of spec/ it formalises; one
that rests on a choice of the model says so and names the log entry. -/

open Sys2Proof Sys2Proof.Machine

/-! ## Encoding (30_encoding.md) -/

/-- Rules R91 to R95, R71, the headline of the encoding: for every N_DESC the decoder reads every
well-formed command back from its byte lanes, with every operand at every value its field admits; and
the bytes it reads a command from are that command's own and the command is well-formed. -/
def Obligations.DecodeAndEncodeAreInverse : Prop :=
  (∀ (n : Nat) (i : Instr), i.wellFormed n = true → decode n (encode i) = .ok i) ∧
  (∀ (n : Nat) (bs : List Byte) (i : Instr), decode n bs = .ok i →
    i.wellFormed n = true ∧ encode i = bs)

/-- Rule R95: a word is a legal command iff its opcode, D and IMM conditions hold, iff it has the bits
of a row of the opcode table with D in range, and it never has those of two rows (R96, the spec's own
inference from its table, says the last). -/
def Obligations.LegalWordsAreTheTablesWords : Prop :=
  ∀ (n : Nat) (w : Word),
    ((∃ i, decodeWord n w = .ok i) ↔
      (opField w).toNat ≤ 0x0A ∧
      (if opField w = 0x00 then dField w = 0 else (dField w).toNat < n) ∧
      (if opField w = 0x01 then attachMbzField w = 0
        else opField w = 0x03 ∨ opField w = 0x04 ∨ immField w = 0)) ∧
    ((∃ i, decodeWord n w = .ok i) ↔ ∃ r ∈ opcodeTable, r.fits n w = true) ∧
    (∀ r ∈ opcodeTable, ∀ r' ∈ opcodeTable, r.fits n w = true → r'.fits n w = true → r = r')

/-- Rules R91, R94; the examples of R105 and R125 and the vectors V45, V49, V50, V55, V90, V92, V93, V95,
V98, V100 and V101 of 95_test_vectors.md, with N_DESC = 16: words written out from the encoding decode to
the commands they stand for, and illegal ones are rejected by name. -/
def Obligations.DecodedWordsAreRight : Prop :=
  decodeWord 16 0x00000000 = .ok .nop ∧
  decodeWord 16 0x01030007 = .ok (.attach 3 7) ∧
  decodeWord 16 0x02040000 = .ok (.detach 4) ∧
  decodeWord 16 0x0301FFFF = .ok (.write 1 0xFFFF) ∧
  decodeWord 16 0x040203E8 = .ok (.writeUs 2 1000) ∧
  decodeWord 16 0x05000000 = .ok (.read 0) ∧
  decodeWord 16 0x06020000 = .ok (.readUs 2) ∧
  decodeWord 16 0x070A0000 = .ok (.attached 10) ∧
  decodeWord 16 0x08090000 = .ok (.index 9) ∧
  decodeWord 16 0x09030000 = .ok (.pin 3) ∧
  decodeWord 16 0x0A050000 = .ok (.release 5) ∧
  decodeWord 16 0x010F0005 = .ok (.attach 15 5) ∧
  decodeWord 16 0x0400FFFF = .ok (.writeUs 0 0xFFFF) ∧
  decodeWord 16 0x00010000 = .error .mustBeZero ∧
  decodeWord 16 0x01000105 = .error .mustBeZero ∧
  decodeWord 16 0x03FF0000 = .error .descriptorRange ∧
  decodeWord 16 0x0B000000 = .error .reservedOpcode

/-- Rule R71: byte offset `o + j` of a register at offset `o` holds its bits `[8j+7:8j]`, in what a
legal read returns and in what a write carries. -/
def Obligations.ByteLanesAreLittleEndian : Prop :=
  (∀ (s : State) (off : Nat) (r : Reg) (j : Nat), readTarget off 4 = some r → j < 4 →
    (memRead off 4 s).readData[j]? = some ((r.value s).extractLsb' (8 * j) 8)) ∧
  (∀ (b0 b1 b2 b3 : Byte) (j : Nat), j < 4 →
    [b0, b1, b2, b3][j]? = some ((busWord [b0, b1, b2, b3]).extractLsb' (8 * j) 8))

/-! ## Steps and accesses (00_scope.md §6, 20_memory.md) -/

/-- Rule R90: a CMD write (offset 0x00 of the window) whose byte lanes decode to a command executes that
command in the same step, the lanes being exactly one 32-bit word; the step adds nothing but the passing
of the turn. -/
def Obligations.StepRunsTheDecodedCommand : Prop :=
  ∀ (s : State) (data : List Byte) (rest : List Turn) (i : Instr),
    s.schedule = .hostWrite s.base data :: rest → decode s.nDesc data = .ok i →
    data.length = 4 ∧ step s = exec i { s with schedule := rest }

/-- Rule R90 with the model's choice of log 8: the word that `withFetchWord` puts as the next CMD write
is the one the next step runs, on the state as it was. -/
def Obligations.PlacedWordRunsNext : Prop :=
  ∀ (s : State) (w : Nat) (i : Instr),
    decodeWord s.nDesc (BitVec.ofNat 32 w) = .ok i → step (s.withFetchWord 32 w) = exec i s

/-- Rule R180: the sequencer has no fault state, no halt and no trap; every input has an effect. -/
def Obligations.EveryStepAnswersANextState : Prop :=
  ∀ s : State, ∃ t, step s = .next t

/-- Rule R17 (and the first sentence of R18): only a Tick advances time, by one µs, and none is taken
while an urgent engine step is enabled. (An empty schedule ticks by the model's choice of log 5.) -/
def Obligations.OnlyTickAdvancesTime : Prop :=
  ∀ s t : State, step s = .next t →
    t.now = s.now ∨
    (t.now = s.now + 1 ∧ (s.schedule = [] ∨ ∃ rest, s.schedule = .tick :: rest) ∧
      ¬(s.engine.st = .slotActive ∧ s.engine.waitCnt = 0) ∧ s.engine.st ≠ .ending)

/-- Rules R15, R81: an emitted event is never withdrawn, and every event a step emits is appended with
the `now` of that step. -/
def Obligations.TraceOnlyGrowsWithStampedEvents : Prop :=
  ∀ s t : State, step s = .next t → ∃ es, t.trace = s.trace ++ es ∧ ∀ e ∈ es, e.time = t.now

/-- No step changes the parameters N_DESC and BASE: R12, an inference the spec marks as its own, calls
them arguments of the model, and the model's choices of log 1 and log 2 carry them in the state. -/
def Obligations.ParametersNeverChange : Prop :=
  ∀ s t : State, step s = .next t → t.nDesc = s.nDesc ∧ t.base = s.base

/-- Rule R72: which accesses are legal, by width, alignment, register and direction. -/
def Obligations.LegalAccessesAreTheseOffsets : Prop :=
  ∀ off n : Nat,
    ((readTarget off n).isSome = true ↔
      n = 4 ∧ off % 4 = 0 ∧
        (off ∈ [0x04, 0x08, 0x0C, 0x10, 0x14, 0x18] ∨ (0x40 ≤ off ∧ off ≤ 0x64) ∨
          (0x80 ≤ off ∧ off ≤ 0xA4))) ∧
    ((writeTarget off n).isSome = true ↔ n = 4 ∧ (off = 0x00 ∨ off = 0x08))

/-- Rule R73: a step whose turn is an illegal read of the window returns n bytes of zero (in the model's
own field `readData`, log 14), one whose turn is an illegal write does nothing, and both set
STATUS.BADACC (bit 1) and change nothing else of the sequencer. -/
def Obligations.IllegalAccessOnlyFlags : Prop :=
  ∀ (s : State) (off : Nat) (rest : List Turn), off < 256 →
    (∀ n, s.schedule = .hostRead (s.base + off) n :: rest → readTarget off n = none →
      step s = .next { s with
        schedule := rest, status := s.status ||| 0x2, readData := List.replicate n 0 }) ∧
    (∀ data : List Byte, s.schedule = .hostWrite (s.base + off) data :: rest →
      writeTarget off data.length = none →
      step s = .next { s with schedule := rest, status := s.status ||| 0x2 })

/-- Rules R53, R54 (no read changes state, each returns the current value): a legal read's only effect
is the data it returns. -/
def Obligations.LegalReadHasNoSideEffect : Prop :=
  ∀ (s : State) (off : Nat) (rest : List Turn) (r : Reg), off < 256 → readTarget off 4 = some r →
    s.schedule = .hostRead (s.base + off) 4 :: rest →
    step s = .next { s with schedule := rest, readData := lanesOfWord (r.value s) }

/-- Rule R51: the register map: offsets, access, contents field by field, reserved bits zero, and the
values after reset with CFG's as the parameter gives it. -/
def Obligations.RegisterMapShowsTheState : Prop :=
  (Reg.ofOffset 0x00 = some .cmd ∧ Reg.ofOffset 0x04 = some .result ∧
    Reg.ofOffset 0x08 = some .status ∧ Reg.ofOffset 0x0C = some .gen ∧
    Reg.ofOffset 0x10 = some .cfg ∧ Reg.ofOffset 0x14 = some .engT ∧
    Reg.ofOffset 0x18 = some .engLowered ∧
    (∀ i : Fin 10, Reg.ofOffset (0x40 + 4 * i.val) = some (.slot i)) ∧
    (∀ k : Fin 10, Reg.ofOffset (0x80 + 4 * k.val) = some (.snap k)) ∧
    (∀ off r, Reg.ofOffset off = some r → off ∈ [0x00, 0x04, 0x08, 0x0C, 0x10, 0x14, 0x18] ∨
      (∃ i : Fin 10, off = 0x40 + 4 * i.val) ∨ ∃ k : Fin 10, off = 0x80 + 4 * k.val)) ∧
  (∀ r : Reg, (r.readable = true ↔ r ≠ .cmd) ∧ (r.writable = true ↔ r = .cmd ∨ r = .status)) ∧
  (∀ s : State, s.nDesc ≤ 256 →
    Reg.value s .result = s.result ∧ Reg.value s .status = s.status ∧
    (Reg.value s .gen).getLsbD 0 = s.gen.run ∧ (Reg.value s .gen).extractLsb' 1 3 = 0 ∧
    (Reg.value s .gen).extractLsb' 4 2 =
      (match s.engine.st with | .idle => 0 | .slotActive => 1 | .ending => 2) ∧
    (Reg.value s .gen).extractLsb' 6 2 = 0 ∧
    (Reg.value s .gen).extractLsb' 8 4 = s.registry.count ∧
    (Reg.value s .gen).extractLsb' 12 4 = s.engine.snapN ∧
    ((Reg.value s .gen).extractLsb' 16 16).toNat = s.gen.trigCnt.toNat ∧
    ((Reg.value s .cfg).extractLsb' 0 8).toNat = 10 ∧
    ((Reg.value s .cfg).extractLsb' 8 9).toNat = s.nDesc ∧
    (Reg.value s .cfg).extractLsb' 17 7 = 0 ∧ (Reg.value s .cfg).extractLsb' 24 8 = 0x01 ∧
    (Reg.value s .engT).extractLsb' 0 16 = s.engine.curT ∧
    (Reg.value s .engT).extractLsb' 16 16 = s.engine.waitCnt ∧
    (Reg.value s .engLowered).extractLsb' 0 10 = s.engine.lowered ∧
    (Reg.value s .engLowered).extractLsb' 10 22 = 0 ∧
    (∀ i : Fin 10, (Reg.value s (.slot i)).extractLsb' 0 8 = s.registry.slot[i] ∧
      (Reg.value s (.slot i)).extractLsb' 8 24 = 0) ∧
    (∀ k : Fin 10, (Reg.value s (.snap k)).extractLsb' 0 16 = s.engine.snap[k].width ∧
      (Reg.value s (.snap k)).extractLsb' 16 8 = s.engine.snap[k].pin ∧
      (Reg.value s (.snap k)).extractLsb' 24 8 = 0)) ∧
  (∀ n base : Nat, n ≤ 256 →
    let s := State.initial n base
    Reg.value s .result = 0 ∧ Reg.value s .status = 0 ∧ Reg.value s .gen = 0 ∧
    (Reg.value s .cfg).toNat = 0x0100000A + n * 256 ∧ Reg.value s .engT = 0 ∧
    Reg.value s .engLowered = 0 ∧ (∀ i, Reg.value s (.slot i) = 0x000000FF) ∧
    (∀ k, Reg.value s (.snap k) = 0))

/-- Rule R52: a step whose turn is a STATUS write of v (offset 0x08 of the window) clears the bits 3..0
that are set in v and changes no other bit; bits 31..4 of v are ignored and no bit is ever set; nothing
but STATUS changes. -/
def Obligations.StatusWriteClearsBits : Prop :=
  ∀ (s : State) (b0 b1 b2 b3 : Byte) (rest : List Turn),
    s.schedule = .hostWrite (s.base + 0x08) [b0, b1, b2, b3] :: rest →
    ∃ x : Word, step s = .next { s with schedule := rest, status := x } ∧
      ∀ i, x.getLsbD i =
        (s.status.getLsbD i && !(decide (i < 4) && (wordOfLanes b0 b1 b2 b3).getLsbD i))

/-- Rule R70 with the model's choice of log 3: an access outside the window does not reach the block. -/
def Obligations.AccessOutsideWindowDoesNothing : Prop :=
  ∀ (s : State) (addr n : Nat) (data : List Byte) (rest : List Turn),
    addr < s.base ∨ s.base + 256 ≤ addr →
    (s.schedule = .hostRead addr n :: rest → step s = .next { s with schedule := rest }) ∧
    (s.schedule = .hostWrite addr data :: rest → step s = .next { s with schedule := rest })

/-! ## STATUS (10_state.md R49, 60_exceptions.md R182) -/

/-- Rule R49: a sticky bit is cleared only by a STATUS write of 1 to it or by reset, is set only by the
condition it records, and bits 31..4 stay 0. -/
def Obligations.StatusBitsAreStickyAndCaused : Prop :=
  ∀ s t : State, s.Inv → step s = .next t →
    t.status.toNat < 16 ∧
    (∀ b : StatusBit, s.status.getLsbD b.pos = true → t.status.getLsbD b.pos = false →
      ∃ rest, s.schedule = .reset :: rest ∨
        ∃ data, s.schedule = .hostWrite (s.base + 0x08) data :: rest ∧ data.length = 4 ∧
          (busWord data).getLsbD b.pos = true) ∧
    (s.status.getLsbD 0 = false → t.status.getLsbD 0 = true →
      ∃ data rest r, s.schedule = .hostWrite s.base data :: rest ∧ data.length = 4 ∧
        decode s.nDesc data = .error r) ∧
    (s.status.getLsbD 1 = false → t.status.getLsbD 1 = true →
      ∃ off rest, off < 256 ∧
        ((∃ n, s.schedule = .hostRead (s.base + off) n :: rest ∧ readTarget off n = none) ∨
         (∃ data, s.schedule = .hostWrite (s.base + off) data :: rest ∧
           writeTarget off data.length = none))) ∧
    (s.status.getLsbD 2 = false → t.status.getLsbD 2 = true →
      ∃ rest, s.schedule = .deliver 0x01 :: rest ∧ s.engine.st = .slotActive) ∧
    (s.status.getLsbD 3 = false → t.status.getLsbD 3 = true →
      ∃ rest, s.schedule = .deliver 0x00 :: rest ∧ s.engine.st ≠ .idle)

/-- One step sets at most one status condition (R182, an inference the spec marks as its own from R181). -/
def Obligations.OneStatusConditionPerStep : Prop :=
  ∀ (s t : State) (b b' : StatusBit), step s = .next t →
    s.status.getLsbD b.pos = false → t.status.getLsbD b.pos = true →
    s.status.getLsbD b'.pos = false → t.status.getLsbD b'.pos = true → b = b'

/-- Rule R49's last sentence: the bits change no behaviour. Two states that differ in STATUS alone step
to states that differ in STATUS and the data a read returned alone. -/
def Obligations.StatusChangesNoBehaviour : Prop :=
  ∀ (s t : State) (v : Word), step s = .next t →
    ∃ (v' : Word) (rd : List Byte),
      step { s with status := v } = .next { t with status := v', readData := rd }

/-! ## Commands (40_channel_commands.md) -/

/-- Rule R108 for all eleven commands: a legal command raises no exception and writes no STATUS bit, so
it always answers a next state. -/
def Obligations.LegalCommandsCompleteAndKeepStatus : Prop :=
  ∀ (s : State) (i : Instr), i.wellFormed s.nDesc = true →
    ∃ t, exec i s = .next t ∧ t.status = s.status

/-- Rule R97: an illegal command word sets BADCMD (bit 0), makes RESULT all ones, changes no other state
and emits no event. -/
def Obligations.IllegalWordSetsBadCmd : Prop :=
  ∀ (s : State) (data : List Byte) (rest : List Turn) (r : Reject),
    s.schedule = .hostWrite s.base data :: rest → data.length = 4 → decode s.nDesc data = .error r →
    step s = .next { s with schedule := rest, status := s.status ||| 0x1, result := 0xFFFFFFFF }

/-- Rule R110: NOP is the word 0 exactly, gives RESULT 0 and changes nothing else. -/
def Obligations.NopOnlyClearsResult : Prop :=
  (∀ s : State, exec .nop s = .next { s with result := 0 }) ∧
  (∀ (n : Nat) (w : Word), decodeWord n w = .ok .nop ↔ w = 0) ∧
  (∀ (n : Nat) (w : Word), opField w = 0x00 → w ≠ 0 → ∃ r, decodeWord n w = .error r)

/-- Rule R112: the three branches of ATTACH, with everything the last one writes and its frame. The
count's range is the invariant of rule R35, stated by `StepKeepsTheInvariant`. -/
def Obligations.AttachFollowsItsThreeBranches : Prop :=
  ∀ (s : State) (d p : Byte) (c : Desc), s.desc? d = some c → s.count ≤ 10 →
    (c.index ≠ 0xFF → exec (.attach d p) s = .next { s with result := c.index.setWidth 32 }) ∧
    (c.index = 0xFF → s.count = 10 →
      exec (.attach d p) s = .next { s with result := 0x000000FF }) ∧
    (c.index = 0xFF → s.count < 10 → ∃ t, exec (.attach d p) s = .next t ∧
      t.result.toNat = s.count ∧ t.count = s.count + 1 ∧
      t.slotId s.count = d ∧ (∀ j, j ≠ s.count → t.slotId j = s.slotId j) ∧
      t.desc? d = some ⟨BitVec.ofNat 8 s.count, p, c.width⟩ ∧
      t.nDesc = s.nDesc ∧ (∀ q, q ≠ d.toNat → t.desc[q]? = s.desc[q]?) ∧
      (0 < s.count → t.gen = s.gen ∧ t.trace = s.trace ++ [⟨s.now, .configure p⟩]) ∧
      (s.count = 0 → t.gen = ⟨true, 10000⟩ ∧
        t.trace = s.trace ++ [⟨s.now, .configure p⟩, ⟨s.now, .openSession⟩,
          ⟨s.now, .request ⟨0, 2500, 0, 100000⟩⟩]) ∧
      t.engine = s.engine ∧ t.status = s.status ∧ t.now = s.now ∧ t.base = s.base ∧
      t.readData = s.readData ∧ t.schedule = s.schedule)

/-- Rule R115: both branches of DETACH: the compaction slot by slot and index by index, the generator's
stop on the last entry, pin and width kept, and the frame. -/
def Obligations.DetachCompactsTheRegistry : Prop :=
  ∀ (s : State) (d : Byte) (c : Desc), s.Inv → s.desc? d = some c →
    (c.index = 0xFF → exec (.detach d) s = .next { s with result := 0 }) ∧
    (c.index ≠ 0xFF → ∃ t, exec (.detach d) s = .next t ∧
      t.result = 0 ∧ t.count = s.count - 1 ∧
      (∀ j, t.slotId j =
        if c.index.toNat ≤ j ∧ j + 1 < s.count then s.slotId (j + 1)
        else if j + 1 = s.count then 0xFF else s.slotId j) ∧
      t.desc? d = some { c with index := 0xFF } ∧
      (∀ q x, q ≠ d → s.desc? q = some x →
        t.desc? q = some { x with index :=
          if x.index ≠ 0xFF ∧ c.index.toNat < x.index.toNat then x.index - 1 else x.index }) ∧
      t.nDesc = s.nDesc ∧
      (1 < s.count → t.gen = s.gen ∧ t.trace = s.trace) ∧
      (s.count = 1 → t.gen = ⟨false, 0⟩ ∧ t.trace = s.trace ++ [⟨s.now, .closeSession⟩]) ∧
      t.engine = s.engine ∧ t.status = s.status ∧ t.now = s.now ∧ t.base = s.base ∧
      t.readData = s.readData ∧ t.schedule = s.schedule)

/-- Rule R130: RELEASE leaves what DETACH of the same descriptor leaves, with the descriptor constructed
afresh (index INVALID, pin 0, width 1500); RESULT is 0. -/
def Obligations.ReleaseDetachesAndConstructs : Prop :=
  ∀ (s : State) (d : Byte) (c : Desc), s.desc? d = some c →
    ∃ u t, exec (.detach d) s = .next u ∧ exec (.release d) s = .next t ∧
      t = { u with desc := u.desc.set d.toNat ⟨0xFF, 0, 1500⟩, result := 0 } ∧
      t.desc? d = some ⟨0xFF, 0, 1500⟩

/-- The registry lists the attached descriptors in attach order (R38, an inference the spec marks as its
own from R112 and R115). A command leaves the list alone, or appends the descriptor it attaches, or
takes out the one it detaches, the rest in order. -/
def Obligations.RegistryKeepsAttachOrder : Prop :=
  ∀ (s t : State) (i : Instr), s.Inv → exec i s = .next t →
    t.attachedIds = s.attachedIds ∨
    (∃ d p, i = .attach d p ∧ d ∉ s.attachedIds ∧ t.attachedIds = s.attachedIds ++ [d]) ∨
    (∃ d, (i = .detach d ∨ i = .release d) ∧ d ∈ s.attachedIds ∧
      t.attachedIds = s.attachedIds.erase d)

/-- Rule R118: WRITE stores `clamp(tdiv(angle * 1856, 180) + 544, 544, 2400)` in DESC[d].width and 0 in
RESULT, attached or not, and changes nothing else. -/
def Obligations.WriteStoresTheClampedMap : Prop :=
  ∀ (s : State) (d : Byte) (angle : Half) (c : Desc), s.desc? d = some c →
    ∃ w : Half, (w.toNat : Int) = max 544 (min 2400 (Int.tdiv (angle.toInt * 1856) 180 + 544)) ∧
      exec (.write d angle) s =
        .next { s with desc := s.desc.set d.toNat { c with width := w }, result := 0 }

/-- Mapping then clamping equals clamping the angle first; the selected values; the stored width does
not decrease with the angle (R120, inferences the spec marks as its own from R118 and R119). -/
def Obligations.WriteMapLaws : Prop :=
  (∀ a : Half, max 544 (min 2400 (angleToUs a.toInt)) = angleToUs (max 0 (min 180 a.toInt))) ∧
  ((([0, 1, 2, 45, 90, 135, 179, 180, -1, 181, -32768, 32767] : List Int).map fun a =>
      (clampWidth (angleToUs a)).toNat) =
    [544, 554, 564, 1008, 1472, 1936, 2389, 2400, 544, 2400, 544, 2400]) ∧
  angleToUs (-1) = 534 ∧ angleToUs 181 = 2410 ∧
  (∀ a b : Half, a.toInt ≤ b.toInt → angleToUs a.toInt ≤ angleToUs b.toInt ∧
    (clampWidth (angleToUs a.toInt)).toNat ≤ (clampWidth (angleToUs b.toInt)).toNat)

/-- Rule R121: WRITE_US stores `clamp(value, 544, 2400)` in DESC[d].width and 0 in RESULT, and changes
nothing else. -/
def Obligations.WriteUsStoresTheClampedValue : Prop :=
  ∀ (s : State) (d : Byte) (value : Half) (c : Desc), s.desc? d = some c →
    ∃ w : Half, (w.toNat : Int) = max 544 (min 2400 value.toInt) ∧
      exec (.writeUs d value) s =
        .next { s with desc := s.desc.set d.toNat { c with width := w }, result := 0 }

/-- Rule R123: READ's RESULT is `tdiv((DESC[d].width - 543) * 180, 1856)`, in 0..180, and nothing else
changes. The width's range is the invariant of rule R33. -/
def Obligations.ReadReportsTheAngle : Prop :=
  ∀ (s : State) (d : Byte) (c : Desc), s.desc? d = some c →
    544 ≤ c.width.toNat → c.width.toNat ≤ 2400 →
    ∃ r : Word, (r.toNat : Int) = Int.tdiv (((c.width.toNat : Int) - 543) * 180) 1856 ∧
      r.toNat ≤ 180 ∧ exec (.read d) s = .next { s with result := r }

/-- For every angle in 0..180, READ after WRITE of it returns it, whatever happens between that keeps
the descriptor's width; every legal width reads as 0..180; the selected values (R124, inferences the
spec marks as its own from R118 and R123). -/
def Obligations.ReadReturnsTheWrittenAngle : Prop :=
  (∀ (s : State) (d : Byte) (angle : Half) (c : Desc), s.desc? d = some c →
    0 ≤ angle.toInt → angle.toInt ≤ 180 →
    ∃ t, exec (.write d angle) s = .next t ∧
      ∀ t' : State, (t'.desc? d).map Desc.width = (t.desc? d).map Desc.width →
        ∃ u, exec (.read d) t' = .next u ∧ (u.result.toNat : Int) = angle.toInt) ∧
  (∀ w : Half, 544 ≤ w.toNat → w.toNat ≤ 2400 → 0 ≤ widthToAngle w ∧ widthToAngle w ≤ 180) ∧
  (([544, 553, 554, 1000, 1472, 1500, 2000, 2399, 2400] : List Half).map widthToAngle =
    [0, 0, 1, 44, 90, 92, 141, 180, 180])

/-- Rules R125, R126, R127, R128: READ_US reports the width, ATTACHED 1 or 0, INDEX the index, PIN the
pin, each zero-extended; none changes anything but RESULT. -/
def Obligations.QueriesReportTheFields : Prop :=
  ∀ (s : State) (d : Byte) (c : Desc), s.desc? d = some c →
    (∃ r : Word, r.toNat = c.width.toNat ∧ exec (.readUs d) s = .next { s with result := r }) ∧
    exec (.attached d) s = .next { s with result := if c.index = 0xFF then 0 else 1 } ∧
    (∃ r : Word, r.toNat = c.index.toNat ∧ exec (.index d) s = .next { s with result := r }) ∧
    (∃ r : Word, r.toNat = c.pin.toNat ∧ exec (.pin d) s = .next { s with result := r })

/-- READ, READ_US, ATTACHED, INDEX and PIN change no state but RESULT, emit no event, and a run of them
is idempotent (R129, an inference the spec marks as its own from R123 and R125 to R128). -/
def Obligations.QueriesChangeOnlyResult : Prop :=
  ∀ (s : State) (d : Byte) (i : Instr), d.toNat < s.nDesc →
    i ∈ [Instr.read d, .readUs d, .attached d, .index d, .pin d] →
    ∃ t, exec i s = .next t ∧ t = { s with result := t.result } ∧ exec i t = .next t ∧
      ∀ j ∈ [Instr.read d, .readUs d, .attached d, .index d, .pin d], ∀ u, exec j t = .next u →
        exec i u = .next t

/-- The frame of ATTACH, DETACH and RELEASE (rules R112, R115, R130): nothing but the registry, the
generator, RESULT, the descriptors' indices, the pin and width of the named descriptor, and new events
that drive no pin. -/
def Obligations.RegistryCommandsFrame : Prop :=
  ∀ (s t : State) (d p : Byte) (i : Instr), d.toNat < s.nDesc →
    i ∈ [Instr.attach d p, .detach d, .release d] → exec i s = .next t →
    t.engine = s.engine ∧ t.status = s.status ∧ t.now = s.now ∧ t.base = s.base ∧
    t.readData = s.readData ∧ t.schedule = s.schedule ∧ t.nDesc = s.nDesc ∧
    (∀ q, q ≠ d.toNat → (t.desc[q]?).map Desc.pin = (s.desc[q]?).map Desc.pin) ∧
    (∀ q, (q ≠ d.toNat ∨ i ≠ .release d) →
      (t.desc[q]?).map Desc.width = (s.desc[q]?).map Desc.width) ∧
    (i = .detach d → (t.desc? d).map Desc.pin = (s.desc? d).map Desc.pin) ∧
    (∃ es, t.trace = s.trace ++ es ∧ pinDrives es = [])

/-- No command emits an event that drives a pin (R110, R112, R115, R118, R121, R123, R125 to R128, R130;
R215, an inference the spec marks as its own, says it of DETACH and RELEASE), so every pin keeps its level
(R55); that a pin nothing has set yet keeps one level, also over ATTACH's configure, is the model's
reading of log 11, and that a command on a descriptor the block does not hold emits nothing is log 13. -/
def Obligations.NoCommandDrivesAPin : Prop :=
  ∀ (s t : State) (i : Instr), exec i s = .next t →
    pinDrives t.trace = pinDrives s.trace ∧
    ∀ p, pinLevelAt t.trace t.now p = pinLevelAt s.trace s.now p

/-- A command changes nothing in the train: it writes no engine state, and the engine's next step does
what it would have done without the command (R79, an inference the spec marks as its own from R158,
R160). -/
def Obligations.CommandsLeaveTheTrainAlone : Prop :=
  ∀ (s t : State) (i : Instr), exec i s = .next t →
    t.engine = s.engine ∧ (engineStep t).engine = (engineStep s).engine ∧
    newEvents t (engineStep t) = newEvents s (engineStep s)

/-! ## Generator (41_generator.md) -/

/-- Rule R143: when Tick is enabled, and what it does then: time, the refresh trigger with its request
at 0, the train's wait, and the frame. TRIG_CNT's range 1..10000 while running is the invariant of rule
R40. -/
def Obligations.TickCountsTimeTriggerAndWait : Prop :=
  (∀ s : State, tickEnabled s = true ↔
    ¬(s.engine.st = .slotActive ∧ s.engine.waitCnt = 0) ∧ s.engine.st ≠ .ending) ∧
  ∀ (s : State) (rest : List Turn), s.schedule = .tick :: rest →
    ¬(s.engine.st = .slotActive ∧ s.engine.waitCnt = 0) → s.engine.st ≠ .ending →
    ∃ t, step s = .next t ∧ t.now = s.now + 1 ∧ t.schedule = rest ∧
      (s.gen.run = false → t.gen = s.gen ∧ t.trace = s.trace) ∧
      (s.gen.run = true → 2 ≤ s.gen.trigCnt.toNat →
        t.gen.run = true ∧ t.gen.trigCnt.toNat = s.gen.trigCnt.toNat - 1 ∧ t.trace = s.trace) ∧
      (s.gen.run = true → s.gen.trigCnt.toNat = 1 →
        t.gen.run = true ∧ t.gen.trigCnt.toNat = 10000 ∧
        t.trace = s.trace ++ [⟨s.now + 1, .request ⟨0, 2500, 0, 100000⟩⟩]) ∧
      (s.engine.st = .slotActive → t.engine = { s.engine with waitCnt := t.engine.waitCnt } ∧
        t.engine.waitCnt.toNat + 1 = s.engine.waitCnt.toNat) ∧
      (s.engine.st ≠ .slotActive → t.engine = s.engine) ∧
      t.desc = s.desc ∧ t.registry = s.registry ∧ t.status = s.status ∧ t.result = s.result ∧
      t.base = s.base ∧ t.readData = s.readData

/-- The cadence of the requests (R144, and R146 during a train, inferences the spec marks as its own from
R140 and R143; the request at t0 is GenStart's, in `AttachFollowsItsThreeBranches`). Over k Ticks from
the moment GenStart leaves the trigger at 10000, with the engine idle, they are emitted at exactly
t0 + 10000, t0 + 20000, ..., and nothing else happens. And over every step of any agent, in a train or
not, that finds the generator running and leaves it so, either no request is emitted and the time of the
next one, `now + TRIG_CNT`, stays, or exactly one is, at that time, and the next is due 10000 later. -/
def Obligations.RequestsComeEveryRefreshInterval : Prop :=
  (∀ (k : Nat) (s : State) (rest : List Turn), s.schedule = List.replicate k .tick ++ rest →
      s.engine.st = .idle → s.gen = ⟨true, 10000⟩ →
      Sys2Proof.core.run k s = .next { s with
        now := s.now + k
        schedule := rest
        gen := ⟨true, BitVec.ofNat 14 (10000 - k % 10000)⟩
        trace := s.trace ++ (List.range (k / 10000)).map fun j =>
          ⟨s.now + 10000 * (j + 1), .request ⟨0, 2500, 0, 100000⟩⟩ }) ∧
  (∀ s t : State, s.Inv → step s = .next t → s.gen.run = true → t.gen.run = true →
    let due := s.now + s.gen.trigCnt.toNat
    (requestEvents (newEvents s t) = [] ∧ t.now < due ∧ t.now + t.gen.trigCnt.toNat = due) ∨
    (requestEvents (newEvents s t) = [⟨due, .request ⟨0, 2500, 0, 100000⟩⟩] ∧ t.now = due ∧
      t.now + t.gen.trigCnt.toNat = due + 10000))

/-- A step other than a reset emits `openSession()` exactly when it starts the generator,
`closeSession()` exactly when it stops it, and neither otherwise: the alternation of R142 (an inference
the spec marks as its own from R140, R141 and R41), step by step. -/
def Obligations.SessionEventsFollowTheGenerator : Prop :=
  ∀ s t : State, s.Inv → step s = .next t → (∀ rest, s.schedule ≠ .reset :: rest) →
    (sessionEvents (newEvents s t)).map Stamped.event =
      if s.gen.run = false ∧ t.gen.run = true then [.openSession]
      else if s.gen.run = true ∧ t.gen.run = false then [.closeSession] else []

/-- Stopped and idle, Ticks change nothing but `now` (rule R197), and a turn of the engine, which has no step
to take then, changes nothing (the model's choice of log 7). -/
def Obligations.StoppedAndIdleOnlyTimePasses : Prop :=
  (∀ (k : Nat) (s : State) (rest : List Turn), s.schedule = List.replicate k .tick ++ rest →
    s.gen.run = false → s.engine.st = .idle →
    Sys2Proof.core.run k s = .next { s with now := s.now + k, schedule := rest }) ∧
  (∀ (s : State) (rest : List Turn), s.schedule = .engine :: rest → s.engine.st = .idle →
    step s = .next { s with schedule := rest })

/-! ## Pulse engine (42_pulse_engine.md) -/

/-- Rule R158: SLOT_STARTED while IDLE: the snapshot, the pins driven HIGH (as a set of events of one
step, rule R81), the first wait, or ENDING when the registry is empty, and the frame. -/
def Obligations.SlotStartSnapshotsAndRises : Prop :=
  ∀ (s : State) (rest : List Turn), s.Inv → s.schedule = .deliver 0x00 :: rest →
    s.engine.st = .idle →
    ∃ t, step s = .next t ∧
      t.engine.snapN = s.registry.count ∧ t.engine.lowered = 0 ∧
      (∀ k, k < s.count → ∃ c, s.desc? (s.slotId k) = some c ∧
        t.engine.snap[k]? = some ⟨c.pin, c.width⟩) ∧
      (∀ k, s.count ≤ k → t.engine.snap[k]? = s.engine.snap[k]?) ∧
      (s.count = 0 → t.engine.st = .ending ∧ t.engine.curT = s.engine.curT ∧
        t.engine.waitCnt = s.engine.waitCnt ∧ t.trace = s.trace) ∧
      (0 < s.count → t.engine.st = .slotActive ∧ t.engine.waitCnt = t.engine.curT ∧
        (∃ k, k < s.count ∧ t.engine.widthOf k = t.engine.curT.toNat) ∧
        (∀ k, k < s.count → t.engine.curT.toNat ≤ t.engine.widthOf k) ∧
        ∃ es, t.trace = s.trace ++ es ∧
          es.Perm ((List.range s.count).map fun k => ⟨s.now, .set (t.engine.pinOf k) .high⟩)) ∧
      t.desc = s.desc ∧ t.registry = s.registry ∧ t.gen = s.gen ∧ t.status = s.status ∧
      t.result = s.result ∧ t.now = s.now ∧ t.base = s.base ∧ t.readData = s.readData ∧
      t.schedule = rest

/-- Rule R157: SLOT_STARTED while not IDLE sets OVERLAP (bit 3), is answered NONE, and changes nothing
else. -/
def Obligations.SlotStartDuringTrainIsAnsweredNone : Prop :=
  ∀ (s : State) (rest : List Turn), s.schedule = .deliver 0x00 :: rest → s.engine.st ≠ .idle →
    step s = .next { s with
      schedule := rest
      status := s.status ||| 0x8
      trace := s.trace ++ [⟨s.now, .answer 0x00 .none⟩] }

/-- Rule R160: Wake lowers every entry not lowered yet of width at most CUR_T, at least one, then enters
ENDING if none remains, else waits for the least remaining width; and the frame. -/
def Obligations.WakeLowersTheDuePins : Prop :=
  ∀ (s : State) (rest : List Turn), s.Inv → s.schedule = .engine :: rest →
    s.engine.st = .slotActive → s.engine.waitCnt = 0 →
    ∃ t es, step s = .next t ∧ t.trace = s.trace ++ es ∧ es ≠ [] ∧
      es.Perm (((List.range s.engine.snapN.toNat).filter fun k =>
          !s.engine.lowered.getLsbD k && decide (s.engine.widthOf k ≤ s.engine.curT.toNat)).map
        fun k => ⟨s.now, .set (s.engine.pinOf k) .low⟩) ∧
      t.engine.snap = s.engine.snap ∧ t.engine.snapN = s.engine.snapN ∧
      (∀ k, k < s.engine.snapN.toNat → (t.engine.lowered.getLsbD k = true ↔
        s.engine.lowered.getLsbD k = true ∨ s.engine.widthOf k ≤ s.engine.curT.toNat)) ∧
      (∀ k, s.engine.snapN.toNat ≤ k → t.engine.lowered.getLsbD k = s.engine.lowered.getLsbD k) ∧
      ((∀ k, k < s.engine.snapN.toNat → t.engine.lowered.getLsbD k = true) →
        t.engine.st = .ending ∧ t.engine.curT = s.engine.curT ∧ t.engine.waitCnt = 0) ∧
      ((∃ k, k < s.engine.snapN.toNat ∧ t.engine.lowered.getLsbD k = false) →
        t.engine.st = .slotActive ∧
        (∃ k, k < s.engine.snapN.toNat ∧ t.engine.lowered.getLsbD k = false ∧
          t.engine.widthOf k = t.engine.curT.toNat) ∧
        (∀ k, k < s.engine.snapN.toNat → t.engine.lowered.getLsbD k = false →
          t.engine.curT.toNat ≤ t.engine.widthOf k) ∧
        s.engine.curT.toNat < t.engine.curT.toNat ∧ t.engine.curT.toNat ≤ 2400 ∧
        t.engine.waitCnt.toNat = t.engine.curT.toNat - s.engine.curT.toNat) ∧
      t.desc = s.desc ∧ t.registry = s.registry ∧ t.gen = s.gen ∧ t.status = s.status ∧
      t.result = s.result ∧ t.now = s.now ∧ t.base = s.base ∧ t.readData = s.readData ∧
      t.schedule = rest

/-- Rule R162: End answers the slot-started event END and the engine is IDLE again; nothing else
changes. -/
def Obligations.EndAnswersTheSlot : Prop :=
  ∀ (s : State) (rest : List Turn), s.schedule = .engine :: rest → s.engine.st = .ending →
    step s = .next { s with
      schedule := rest
      trace := s.trace ++ [⟨s.now, .answer 0x00 .endSlot⟩]
      engine := { s.engine with st := .idle } }

/-- Rule R164: TIMER_EXPIRY aborts an active train (OVERRUN, bit 2, the owed answer, IDLE, the rest of
the engine kept, no pin event) and is answered END in every state. -/
def Obligations.TimerExpiryAbortsTheTrain : Prop :=
  ∀ (s : State) (rest : List Turn), s.schedule = .deliver 0x01 :: rest →
    (s.engine.st = .slotActive → step s = .next { s with
      schedule := rest
      status := s.status ||| 0x4
      trace := s.trace ++ [⟨s.now, .answer 0x00 .endSlot⟩, ⟨s.now, .answer 0x01 .endSlot⟩]
      engine := { s.engine with st := .idle } }) ∧
    (s.engine.st ≠ .slotActive → step s = .next { s with
      schedule := rest
      trace := s.trace ++ [⟨s.now, .answer 0x01 .endSlot⟩] })

/-- Rules R165, R166: RADIO and every other event are answered NONE with their code; nothing else
changes. -/
def Obligations.OtherEventsAreAnsweredNone : Prop :=
  ∀ (s : State) (code : Byte) (rest : List Turn), s.schedule = .deliver code :: rest →
    code ≠ 0x00 → code ≠ 0x01 →
    step s = .next { s with
      schedule := rest
      trace := s.trace ++ [⟨s.now, .answer code .none⟩] }

/-- Rule R167: the engine reads neither GEN_RUN nor TRIG_CNT (its steps and the deliveries commute with
any change of the generator), and GenStart and GenStop write no engine state. -/
def Obligations.EngineAndGeneratorAreIndependent : Prop :=
  ∀ (s : State) (g : Generator) (code : Byte),
    deliver code { s with gen := g } = { deliver code s with gen := g } ∧
    engineStep { s with gen := g } = { engineStep s with gen := g } ∧
    (deliver code s).gen = s.gen ∧ (engineStep s).gen = s.gen ∧
    (genStart s).engine = s.engine ∧ (genStop s).engine = s.engine

/-- Rule R156 (and R48, an inference the spec marks as its own): every delivered event is answered
exactly once, the one that begins a train later: answers given plus answers owed go up by one with each
delivery and stay otherwise (but for a reset, which drops what is owed, rule R201). -/
def Obligations.EveryEventIsAnsweredOnce : Prop :=
  ∀ s t : State, step s = .next t → (∀ rest, s.schedule ≠ .reset :: rest) →
    ((∃ code rest, s.schedule = .deliver code :: rest) →
      answersGiven t.trace + t.owedAnswers = answersGiven s.trace + s.owedAnswers + 1) ∧
    ((∀ code rest, s.schedule ≠ .deliver code :: rest) →
      answersGiven t.trace + t.owedAnswers = answersGiven s.trace + s.owedAnswers)

/-- No two trains overlap (R168, an inference the spec marks as its own from R157, R158, R162, R164):
outside IDLE no step raises a pin; the engine leaves IDLE only by a slot-started event and comes back
only through End, a timer-expiry abort or a reset (rule R200). -/
def Obligations.TrainsNeverOverlap : Prop :=
  ∀ s t : State, step s = .next t →
    (s.engine.st ≠ .idle → ∀ e ∈ newEvents s t, ∀ p, e.event ≠ .set p .high) ∧
    (s.engine.st = .idle → t.engine.st ≠ .idle → ∃ rest, s.schedule = .deliver 0x00 :: rest) ∧
    (s.engine.st ≠ .idle → t.engine.st = .idle →
      (s.engine.st = .ending ∧ ⟨s.now, .answer 0x00 .endSlot⟩ ∈ newEvents s t) ∨
      (s.engine.st = .slotActive ∧ ∃ rest, s.schedule = .deliver 0x01 :: rest) ∨
      ∃ rest, s.schedule = .reset :: rest)

/-- `now = ts + CUR_T - WAIT_CNT` (R46, an inference the spec marks as its own from R158, R160): the
start time of a train that the counters show is the time of its slot-started event and does not change
while the train is active. -/
def Obligations.TrainClockIsExact : Prop :=
  ∀ s t : State, s.Inv → step s = .next t → t.engine.st = .slotActive →
    (s.engine.st = .slotActive → t.trainStart = s.trainStart) ∧
    (s.engine.st ≠ .slotActive → t.trainStart = s.now)

/-- Rule R18: a Tick whose turn has come is delayed by at most two urgent engine steps, so time always
passes (with the model's reading of log 6). -/
def Obligations.TickIsDelayedAtMostTwoSteps : Prop :=
  ∀ (s : State) (rest : List Turn), s.Inv → s.schedule = .tick :: rest →
    ∃ k t, k ≤ 3 ∧ Sys2Proof.core.run k s = .next t ∧ t.now = s.now + 1 ∧ t.schedule = rest

/-- The law of a whole train (R163 and R169, inferences the spec marks as its own from R143, R158,
R160 and R162): from a slot-started event in IDLE, through any turns but timer expiry and reset, up to
the first return to IDLE, the pin events emitted so far and the LOW events still owed are together
exactly `train(S)` of the registry's snapshot S at the slot start, shifted to the slot start; and when
the train is over, the time is the slot start plus the largest width. -/
def Obligations.PulseTrainIsTheTrainFunction : Prop :=
  ∀ (s t : State) (rest : List Turn) (k : Nat), s.Inv → s.engine.st = .idle →
    s.schedule = .deliver 0x00 :: rest → (∀ u ∈ rest, u ≠ .deliver 0x01 ∧ u ≠ .reset) →
    Sys2Proof.core.run (k + 1) s = .next t →
    (∀ j u, j < k → Sys2Proof.core.run (j + 1) s = .next u → u.engine.st ≠ .idle) →
    let entries : List SnapEntry :=
      s.attachedIds.filterMap fun d => (s.desc? d).map fun c => ⟨c.pin, c.width⟩
    (pinDrives (newEvents s t) ++ t.owedLows).Perm ((train entries).map (TrainEvent.stamped s.now)) ∧
    (t.engine.st ≠ .slotActive →
      t.owedLows = [] ∧ t.now = s.now + ((entries.map fun x => x.width.toNat).max?.getD 0))

/-- The function `train` as R169 defines it (the timing is R163, an inference the spec marks as its
own): it gives every entry one HIGH at offset 0 and one LOW at its own width, in time order, and ends
within 2400 µs when the widths are legal. -/
def Obligations.TrainFunctionPulsesEveryEntry : Prop :=
  ∀ es : List SnapEntry,
    (train es).Perm
      ((es.map fun x => ⟨0, x.pin, .high⟩) ++ es.map fun x => ⟨x.width.toNat, x.pin, .low⟩) ∧
    ((train es).map TrainEvent.offset).Pairwise (· ≤ ·) ∧
    ((∀ x ∈ es, x.width.toNat ≤ 2400) → ∀ e ∈ train es, e.offset ≤ 2400)

/-! ## Pins (10_state.md R55, 42_pulse_engine.md R170) -/

/-- The level of a pin at time t is that of its last `set` emitted at or before t (rule R55); before the
first one it is the free value of the pin, the same at every time and in every trace by the model's
reading of log 11, and nothing says which level that is. -/
def Obligations.PinLevelIsTheLastSet : Prop :=
  (∀ (before after : List Stamped) (t u : Nat) (p : Byte) (l : Level), u ≤ t →
    (∀ e ∈ after, e.time ≤ t → ∀ l', e.event ≠ .set p l') →
    pinLevelAt (before ++ ⟨u, .set p l⟩ :: after) t p = l) ∧
  (∀ (tr : List Stamped) (t : Nat) (p : Byte),
    (∀ e ∈ tr, e.time ≤ t → ∀ l, e.event ≠ .set p l) →
    pinLevelAt tr t p = Config.initialPinLevel p)

/-- In a train begun at ts, a pin that several entries hold is HIGH from ts and LOW from the least of
their widths on (R170, an inference the spec marks as its own from R169 and R55). -/
def Obligations.DuplicatePinFallsAtItsLeastWidth : Prop :=
  ∀ (es : List SnapEntry) (ts t : Nat) (p : Byte) (w : Nat), (∀ x ∈ es, 0 < x.width.toNat) →
    ((es.filter fun x => x.pin = p).map fun x => x.width.toNat).min? = some w →
    (ts ≤ t → t < ts + w → pinLevelAt ((train es).map (TrainEvent.stamped ts)) t p = .high) ∧
    (ts + w ≤ t → pinLevelAt ((train es).map (TrainEvent.stamped ts)) t p = .low)

/-! ## Reset and the invariant (70_reset_and_hazards.md, 10_state.md) -/

/-- Reset, in every state, sets every element to its reset value and emits no event (rules R200, R201);
`now` is left alone (rule R203). That the parameters, the bus's data, the turns to come and the trace
stay is the model's choice (log 1, log 2, log 14, log 4, log 10). -/
def Obligations.ResetRestoresEveryElement : Prop :=
  ∀ (s : State) (rest : List Turn), s.schedule = .reset :: rest →
    step s = .next
      { desc := List.replicate s.nDesc ⟨0xFF, 0, 1500⟩
        registry := ⟨Vector.replicate 10 0xFF, 0⟩
        gen := ⟨false, 0⟩
        engine := ⟨.idle, Vector.replicate 10 ⟨0, 0⟩, 0, 0, 0, 0⟩
        status := 0
        result := 0
        now := s.now
        trace := s.trace
        base := s.base
        readData := s.readData
        schedule := rest }

/-- The invariant holds at reset, for every legal N_DESC and every BASE (rules R31, R33, R35, R36, R37,
R40, R41, R200). -/
def Obligations.ResetMeetsTheInvariant : Prop :=
  State.reset.Inv ∧ ∀ n base : Nat, 1 ≤ n → n ≤ 256 → (State.initial n base).Inv

/-- Rule R36 ("holding after every step"), with R31, R33, R35, R40, R43, R49 and R81, and with R37, R41
and R46, which the spec marks as its own inferences, in the same invariant: every step of every agent
keeps it. -/
def Obligations.StepKeepsTheInvariant : Prop :=
  ∀ s t : State, s.Inv → step s = .next t → t.Inv

/-! ## Assembler (30_encoding.md §6) -/

/-- Rule R105: which word each form of a line assembles to, `{OP, N, IMM}`, and when it is an assembly
error; the mnemonic that names each form; every command a line assembles to is legal, and every legal
command has a line that assembles to exactly its word. -/
def Obligations.AssembledWordsAreTheLegalWords : Prop :=
  (∀ n d : Nat,
    let oneD : Byte → Option (List HostOp) := fun op =>
      if d < n then some [.command (op ++ BitVec.ofNat 8 d ++ (0 : Half))] else none
    let oneDN : Byte → Int → Option (List HostOp) := fun op v =>
      if d < n ∧ -32768 ≤ v ∧ v ≤ 32767 then
        some [.command (op ++ BitVec.ofNat 8 d ++ BitVec.ofInt 16 v)]
      else none
    AsmLine.nop.assemble n = some [.command 0x00000000] ∧
    (∀ p : Int, (AsmLine.attach d p).assemble n =
      if d < n ∧ 0 ≤ p ∧ p ≤ 255 then
        some [.command ((0x01 : Byte) ++ BitVec.ofNat 8 d ++ ((0 : Byte) ++ BitVec.ofInt 8 p : Half))]
      else none) ∧
    (AsmLine.detach d).assemble n = oneD 0x02 ∧
    (∀ v : Int, (AsmLine.write d v).assemble n = oneDN 0x03 v) ∧
    (∀ v : Int, (AsmLine.writeUs d v).assemble n = oneDN 0x04 v) ∧
    (AsmLine.read d).assemble n = oneD 0x05 ∧
    (AsmLine.readUs d).assemble n = oneD 0x06 ∧
    (AsmLine.attached d).assemble n = oneD 0x07 ∧
    (AsmLine.index d).assemble n = oneD 0x08 ∧
    (AsmLine.pin d).assemble n = oneD 0x09 ∧
    (AsmLine.release d).assemble n = oneD 0x0A) ∧
  (∀ f : List (List Char),
    parseForm "nop".toList f = parseBare .nop f ∧
    parseForm "attach".toList f = parseDN .attach f ∧
    parseForm "detach".toList f = parseD .detach f ∧
    parseForm "write".toList f = parseDN .write f ∧
    parseForm "write_us".toList f = parseDN .writeUs f ∧
    parseForm "read".toList f = parseD .read f ∧
    parseForm "read_us".toList f = parseD .readUs f ∧
    parseForm "attached".toList f = parseD .attached f ∧
    parseForm "index".toList f = parseD .index f ∧
    parseForm "pin".toList f = parseD .pin f ∧
    parseForm "release".toList f = parseD .release f) ∧
  (∀ n : Nat, n ≤ 256 →
    (∀ (l : AsmLine) (ops : List HostOp) (w : Word), l.assemble n = some ops → .command w ∈ ops →
      ∃ i, decodeWord n w = .ok i) ∧
    (∀ i : Instr, i.wellFormed n = true →
      ∃ l : AsmLine, l.assemble n = some [.command (encodeWord i)]))

/-- Rule R106: the expansions of the pseudo-instructions. -/
def Obligations.PseudoInstructionsExpand : Prop :=
  ∀ (n d : Nat) (p v : Int),
    (AsmLine.center d).assemble n = (AsmLine.writeUs d 1500).assemble n ∧
    (AsmLine.toMin d).assemble n = (AsmLine.writeUs d 544).assemble n ∧
    (AsmLine.toMax d).assemble n = (AsmLine.writeUs d 2400).assemble n ∧
    (AsmLine.servo d p v).assemble n =
      (do
        let first ← (AsmLine.writeUs d v).assemble n
        let second ← (AsmLine.attach d p).assemble n
        pure (first ++ second)) ∧
    AsmLine.clearStatus.assemble n = some [.statusWrite 0xF]
end

