-- ==== Sys2Proof/Laws/State.lean ====
section
/-! SUPPORT. One lemma per field per update of the state, so that no later proof unfolds a record
update (10_state.md). -/

namespace Sys2Proof.Machine

/-! ## `emit` -/

@[simp] theorem emit_desc (e : PortEvent) (s : State) :
    (emit e s).desc = s.desc := rfl
@[simp] theorem emit_registry (e : PortEvent) (s : State) :
    (emit e s).registry = s.registry := rfl
@[simp] theorem emit_gen (e : PortEvent) (s : State) :
    (emit e s).gen = s.gen := rfl
@[simp] theorem emit_engine (e : PortEvent) (s : State) :
    (emit e s).engine = s.engine := rfl
@[simp] theorem emit_status (e : PortEvent) (s : State) :
    (emit e s).status = s.status := rfl
@[simp] theorem emit_result (e : PortEvent) (s : State) :
    (emit e s).result = s.result := rfl
@[simp] theorem emit_now (e : PortEvent) (s : State) :
    (emit e s).now = s.now := rfl
@[simp] theorem emit_trace (e : PortEvent) (s : State) :
    (emit e s).trace = s.trace ++ [⟨s.now, e⟩] := rfl
@[simp] theorem emit_base (e : PortEvent) (s : State) :
    (emit e s).base = s.base := rfl
@[simp] theorem emit_readData (e : PortEvent) (s : State) :
    (emit e s).readData = s.readData := rfl
@[simp] theorem emit_schedule (e : PortEvent) (s : State) :
    (emit e s).schedule = s.schedule := rfl

/-! ## `emitAll` -/

@[simp] theorem emitAll_desc (es : List PortEvent) (s : State) :
    (emitAll es s).desc = s.desc := rfl
@[simp] theorem emitAll_registry (es : List PortEvent) (s : State) :
    (emitAll es s).registry = s.registry := rfl
@[simp] theorem emitAll_gen (es : List PortEvent) (s : State) :
    (emitAll es s).gen = s.gen := rfl
@[simp] theorem emitAll_engine (es : List PortEvent) (s : State) :
    (emitAll es s).engine = s.engine := rfl
@[simp] theorem emitAll_status (es : List PortEvent) (s : State) :
    (emitAll es s).status = s.status := rfl
@[simp] theorem emitAll_result (es : List PortEvent) (s : State) :
    (emitAll es s).result = s.result := rfl
@[simp] theorem emitAll_now (es : List PortEvent) (s : State) :
    (emitAll es s).now = s.now := rfl
@[simp] theorem emitAll_trace (es : List PortEvent) (s : State) :
    (emitAll es s).trace = s.trace ++ es.map fun e => ⟨s.now, e⟩ := rfl
@[simp] theorem emitAll_base (es : List PortEvent) (s : State) :
    (emitAll es s).base = s.base := rfl
@[simp] theorem emitAll_readData (es : List PortEvent) (s : State) :
    (emitAll es s).readData = s.readData := rfl
@[simp] theorem emitAll_schedule (es : List PortEvent) (s : State) :
    (emitAll es s).schedule = s.schedule := rfl

/-! ## `setResult` -/

@[simp] theorem setResult_desc (v : Word) (s : State) :
    (setResult v s).desc = s.desc := rfl
@[simp] theorem setResult_registry (v : Word) (s : State) :
    (setResult v s).registry = s.registry := rfl
@[simp] theorem setResult_gen (v : Word) (s : State) :
    (setResult v s).gen = s.gen := rfl
@[simp] theorem setResult_engine (v : Word) (s : State) :
    (setResult v s).engine = s.engine := rfl
@[simp] theorem setResult_status (v : Word) (s : State) :
    (setResult v s).status = s.status := rfl
@[simp] theorem setResult_result (v : Word) (s : State) :
    (setResult v s).result = v := rfl
@[simp] theorem setResult_now (v : Word) (s : State) :
    (setResult v s).now = s.now := rfl
@[simp] theorem setResult_trace (v : Word) (s : State) :
    (setResult v s).trace = s.trace := rfl
@[simp] theorem setResult_base (v : Word) (s : State) :
    (setResult v s).base = s.base := rfl
@[simp] theorem setResult_readData (v : Word) (s : State) :
    (setResult v s).readData = s.readData := rfl
@[simp] theorem setResult_schedule (v : Word) (s : State) :
    (setResult v s).schedule = s.schedule := rfl

/-! ## `flag` -/

@[simp] theorem flag_desc (b : StatusBit) (s : State) :
    (flag b s).desc = s.desc := rfl
@[simp] theorem flag_registry (b : StatusBit) (s : State) :
    (flag b s).registry = s.registry := rfl
@[simp] theorem flag_gen (b : StatusBit) (s : State) :
    (flag b s).gen = s.gen := rfl
@[simp] theorem flag_engine (b : StatusBit) (s : State) :
    (flag b s).engine = s.engine := rfl
@[simp] theorem flag_status (b : StatusBit) (s : State) :
    (flag b s).status = s.status ||| b.mask := rfl
@[simp] theorem flag_result (b : StatusBit) (s : State) :
    (flag b s).result = s.result := rfl
@[simp] theorem flag_now (b : StatusBit) (s : State) :
    (flag b s).now = s.now := rfl
@[simp] theorem flag_trace (b : StatusBit) (s : State) :
    (flag b s).trace = s.trace := rfl
@[simp] theorem flag_base (b : StatusBit) (s : State) :
    (flag b s).base = s.base := rfl
@[simp] theorem flag_readData (b : StatusBit) (s : State) :
    (flag b s).readData = s.readData := rfl
@[simp] theorem flag_schedule (b : StatusBit) (s : State) :
    (flag b s).schedule = s.schedule := rfl

/-! ## `clearStatus` -/

@[simp] theorem clearStatus_desc (v : Word) (s : State) :
    (clearStatus v s).desc = s.desc := rfl
@[simp] theorem clearStatus_registry (v : Word) (s : State) :
    (clearStatus v s).registry = s.registry := rfl
@[simp] theorem clearStatus_gen (v : Word) (s : State) :
    (clearStatus v s).gen = s.gen := rfl
@[simp] theorem clearStatus_engine (v : Word) (s : State) :
    (clearStatus v s).engine = s.engine := rfl
@[simp] theorem clearStatus_status (v : Word) (s : State) :
    (clearStatus v s).status = s.status &&& ~~~(v &&& 0xF) := rfl
@[simp] theorem clearStatus_result (v : Word) (s : State) :
    (clearStatus v s).result = s.result := rfl
@[simp] theorem clearStatus_now (v : Word) (s : State) :
    (clearStatus v s).now = s.now := rfl
@[simp] theorem clearStatus_trace (v : Word) (s : State) :
    (clearStatus v s).trace = s.trace := rfl
@[simp] theorem clearStatus_base (v : Word) (s : State) :
    (clearStatus v s).base = s.base := rfl
@[simp] theorem clearStatus_readData (v : Word) (s : State) :
    (clearStatus v s).readData = s.readData := rfl
@[simp] theorem clearStatus_schedule (v : Word) (s : State) :
    (clearStatus v s).schedule = s.schedule := rfl

/-! ## `modifyDesc` -/

@[simp] theorem modifyDesc_desc (d : Byte) (f : Desc → Desc) (s : State) :
    (modifyDesc d f s).desc = s.desc.modify d.toNat f := rfl
@[simp] theorem modifyDesc_registry (d : Byte) (f : Desc → Desc) (s : State) :
    (modifyDesc d f s).registry = s.registry := rfl
@[simp] theorem modifyDesc_gen (d : Byte) (f : Desc → Desc) (s : State) :
    (modifyDesc d f s).gen = s.gen := rfl
@[simp] theorem modifyDesc_engine (d : Byte) (f : Desc → Desc) (s : State) :
    (modifyDesc d f s).engine = s.engine := rfl
@[simp] theorem modifyDesc_status (d : Byte) (f : Desc → Desc) (s : State) :
    (modifyDesc d f s).status = s.status := rfl
@[simp] theorem modifyDesc_result (d : Byte) (f : Desc → Desc) (s : State) :
    (modifyDesc d f s).result = s.result := rfl
@[simp] theorem modifyDesc_now (d : Byte) (f : Desc → Desc) (s : State) :
    (modifyDesc d f s).now = s.now := rfl
@[simp] theorem modifyDesc_trace (d : Byte) (f : Desc → Desc) (s : State) :
    (modifyDesc d f s).trace = s.trace := rfl
@[simp] theorem modifyDesc_base (d : Byte) (f : Desc → Desc) (s : State) :
    (modifyDesc d f s).base = s.base := rfl
@[simp] theorem modifyDesc_readData (d : Byte) (f : Desc → Desc) (s : State) :
    (modifyDesc d f s).readData = s.readData := rfl
@[simp] theorem modifyDesc_schedule (d : Byte) (f : Desc → Desc) (s : State) :
    (modifyDesc d f s).schedule = s.schedule := rfl

/-! ## `genStart` -/

@[simp] theorem genStart_desc (s : State) :
    (genStart s).desc = s.desc := rfl
@[simp] theorem genStart_registry (s : State) :
    (genStart s).registry = s.registry := rfl
@[simp] theorem genStart_gen (s : State) :
    (genStart s).gen = ⟨true, BitVec.ofNat 14 Config.refreshUs⟩ := rfl
@[simp] theorem genStart_engine (s : State) :
    (genStart s).engine = s.engine := rfl
@[simp] theorem genStart_status (s : State) :
    (genStart s).status = s.status := rfl
@[simp] theorem genStart_result (s : State) :
    (genStart s).result = s.result := rfl
@[simp] theorem genStart_now (s : State) :
    (genStart s).now = s.now := rfl
@[simp] theorem genStart_trace (s : State) :
    (genStart s).trace = s.trace ++ [⟨s.now, .openSession⟩, ⟨s.now, .request theRequest⟩] := rfl
@[simp] theorem genStart_base (s : State) :
    (genStart s).base = s.base := rfl
@[simp] theorem genStart_readData (s : State) :
    (genStart s).readData = s.readData := rfl
@[simp] theorem genStart_schedule (s : State) :
    (genStart s).schedule = s.schedule := rfl

/-! ## `genStop` -/

@[simp] theorem genStop_desc (s : State) :
    (genStop s).desc = s.desc := rfl
@[simp] theorem genStop_registry (s : State) :
    (genStop s).registry = s.registry := rfl
@[simp] theorem genStop_gen (s : State) :
    (genStop s).gen = Generator.stopped := rfl
@[simp] theorem genStop_engine (s : State) :
    (genStop s).engine = s.engine := rfl
@[simp] theorem genStop_status (s : State) :
    (genStop s).status = s.status := rfl
@[simp] theorem genStop_result (s : State) :
    (genStop s).result = s.result := rfl
@[simp] theorem genStop_now (s : State) :
    (genStop s).now = s.now := rfl
@[simp] theorem genStop_trace (s : State) :
    (genStop s).trace = s.trace ++ [⟨s.now, .closeSession⟩] := rfl
@[simp] theorem genStop_base (s : State) :
    (genStop s).base = s.base := rfl
@[simp] theorem genStop_readData (s : State) :
    (genStop s).readData = s.readData := rfl
@[simp] theorem genStop_schedule (s : State) :
    (genStop s).schedule = s.schedule := rfl

/-! ## `illegalCommand` -/

@[simp] theorem illegalCommand_desc (s : State) :
    (illegalCommand s).desc = s.desc := rfl
@[simp] theorem illegalCommand_registry (s : State) :
    (illegalCommand s).registry = s.registry := rfl
@[simp] theorem illegalCommand_gen (s : State) :
    (illegalCommand s).gen = s.gen := rfl
@[simp] theorem illegalCommand_engine (s : State) :
    (illegalCommand s).engine = s.engine := rfl
@[simp] theorem illegalCommand_status (s : State) :
    (illegalCommand s).status = s.status ||| StatusBit.badCmd.mask := rfl
@[simp] theorem illegalCommand_result (s : State) :
    (illegalCommand s).result = 0xFFFFFFFF := rfl
@[simp] theorem illegalCommand_now (s : State) :
    (illegalCommand s).now = s.now := rfl
@[simp] theorem illegalCommand_trace (s : State) :
    (illegalCommand s).trace = s.trace := rfl
@[simp] theorem illegalCommand_base (s : State) :
    (illegalCommand s).base = s.base := rfl
@[simp] theorem illegalCommand_readData (s : State) :
    (illegalCommand s).readData = s.readData := rfl
@[simp] theorem illegalCommand_schedule (s : State) :
    (illegalCommand s).schedule = s.schedule := rfl

/-! ## Derived readings -/

@[simp] theorem emit_desc? (e : PortEvent) (s : State) (d : Byte) :
    (emit e s).desc? d = s.desc? d := rfl
@[simp] theorem emit_nDesc (e : PortEvent) (s : State) : (emit e s).nDesc = s.nDesc := rfl
@[simp] theorem emitAll_desc? (es : List PortEvent) (s : State) (d : Byte) :
    (emitAll es s).desc? d = s.desc? d := rfl
@[simp] theorem emitAll_nDesc (es : List PortEvent) (s : State) : (emitAll es s).nDesc = s.nDesc := rfl
@[simp] theorem setResult_desc? (v : Word) (s : State) (d : Byte) :
    (setResult v s).desc? d = s.desc? d := rfl
@[simp] theorem setResult_nDesc (v : Word) (s : State) : (setResult v s).nDesc = s.nDesc := rfl
@[simp] theorem flag_desc? (b : StatusBit) (s : State) (d : Byte) :
    (flag b s).desc? d = s.desc? d := rfl
@[simp] theorem flag_nDesc (b : StatusBit) (s : State) : (flag b s).nDesc = s.nDesc := rfl
@[simp] theorem clearStatus_desc? (v : Word) (s : State) (d : Byte) :
    (clearStatus v s).desc? d = s.desc? d := rfl
@[simp] theorem clearStatus_nDesc (v : Word) (s : State) : (clearStatus v s).nDesc = s.nDesc := rfl
@[simp] theorem genStart_desc? (s : State) (d : Byte) :
    (genStart s).desc? d = s.desc? d := rfl
@[simp] theorem genStart_nDesc (s : State) : (genStart s).nDesc = s.nDesc := rfl
@[simp] theorem genStop_desc? (s : State) (d : Byte) :
    (genStop s).desc? d = s.desc? d := rfl
@[simp] theorem genStop_nDesc (s : State) : (genStop s).nDesc = s.nDesc := rfl
@[simp] theorem illegalCommand_desc? (s : State) (d : Byte) :
    (illegalCommand s).desc? d = s.desc? d := rfl
@[simp] theorem illegalCommand_nDesc (s : State) : (illegalCommand s).nDesc = s.nDesc := rfl
@[simp] theorem modifyDesc_nDesc (d : Byte) (f : Desc → Desc) (s : State) :
    (modifyDesc d f s).nDesc = s.nDesc := by simp [State.nDesc]

end Sys2Proof.Machine
end

