-- ==== Sys2Proof/Laws/Bus.lean ====
section
/-! SUPPORT. Which accesses are legal, said once (20_memory.md rules R72, R74). -/

namespace Sys2Proof.Machine

/-- The only writable word registers are CMD and STATUS (rule R72). -/
theorem ofWordIndex_writable (j : Nat) :
    (Reg.ofWordIndex j).filter Reg.writable =
      if j = 0 then some .cmd else if j = 2 then some .status else none := by
  unfold Reg.ofWordIndex
  split
  · rfl
  · rfl
  · rfl
  · rfl
  · rfl
  · rfl
  · rfl
  · rename_i h0 h1 h2 _ _ _ _
    rw [if_neg (fun e => h0 e), if_neg (fun e => h2 e)]
    unfold bankReg
    split_ifs <;> rfl

/-- A write is legal only to CMD at offset 0x00 and STATUS at 0x08, four bytes wide (rule R72). -/
theorem writeTarget_eq (off n : Nat) :
    writeTarget off n =
      if n = 4 then if off = 0 then some .cmd else if off = 8 then some .status else none
      else none := by
  unfold writeTarget Reg.ofOffset
  by_cases hn : n = 4
  · rw [if_pos hn, if_pos hn]
    by_cases h4 : off % 4 = 0
    · rw [if_pos h4, ofWordIndex_writable]
      by_cases h0 : off = 0
      · simp [h0]
      · by_cases h8 : off = 8
        · simp [h8]
        · rw [if_neg (by omega), if_neg (by omega), if_neg h0, if_neg h8]
    · rw [if_neg h4, if_neg (by omega), if_neg (by omega)]
      rfl
  · rw [if_neg hn, if_neg hn]

end Sys2Proof.Machine
end

