-- ==== Sys2Proof/Laws/Encoding.lean ====
section
/-! SUPPORT. The fields of a word and its byte lanes: taking apart and putting together are inverse
(30_encoding.md rule R91; 20_memory.md rule R71). -/

namespace Sys2Proof

/-! ## Byte lanes (rule R71) -/

theorem wordOfLanes_lanes (w : Word) :
    wordOfLanes (laneOf w 0) (laneOf w 1) (laneOf w 2) (laneOf w 3) = w := by
  apply BitVec.eq_of_getLsbD_eq
  intro i hi
  simp only [wordOfLanes, laneOf, BitVec.getLsbD_append, BitVec.getLsbD_extractLsb']
  interval_cases i <;> simp

theorem laneOf_wordOfLanes (b0 b1 b2 b3 : Byte) :
    laneOf (wordOfLanes b0 b1 b2 b3) 0 = b0 ∧ laneOf (wordOfLanes b0 b1 b2 b3) 1 = b1 ∧
      laneOf (wordOfLanes b0 b1 b2 b3) 2 = b2 ∧ laneOf (wordOfLanes b0 b1 b2 b3) 3 = b3 := by
  refine ⟨?_, ?_, ?_, ?_⟩ <;>
  · apply BitVec.eq_of_getLsbD_eq
    intro i hi
    simp only [wordOfLanes, laneOf, BitVec.getLsbD_append, BitVec.getLsbD_extractLsb']
    interval_cases i <;> simp

theorem lanesOfWord_wordOfLanes (b0 b1 b2 b3 : Byte) :
    lanesOfWord (wordOfLanes b0 b1 b2 b3) = [b0, b1, b2, b3] := by
  obtain ⟨h0, h1, h2, h3⟩ := laneOf_wordOfLanes b0 b1 b2 b3
  simp [lanesOfWord, h0, h1, h2, h3]

/-- Decoding the lanes of a word decodes the word (rule R90). -/
theorem decode_lanesOfWord (n : Nat) (w : Word) : decode n (lanesOfWord w) = decodeWord n w := by
  simp [decode, lanesOfWord, wordOfLanes_lanes]

/-! ## Fields (rule R91) -/

theorem opField_append (o d : Byte) (m : Half) : opField (o ++ d ++ m) = o := by
  apply BitVec.eq_of_getLsbD_eq
  intro i hi
  simp only [opField, BitVec.getLsbD_append, BitVec.getLsbD_extractLsb']
  interval_cases i <;> simp

theorem dField_append (o d : Byte) (m : Half) : dField (o ++ d ++ m) = d := by
  apply BitVec.eq_of_getLsbD_eq
  intro i hi
  simp only [dField, BitVec.getLsbD_append, BitVec.getLsbD_extractLsb']
  interval_cases i <;> simp

theorem immField_append (o d : Byte) (m : Half) : immField (o ++ d ++ m) = m := by
  apply BitVec.eq_of_getLsbD_eq
  intro i hi
  simp only [immField, BitVec.getLsbD_append, BitVec.getLsbD_extractLsb']
  interval_cases i <;> simp

theorem pinField_append (o d z p : Byte) : pinField (o ++ d ++ (z ++ p : Half)) = p := by
  apply BitVec.eq_of_getLsbD_eq
  intro i hi
  simp only [pinField, BitVec.getLsbD_append, BitVec.getLsbD_extractLsb']
  interval_cases i <;> simp

theorem attachMbzField_append (o d z p : Byte) :
    attachMbzField (o ++ d ++ (z ++ p : Half)) = z := by
  apply BitVec.eq_of_getLsbD_eq
  intro i hi
  simp only [attachMbzField, BitVec.getLsbD_append, BitVec.getLsbD_extractLsb']
  interval_cases i <;> simp

/-- A word is `{OP, D, IMM}` (rule R91). -/
theorem fields_append (w : Word) : opField w ++ dField w ++ immField w = w := by
  apply BitVec.eq_of_getLsbD_eq
  intro i hi
  simp only [immField, dField, opField, BitVec.getLsbD_append, BitVec.getLsbD_extractLsb']
  interval_cases i <;> simp

/-- The two halves of IMM that ATTACH reads (rule R93). -/
theorem immField_halves (w : Word) : attachMbzField w ++ pinField w = immField w := by
  apply BitVec.eq_of_getLsbD_eq
  intro i hi
  simp only [immField, attachMbzField, pinField, BitVec.getLsbD_append, BitVec.getLsbD_extractLsb']
  interval_cases i <;> simp

/-! ## The fields of a command's own word (rules R91 to R94) -/

theorem opField_encodeWord (i : Instr) : opField (encodeWord i) = i.op := opField_append _ _ _

theorem dField_encodeWord (i : Instr) : dField (encodeWord i) = i.desc?.getD 0 :=
  dField_append _ _ _

theorem immField_encodeWord (i : Instr) : immField (encodeWord i) = i.imm := immField_append _ _ _

theorem pinField_encodeWord (d p : Byte) : pinField (encodeWord (.attach d p)) = p :=
  pinField_append _ _ _ _

theorem attachMbzField_encodeWord (d p : Byte) : attachMbzField (encodeWord (.attach d p)) = 0 :=
  attachMbzField_append _ _ _ _

/-- Everything a legal word can be (rules R92, R93, R95): the check of a command passes exactly on its
must-be-zero bits and its descriptor operand. -/
theorem checked_eq_ok {n : Nat} {z : Bool} {i j : Instr} :
    checked n z i = .ok j ↔ z = true ∧ i.wellFormed n = true ∧ i = j := by
  unfold checked
  by_cases hz : z = true <;> by_cases hw : i.wellFormed n = true <;> simp [hz, hw]

end Sys2Proof
end

