-- ==== Sys2Proof/Laws/Engine.lean ====
section
/-! SUPPORT. What the pulse engine's operations do (42_pulse_engine.md rules R158, R160): membership in
the pending and due entries, the least pending width, and the engine after a slot start and a Wake. -/

namespace Sys2Proof.Machine

/-! ## Pending and due entries -/

theorem Engine.mem_pending {e : Engine} {k : Nat} :
    k ∈ e.pending ↔ k < Config.maxChannels ∧ k < e.snapN.toNat ∧ e.lowered.getLsbD k = false := by
  simp [Engine.pending, Engine.isPending]

theorem Engine.mem_due {e : Engine} {k : Nat} :
    k ∈ e.due ↔ k ∈ e.pending ∧ e.widthOf k ≤ e.curT.toNat := by
  simp [Engine.due]

theorem Engine.pending_nodup (e : Engine) : e.pending.Nodup := List.nodup_range.filter _

theorem Engine.due_nodup (e : Engine) : e.due.Nodup := e.pending_nodup.filter _

/-- A width field is below 2^16. -/
theorem Engine.widthOf_lt (e : Engine) (k : Nat) : e.widthOf k < 65536 := by
  unfold Engine.widthOf
  cases h : e.snap[k]? with
  | none => simp
  | some x => simpa using x.width.isLt

theorem Engine.minPendingWidth_eq_none {e : Engine} :
    e.minPendingWidth = none ↔ e.pending = [] := by
  simp [Engine.minPendingWidth]

theorem Engine.minPendingWidth_eq_some {e : Engine} {t : Nat} :
    e.minPendingWidth = some t ↔
      (∃ k ∈ e.pending, e.widthOf k = t) ∧ ∀ k ∈ e.pending, t ≤ e.widthOf k := by
  rw [Engine.minPendingWidth, List.min?_eq_some_iff]
  simp

/-! ## LOWERED -/

theorem markLowered_getLsbD (l : BitVec 10) (ks : List Nat) (k : Nat) :
    (markLowered l ks).getLsbD k = (l.getLsbD k || (decide (k ∈ ks) && decide (k < 10))) := by
  induction ks generalizing l with
  | nil => simp [markLowered]
  | cons x xs ih =>
    rw [show markLowered l (x :: xs) = markLowered (l ||| BitVec.twoPow 10 x) xs from rfl, ih]
    by_cases hx : x = k
    · subst hx
      simp [BitVec.getLsbD_twoPow]
      by_cases h10 : x < 10 <;> simp [h10]
    · have hk : ¬ k = x := fun e => hx e.symm
      simp [BitVec.getLsbD_twoPow, hx, hk]

/-! ## Wake -/

@[simp] theorem Engine.lowerDue_snap (e : Engine) : e.lowerDue.snap = e.snap := rfl
@[simp] theorem Engine.lowerDue_snapN (e : Engine) : e.lowerDue.snapN = e.snapN := rfl
@[simp] theorem Engine.lowerDue_st (e : Engine) : e.lowerDue.st = e.st := rfl
@[simp] theorem Engine.lowerDue_curT (e : Engine) : e.lowerDue.curT = e.curT := rfl
@[simp] theorem Engine.lowerDue_waitCnt (e : Engine) : e.lowerDue.waitCnt = e.waitCnt := rfl
@[simp] theorem Engine.lowerDue_widthOf (e : Engine) (k : Nat) :
    e.lowerDue.widthOf k = e.widthOf k := rfl
@[simp] theorem Engine.lowerDue_pinOf (e : Engine) (k : Nat) : e.lowerDue.pinOf k = e.pinOf k := rfl

theorem Engine.lowerDue_lowered (e : Engine) (k : Nat) :
    e.lowerDue.lowered.getLsbD k = (e.lowered.getLsbD k || decide (k ∈ e.due)) := by
  rw [Engine.lowerDue, markLowered_getLsbD]
  by_cases h : k ∈ e.due
  · have : k < 10 := (Engine.mem_pending.1 (Engine.mem_due.1 h).1).1
    simp [h, this]
  · simp [h]

/-- After the due entries are marked, what is pending is what is wider than CUR_T (rule R160). -/
theorem Engine.mem_lowerDue_pending {e : Engine} {k : Nat} :
    k ∈ e.lowerDue.pending ↔ k ∈ e.pending ∧ e.curT.toNat < e.widthOf k := by
  rw [Engine.mem_pending, Engine.lowerDue_snapN, Engine.lowerDue_lowered]
  simp only [Bool.or_eq_false_iff, decide_eq_false_iff_not, Engine.mem_due, Engine.mem_pending,
    not_and, not_le]
  constructor
  · rintro ⟨h1, h2, h3, h4⟩
    exact ⟨⟨h1, h2, h3⟩, h4 ⟨h1, h2, h3⟩⟩
  · rintro ⟨⟨h1, h2, h3⟩, h4⟩
    exact ⟨h1, h2, h3, fun _ => h4⟩

theorem Engine.lowerDue_pending (e : Engine) :
    e.lowerDue.pending = e.pending.filter fun k => decide (e.curT.toNat < e.widthOf k) := by
  simp only [Engine.pending, List.filter_filter]
  refine List.filter_congr fun k hk => ?_
  have h10 : k < Config.maxChannels := by simpa using hk
  rw [Bool.eq_iff_iff]
  have := @Engine.mem_lowerDue_pending e k
  simp only [Engine.mem_pending, h10, true_and] at this
  simp only [Engine.isPending, Bool.and_eq_true, decide_eq_true_eq, Bool.not_eq_true']
  rw [this, and_comm]

/-- The two ways a Wake ends (rule R160): nothing remains and the engine is ENDING, or it waits for the
least remaining width. -/
theorem Engine.rewait_cases (e : Engine) :
    (e.pending = [] ∧ e.rewait = { e with st := .ending }) ∨
    (∃ t, e.minPendingWidth = some t ∧
      e.rewait = { e with waitCnt := BitVec.ofNat 16 t - e.curT, curT := BitVec.ofNat 16 t }) := by
  unfold Engine.rewait
  cases h : e.minPendingWidth with
  | none => exact .inl ⟨Engine.minPendingWidth_eq_none.1 h, rfl⟩
  | some t => exact .inr ⟨t, rfl, rfl⟩

/-! ## Slot start -/

@[simp] theorem loadSnapshot_snapN (s : State) : (loadSnapshot s).snapN = s.registry.count := rfl
@[simp] theorem loadSnapshot_lowered (s : State) : (loadSnapshot s).lowered = 0 := rfl

/-- The two ways a slot starts (rule R158): the snapshot is empty and the engine is ENDING, or a train
begins with the least width as its first wait. -/
theorem Engine.rise_cases (e : Engine) :
    (e.pending = [] ∧ e.rise = { e with st := .ending }) ∨
    (∃ t, e.minPendingWidth = some t ∧ e.rise =
      { e with st := .slotActive, curT := BitVec.ofNat 16 t, waitCnt := BitVec.ofNat 16 t }) := by
  unfold Engine.rise
  cases h : e.minPendingWidth with
  | none => exact .inl ⟨Engine.minPendingWidth_eq_none.1 h, rfl⟩
  | some t => exact .inr ⟨t, rfl, rfl⟩

/-- Entry `k < COUNT` of the loaded snapshot is the registry's entry `k` (rules R158, R159). -/
theorem loadSnapshot_snap_lt (s : State) {k : Nat} (h : k < s.registry.count.toNat)
    (h10 : k < Config.maxChannels) : (loadSnapshot s).snap[k]? = some (registryEntry s k) := by
  simp [loadSnapshot, snapshot, h, h10]

/-- Entry `k ≥ COUNT` keeps its old value (rule R158). -/
theorem loadSnapshot_snap_ge (s : State) {k : Nat} (h : s.registry.count.toNat ≤ k) :
    (loadSnapshot s).snap[k]? = s.engine.snap[k]? := by
  by_cases h10 : k < Config.maxChannels
  · have : ¬ k < s.registry.count.toNat := by omega
    simp [loadSnapshot, snapshot, this, h10]
  · simp [loadSnapshot, h10]

/-! ## Deliver -/

/-- Everything one delivery can do, by the code's kind and the engine's state (rule R155's table). -/
theorem deliver_cases (code : Byte) (s : State) :
    (code = 0x00 ∧ s.engine.st = .idle ∧ deliver code s = slotStart s) ∨
    (code = 0x00 ∧ s.engine.st ≠ .idle ∧ deliver code s = slotOverlap s) ∨
    (code = 0x01 ∧ s.engine.st = .slotActive ∧
      deliver code s = emit (.answer 0x01 .endSlot) (abortTrain s)) ∨
    (code = 0x01 ∧ s.engine.st ≠ .slotActive ∧ deliver code s = emit (.answer 0x01 .endSlot) s) ∨
    (code ≠ 0x00 ∧ code ≠ 0x01 ∧ deliver code s = emit (.answer code .none) s) := by
  have inj : ∀ n : Byte, code.toNat = n.toNat → code = n := fun n h => BitVec.eq_of_toNat_eq h
  unfold deliver eventKind
  split
  · rename_i h
    split at h <;> cases h
    rename_i h0
    have hc := inj 0x00 h0
    by_cases hi : s.engine.st = .idle
    · exact .inl ⟨hc, hi, by simp [slotStarted, hi]⟩
    · exact .inr (.inl ⟨hc, hi, by simp [slotStarted, hi]⟩)
  · rename_i h
    split at h <;> cases h
    rename_i h0
    have hc := inj 0x01 h0
    by_cases hi : s.engine.st = .slotActive
    · exact .inr (.inr (.inl ⟨hc, hi, by simp [timerExpiry, hi]⟩))
    · exact .inr (.inr (.inr (.inl ⟨hc, hi, by simp [timerExpiry, hi]⟩)))
  · rename_i h
    split at h <;> cases h
    rename_i h0
    have hc := inj 0x02 h0
    subst hc
    exact .inr (.inr (.inr (.inr ⟨by decide, by decide, rfl⟩)))
  · rename_i h
    split at h <;> cases h
    rename_i h0 h1 h2
    exact .inr (.inr (.inr (.inr ⟨fun e => h0 (by simp [e]), fun e => h1 (by simp [e]), rfl⟩)))

end Sys2Proof.Machine
end

