-- ==== Sys2Proof/Laws/Registry.lean ====
section
/-! SUPPORT. What the registry's compaction does (40_channel_commands.md rule R115): everything the
fold over `shiftDown` can do, said once. -/

namespace Sys2Proof.Machine

/-- The compaction loop over the slots `i, …, i + m - 1`. -/
abbrev compact (i m : Nat) (p : Vector Byte Config.maxChannels × List Desc) :
    Vector Byte Config.maxChannels × List Desc :=
  (List.range' i m).foldl shiftDown p

theorem compact_succ (i m : Nat) (p : Vector Byte Config.maxChannels × List Desc) :
    compact i (m + 1) p = shiftDown (compact i m p) (i + m) := by
  simp [compact, List.range'_concat]

/-- The number of descriptors stays. -/
@[simp] theorem compact_length (i m : Nat) (p : Vector Byte Config.maxChannels × List Desc) :
    (compact i m p).2.length = p.2.length := by
  induction m with
  | zero => rfl
  | succ m ih => rw [compact_succ]; simp [shiftDown, ih]

/-- The slots `i, …, i + m - 1` take the entry above them; the others stay. -/
theorem compact_slot (i m : Nat) (p : Vector Byte Config.maxChannels × List Desc)
    (h : i + m < Config.maxChannels) (j : Nat) :
    (compact i m p).1[j]? = if i ≤ j ∧ j < i + m then p.1[j + 1]? else p.1[j]? := by
  induction m generalizing j with
  | zero => simp [compact]
  | succ m ih =>
    rw [compact_succ]
    simp only [shiftDown, Vector.getElem?_setIfInBounds]
    have hh : (compact i m p).1[i + m + 1]? = p.1[i + m + 1]? := by
      rw [ih (by omega)]; simp
    have hlt : i + m + 1 < Config.maxChannels := h
    by_cases hj : i + m = j
    · subst hj
      have hb : i + m < Config.maxChannels := by omega
      rw [hh]
      simp [hb, hlt]
    · rw [if_neg hj, ih (by omega)]
      by_cases h1 : i ≤ j ∧ j < i + m
      · rw [if_pos h1, if_pos (by omega)]
      · rw [if_neg h1, if_neg (by omega)]

/-- A descriptor keeps its pin and width, and one that no moved slot names keeps its index too. -/
theorem compact_desc (i m : Nat) (p : Vector Byte Config.maxChannels × List Desc)
    (h : i + m < Config.maxChannels) (q : Nat) (c : Desc) (hc : p.2[q]? = some c) :
    ∃ x : Byte, (compact i m p).2[q]? = some { c with index := x } ∧
      ((∀ j, i ≤ j → j < i + m → (p.1[j + 1]?.getD 0xFF).toNat ≠ q) → x = c.index) ∧
      (∀ j, i ≤ j → j < i + m → (p.1[j + 1]?.getD 0xFF).toNat = q →
        (∀ k, j < k → k < i + m → (p.1[k + 1]?.getD 0xFF).toNat ≠ q) → x = BitVec.ofNat 8 j) := by
  induction m with
  | zero => exact ⟨c.index, by simpa [compact] using hc, fun _ => rfl, fun j h1 h2 => by omega⟩
  | succ m ih =>
    obtain ⟨x, hx, hkeep, hmove⟩ := ih (by omega)
    rw [compact_succ]
    have hh : (compact i m p).1[i + m + 1]? = p.1[i + m + 1]? := by
      rw [compact_slot i m p (by omega)]; simp
    by_cases hq : (p.1[i + m + 1]?.getD 0xFF).toNat = q
    · refine ⟨BitVec.ofNat 8 (i + m), ?_, ?_, ?_⟩
      · simp only [shiftDown, hh, List.getElem?_modify, hq, hx]
        simp
      · intro hno
        exact absurd hq (hno (i + m) (by omega) (by omega))
      · intro j h1 h2 hj hlast
        by_cases hjm : j = i + m
        · rw [hjm]
        · exact absurd hq (hlast (i + m) (by omega) (by omega))
    · refine ⟨x, ?_, ?_, ?_⟩
      · simp only [shiftDown, hh, List.getElem?_modify, hq, hx]
        simp
      · intro hno
        exact hkeep fun j h1 h2 => hno j h1 (by omega)
      · intro j h1 h2 hj hlast
        have hjm : j ≠ i + m := by
          intro e; rw [e] at hj; exact hq hj
        exact hmove j h1 (by omega) hj fun k h3 h4 => hlast k h3 (by omega)

/-! ## What the invariants say of the registry -/

theorem slotId_eq (s : State) (i : Nat) : s.slotId i = s.registry.slot[i]?.getD 0xFF := rfl

/-- No descriptor holds two registry slots (rules R36, R37). -/
theorem State.Contiguous.slotId_inj {s : State} (h : s.Contiguous) {i j : Nat} (hi : i < s.count)
    (hj : j < s.count) (e : s.slotId i = s.slotId j) : i = j := by
  obtain ⟨c, hc, rfl⟩ := h.2.1 i hi
  obtain ⟨c', hc', rfl⟩ := h.2.1 j hj
  rw [e, hc'] at hc
  cases hc; rfl

/-- An attached descriptor holds the registry slot its index names (rules R36, R37). -/
theorem attached_slot {s : State} (h : s.Contiguous) (hm : s.Membership) {d : Byte} {c : Desc}
    (hc : s.desc? d = some c) (ha : c.isAttached = true) :
    c.index.toNat < s.count ∧ s.slotId c.index.toNat = d := by
  obtain ⟨i, ⟨hi, hs⟩, -⟩ := (hm d c hc).1 ha
  obtain ⟨c', hc', hidx⟩ := h.2.1 i hi
  rw [hs, hc] at hc'
  cases hc'
  rw [hidx]
  exact ⟨hi, hs⟩

/-- A descriptor some registry slot holds is attached, with the slot's number as its index. -/
theorem slot_attached {s : State} (h : s.Contiguous) {d : Byte} {c : Desc} {i : Nat}
    (hc : s.desc? d = some c) (hi : i < s.count) (hs : s.slotId i = d) :
    c.index.toNat = i ∧ c.isAttached = true := by
  obtain ⟨c', hc', hidx⟩ := h.2.1 i hi
  rw [hs, hc] at hc'
  cases hc'
  refine ⟨hidx, ?_⟩
  have h10 : s.count ≤ Config.maxChannels := h.1
  refine decide_eq_true fun e => ?_
  rw [e] at hidx
  have h255 : Config.invalid.toNat = 255 := rfl
  have : Config.maxChannels = 10 := rfl
  omega

/-! ## The compaction of DETACH -/

theorem count_lt (s : State) : s.count < 16 := s.registry.count.isLt

/-- COUNT after the else-branch of DETACH. -/
theorem detachEntry_count (d : Byte) (i : Nat) (s : State) (h : 0 < s.count) :
    (detachEntry d i s).count = s.count - 1 := by
  have h16 := count_lt s
  have hc : ((s.registry.count - 1).toNat) = s.count - 1 := by
    have : (1 : BitVec 4).toNat = 1 := rfl
    simp only [BitVec.toNat_sub, this]
    simp only [State.count] at *
    omega
  unfold detachEntry
  split <;> exact hc

/-- SLOT after the else-branch of DETACH (rule R115): the entries above `i` move down by one. -/
theorem detachEntry_slotId (d : Byte) (i : Nat) (s : State) (h : s.count ≤ Config.maxChannels)
    (hi : i < s.count) (j : Nat) :
    (detachEntry d i s).slotId j =
      if i ≤ j ∧ j + 1 < s.count then s.slotId (j + 1)
      else if j + 1 = s.count then 0xFF else s.slotId j := by
  have key : ∀ j, (((compact i (s.count - 1 - i) (s.registry.slot, s.desc)).1.setIfInBounds
      (s.count - 1) 0xFF)[j]?).getD 0xFF =
      if i ≤ j ∧ j + 1 < s.count then s.slotId (j + 1)
      else if j + 1 = s.count then 0xFF else s.slotId j := by
    intro j
    rw [Vector.getElem?_setIfInBounds, compact_slot _ _ _ (by omega)]
    by_cases h1 : s.count - 1 = j
    · have h2 : s.count - 1 < Config.maxChannels := by omega
      rw [if_pos h1, if_pos (by omega), if_neg (by omega), if_pos (by omega)]
      rfl
    · rw [if_neg h1]
      by_cases h2 : i ≤ j ∧ j + 1 < s.count
      · rw [if_pos h2, if_pos (by omega)]; rfl
      · rw [if_neg h2, if_neg (by omega), if_neg (by omega)]; rfl
  unfold detachEntry
  split <;> exact key j

/-- The descriptor file after the else-branch of DETACH (rules R115, R116): `d` is detached with pin
and width kept, every descriptor above it moves down by one, the others stay. -/
theorem detachEntry_desc? {s : State} (h : s.Contiguous) (hm : s.Membership) {d : Byte} {c : Desc}
    (hc : s.desc? d = some c) (ha : c.isAttached = true) {q : Byte} {x : Desc}
    (hx : s.desc? q = some x) :
    (detachEntry d c.index.toNat s).desc? q =
      some { x with index :=
        if q = d then Config.invalid
        else if x.isAttached = true ∧ c.index.toNat < x.index.toNat then
          BitVec.ofNat 8 (x.index.toNat - 1)
        else x.index } := by
  obtain ⟨hi, hs⟩ := attached_slot h hm hc ha
  set i := c.index.toNat with hidef
  have h10 : s.count ≤ Config.maxChannels := h.1
  have h16 := count_lt s
  obtain ⟨y, hy, hkeep, hmove⟩ := compact_desc i (s.count - 1 - i) (s.registry.slot, s.desc)
    (by omega) q.toNat x hx
  have slotEq : ∀ j, (s.registry.slot[j + 1]?.getD 0xFF).toNat = q.toNat ↔ s.slotId (j + 1) = q :=
    fun j => BitVec.toNat_inj
  have hval : q ≠ d → y = if x.isAttached = true ∧ i < x.index.toNat then
      BitVec.ofNat 8 (x.index.toNat - 1) else x.index := by
    intro hqd
    by_cases hxa : x.isAttached = true
    · obtain ⟨hxi, hxs⟩ := attached_slot h hm hx hxa
      have hne : x.index.toNat ≠ i := by
        intro e; rw [e, hs] at hxs; exact hqd hxs.symm
      by_cases hlt : i < x.index.toNat
      · rw [if_pos ⟨hxa, hlt⟩]
        have e1 : x.index.toNat - 1 + 1 = x.index.toNat := by omega
        refine hmove (x.index.toNat - 1) (by omega) (by omega) ?_ ?_
        · exact (slotEq _).2 (by rw [e1]; exact hxs)
        · intro k h1 h2 hk
          have := h.slotId_inj (by omega) hxi (((slotEq k).1 hk).trans hxs.symm)
          omega
      · rw [if_neg (fun hh => hlt hh.2)]
        refine hkeep fun j h1 h2 hk => ?_
        have := h.slotId_inj (by omega) hxi (((slotEq j).1 hk).trans hxs.symm)
        omega
    · rw [if_neg (fun hh => hxa hh.1)]
      refine hkeep fun j h1 h2 hk => ?_
      exact hxa (slot_attached h hx (by omega) ((slotEq j).1 hk)).2
  have key : ((compact i (s.count - 1 - i) (s.registry.slot, s.desc)).2.modify d.toNat
      fun c => { c with index := Config.invalid })[q.toNat]? =
      some { x with index :=
        if q = d then Config.invalid
        else if x.isAttached = true ∧ i < x.index.toNat then BitVec.ofNat 8 (x.index.toNat - 1)
        else x.index } := by
    rw [List.getElem?_modify, hy]
    by_cases hqd : q = d
    · simp [hqd]
    · have : d.toNat ≠ q.toNat := fun e => hqd (BitVec.eq_of_toNat_eq e.symm)
      rw [if_neg hqd, ← hval hqd]
      simp [this]
  unfold detachEntry
  split <;> exact key

/-- What the else-branch of DETACH leaves alone, and what it does to the generator and the ports. -/
theorem detachEntry_frame (d : Byte) (i : Nat) (s : State) :
    let t := detachEntry d i s
    t.engine = s.engine ∧ t.status = s.status ∧ t.result = s.result ∧ t.now = s.now ∧
      t.base = s.base ∧ t.readData = s.readData ∧ t.schedule = s.schedule ∧ t.nDesc = s.nDesc ∧
      (s.registry.count - 1 = 0 → t.gen = Generator.stopped ∧
        t.trace = s.trace ++ [⟨s.now, .closeSession⟩]) ∧
      (s.registry.count - 1 ≠ 0 → t.gen = s.gen ∧ t.trace = s.trace) := by
  have hn : (removeEntry d i s).nDesc = s.nDesc := by simp [State.nDesc, removeEntry, compacted]
  by_cases h : s.registry.count - 1 = 0
  · rw [detachEntry, if_pos h]
    exact ⟨rfl, rfl, rfl, rfl, rfl, rfl, rfl, hn, fun _ => ⟨rfl, rfl⟩, fun h' => absurd h h'⟩
  · rw [detachEntry, if_neg h]
    exact ⟨rfl, rfl, rfl, rfl, rfl, rfl, rfl, hn, fun h' => absurd h' h, fun _ => ⟨rfl, rfl⟩⟩

/-! ## The append of ATTACH -/

/-- What the last branch of ATTACH leaves alone, and what it does to the generator and the ports (rules
R112, R140). -/
theorem attachEntry_frame (d p : Byte) (s : State) :
    let t := attachEntry d p s
    t.engine = s.engine ∧ t.status = s.status ∧ t.result = s.result ∧ t.now = s.now ∧
      t.base = s.base ∧ t.readData = s.readData ∧ t.schedule = s.schedule ∧ t.nDesc = s.nDesc ∧
      t.registry = ⟨s.registry.slot.setIfInBounds s.registry.count.toNat d, s.registry.count + 1⟩ ∧
      t.desc = s.desc.modify d.toNat
        (fun c => { c with index := s.registry.count.setWidth 8, pin := p }) ∧
      (s.registry.count = 0 → t.gen = ⟨true, BitVec.ofNat 14 Config.refreshUs⟩ ∧
        t.trace = s.trace ++ [⟨s.now, .configure p⟩, ⟨s.now, .openSession⟩,
          ⟨s.now, .request theRequest⟩]) ∧
      (s.registry.count ≠ 0 → t.gen = s.gen ∧ t.trace = s.trace ++ [⟨s.now, .configure p⟩]) := by
  have hn : (appendEntry d p s).nDesc = s.nDesc := by simp [State.nDesc, appendEntry]
  by_cases h : s.registry.count = 0
  · rw [attachEntry, if_pos h]
    exact ⟨rfl, rfl, rfl, rfl, rfl, rfl, rfl, hn, rfl, rfl,
      fun _ => ⟨rfl, by simp [appendEntry]⟩, fun h' => absurd h h'⟩
  · rw [attachEntry, if_neg h]
    exact ⟨rfl, rfl, rfl, rfl, rfl, rfl, rfl, hn, rfl, rfl,
      fun h' => absurd h' h, fun _ => ⟨rfl, rfl⟩⟩

end Sys2Proof.Machine
end

