-- ==== Sys2Proof/Laws/Invariant.lean ====
section
/-! SUPPORT. A check by evaluation that a given state meets the invariant of Safety.lean, and its
soundness: a witness state is shown to meet the invariant by `checkInv_sound … (by decide)`. -/

namespace Sys2Proof.Machine

/-- The descriptors, the registry and the generator, checked (rules R11, R31, R33, R36, R37, R40,
R41). -/
def checkRegistry (s : State) : Bool :=
  decide (1 ≤ s.nDesc ∧ s.nDesc ≤ 256) &&
  s.desc.all (fun c => decide (Config.minPulseWidth ≤ c.width.toNat ∧
    c.width.toNat ≤ Config.maxPulseWidth)) &&
  s.desc.all (fun c => decide (c.index.toNat < Config.maxChannels ∨ c.index = Config.invalid)) &&
  decide (s.count ≤ Config.maxChannels) &&
  (List.range s.count).all (fun i => (s.desc? (s.slotId i)).any fun c => decide (c.index.toNat = i)) &&
  (List.range Config.maxChannels).all (fun i => decide (s.count ≤ i → s.slotId i = 0xFF)) &&
  (List.range s.nDesc).all (fun q => (s.desc[q]?).all fun c =>
    !c.isAttached || (decide (c.index.toNat < s.count) &&
      decide (s.slotId c.index.toNat = BitVec.ofNat 8 q))) &&
  decide ((s.gen.run = true ↔ 0 < s.count) ∧
    (s.gen.run = true → 1 ≤ s.gen.trigCnt.toNat ∧ s.gen.trigCnt.toNat ≤ Config.refreshUs) ∧
    (s.gen.run = false → s.gen.trigCnt = 0))

/-- The engine, STATUS and the trace, checked (rules R43, R46, R49, R81). -/
def checkEngine (s : State) : Bool :=
  decide (s.engine.st = .slotActive →
    1 ≤ s.engine.snapN.toNat ∧
    (∀ k, k < s.engine.snapN.toNat →
      Config.minPulseWidth ≤ s.engine.widthOf k ∧ s.engine.widthOf k ≤ Config.maxPulseWidth) ∧
    s.engine.minPendingWidth = some s.engine.curT.toNat ∧
    (∀ k, k < s.engine.snapN.toNat →
      (s.engine.lowered.getLsbD k = true ↔ s.engine.widthOf k < s.engine.curT.toNat)) ∧
    s.engine.waitCnt.toNat ≤ s.engine.curT.toNat ∧
    s.engine.curT.toNat ≤ s.now + s.engine.waitCnt.toNat) &&
  decide (s.engine.snapN.toNat ≤ Config.maxChannels ∧
    (s.engine.st = .ending → s.engine.pending = [])) &&
  decide (s.status.toNat < 16) &&
  decide ((s.trace.map Stamped.time).Pairwise (· ≤ ·)) &&
  s.trace.all (fun e => decide (e.time ≤ s.now))

/-- A state the check passes meets the invariant. -/
theorem checkInv_sound {s : State} (hr : checkRegistry s = true) (he : checkEngine s = true) :
    s.Inv := by
  simp only [checkRegistry, Bool.and_eq_true, decide_eq_true_eq, List.all_eq_true] at hr
  simp only [checkEngine, Bool.and_eq_true, decide_eq_true_eq, List.all_eq_true] at he
  obtain ⟨⟨⟨⟨⟨⟨⟨hsize, hw⟩, hidx⟩, hcount⟩, hslots⟩, hfree⟩, hmem⟩, hgen⟩ := hr
  obtain ⟨⟨⟨⟨htrain, heng⟩, hstatus⟩, hsorted⟩, htimes⟩ := he
  have hcont : s.Contiguous := by
    refine ⟨hcount, fun i hi => ?_, fun i h1 h2 => ?_⟩
    · have := hslots i (List.mem_range.2 hi)
      obtain ⟨c, hc, hci⟩ := Option.any_eq_true _ _ |>.1 this
      exact ⟨c, hc, by simpa using hci⟩
    · exact hfree i (List.mem_range.2 h2) h1
  refine ⟨hsize, hw, hidx, hcont, fun d c hc => ⟨fun ha => ?_, ?_⟩, hgen, htrain, heng, hstatus,
    hsorted, htimes⟩
  · have hd : d.toNat < s.nDesc := by
      have := List.getElem?_eq_some_iff.1 hc
      exact this.1
    have h1 := hmem d.toNat (List.mem_range.2 hd)
    rw [show s.desc[d.toNat]? = some c from hc] at h1
    simp [ha] at h1
    refine ⟨c.index.toNat, h1, fun j hj => ?_⟩
    exact (slot_attached hcont hc hj.1 hj.2).1.symm
  · rintro ⟨i, ⟨hi, hs⟩, -⟩
    exact (slot_attached hcont hc hi hs).2

end Sys2Proof.Machine
end

