-- ==== Sys2Proof/Laws/Operands.lean ====
section
/-! SUPPORT. What the operand arithmetic gives (40_channel_commands.md rules R118 to R124). -/

namespace Sys2Proof.Machine

theorem clamp_bounds (v lo hi : Int) (h : lo ≤ hi) : lo ≤ clamp v lo hi ∧ clamp v lo hi ≤ hi := by
  unfold clamp; omega

/-- A stored width is exactly the clamped value (rule R121). -/
theorem clampWidth_toNat (v : Int) : ((clampWidth v).toNat : Int) = max 544 (min 2400 v) := by
  simp only [clampWidth, clamp, Config.minPulseWidth, Config.maxPulseWidth, BitVec.toNat_ofInt]
  omega

/-- A stored width keeps the invariant of rule R33. -/
theorem clampWidth_bounds (v : Int) :
    Config.minPulseWidth ≤ (clampWidth v).toNat ∧ (clampWidth v).toNat ≤ Config.maxPulseWidth := by
  have := clampWidth_toNat v
  simp only [Config.minPulseWidth, Config.maxPulseWidth]
  omega

/-- The linear map of an angle, written out (rule R118). -/
theorem angleToUs_eq (a : Int) : angleToUs a = Int.tdiv (a * 1856) 180 + 544 := by
  simp [angleToUs, linMap, Config.angleMin, Config.angleMax, Config.minPulseWidth,
    Config.maxPulseWidth]

/-- READ's inverse map, written out (rule R123). -/
theorem widthToAngle_eq (w : Half) :
    widthToAngle w = Int.tdiv (((w.toNat : Int) - 543) * 180) 1856 := by
  simp only [widthToAngle, linMap, Config.angleMin, Config.angleMax, Config.minPulseWidth,
    Config.maxPulseWidth]
  have : ((w.toNat : Int) + 1 - ((544 : Nat) : Int)) = (w.toNat : Int) - 543 := by omega
  rw [this]
  norm_num

end Sys2Proof.Machine
end

