-- ==== Sys2Proof/Laws/PerInstr.lean ====
section
/-! SUPPORT. Per-instruction families (LAWS.json). -/

namespace Sys2Proof.Laws

/-- The row of the opcode table a command stands for (30_encoding.md rule R94). -/
def rowOf : Instr → OpcodeRow
  | .nop => ⟨"NOP", 0x00000000, 0xFFFFFFFF, false⟩
  | .attach _ _ => ⟨"ATTACH", 0x01000000, 0xFF00FF00, true⟩
  | .detach _ => ⟨"DETACH", 0x02000000, 0xFF00FFFF, true⟩
  | .write _ _ => ⟨"WRITE", 0x03000000, 0xFF000000, true⟩
  | .writeUs _ _ => ⟨"WRITE_US", 0x04000000, 0xFF000000, true⟩
  | .read _ => ⟨"READ", 0x05000000, 0xFF00FFFF, true⟩
  | .readUs _ => ⟨"READ_US", 0x06000000, 0xFF00FFFF, true⟩
  | .attached _ => ⟨"ATTACHED", 0x07000000, 0xFF00FFFF, true⟩
  | .index _ => ⟨"INDEX", 0x08000000, 0xFF00FFFF, true⟩
  | .pin _ => ⟨"PIN", 0x09000000, 0xFF00FFFF, true⟩
  | .release _ => ⟨"RELEASE", 0x0A000000, 0xFF00FFFF, true⟩

namespace TableBits

/-- The word of a command has the fixed bits of its own row of the opcode table (rule R95). -/
def Statement (i : Instr) : Prop :=
  rowOf i ∈ opcodeTable ∧ encodeWord i &&& (rowOf i).mask = (rowOf i).matchBits

/-- The mask of a row, bit by bit, on a word of three fields. -/
theorem fixed_bits (o d : Byte) (m : Half) (mask fixed : Word)
    (h : ∀ k : Fin 32, ((o ++ d ++ m : Word).getLsbD k && mask.getLsbD k) = fixed.getLsbD k) :
    (o ++ d ++ m : Word) &&& mask = fixed := by
  apply BitVec.eq_of_getLsbD_eq
  intro k hk
  rw [BitVec.getLsbD_and]
  exact h ⟨k, hk⟩

theorem nop : Statement .nop := ⟨by decide, by decide⟩

theorem attach (d p : Byte) : Statement (.attach d p) := by
  refine ⟨by simp [rowOf, opcodeTable], fixed_bits _ _ _ _ _ fun k => ?_⟩
  simp only [BitVec.getLsbD_append, Instr.op, Instr.imm, rowOf]
  fin_cases k <;> simp

theorem detach (d : Byte) : Statement (.detach d) := by
  refine ⟨by simp [rowOf, opcodeTable], fixed_bits _ _ _ _ _ fun k => ?_⟩
  simp only [BitVec.getLsbD_append, Instr.op, Instr.imm, rowOf]
  fin_cases k <;> simp

theorem write (d : Byte) (a : Half) : Statement (.write d a) := by
  refine ⟨by simp [rowOf, opcodeTable], fixed_bits _ _ _ _ _ fun k => ?_⟩
  simp only [BitVec.getLsbD_append, Instr.op, Instr.imm, rowOf]
  fin_cases k <;> simp

theorem writeUs (d : Byte) (v : Half) : Statement (.writeUs d v) := by
  refine ⟨by simp [rowOf, opcodeTable], fixed_bits _ _ _ _ _ fun k => ?_⟩
  simp only [BitVec.getLsbD_append, Instr.op, Instr.imm, rowOf]
  fin_cases k <;> simp

theorem read (d : Byte) : Statement (.read d) := by
  refine ⟨by simp [rowOf, opcodeTable], fixed_bits _ _ _ _ _ fun k => ?_⟩
  simp only [BitVec.getLsbD_append, Instr.op, Instr.imm, rowOf]
  fin_cases k <;> simp

theorem readUs (d : Byte) : Statement (.readUs d) := by
  refine ⟨by simp [rowOf, opcodeTable], fixed_bits _ _ _ _ _ fun k => ?_⟩
  simp only [BitVec.getLsbD_append, Instr.op, Instr.imm, rowOf]
  fin_cases k <;> simp

theorem attached (d : Byte) : Statement (.attached d) := by
  refine ⟨by simp [rowOf, opcodeTable], fixed_bits _ _ _ _ _ fun k => ?_⟩
  simp only [BitVec.getLsbD_append, Instr.op, Instr.imm, rowOf]
  fin_cases k <;> simp

theorem index (d : Byte) : Statement (.index d) := by
  refine ⟨by simp [rowOf, opcodeTable], fixed_bits _ _ _ _ _ fun k => ?_⟩
  simp only [BitVec.getLsbD_append, Instr.op, Instr.imm, rowOf]
  fin_cases k <;> simp

theorem pin (d : Byte) : Statement (.pin d) := by
  refine ⟨by simp [rowOf, opcodeTable], fixed_bits _ _ _ _ _ fun k => ?_⟩
  simp only [BitVec.getLsbD_append, Instr.op, Instr.imm, rowOf]
  fin_cases k <;> simp

theorem release (d : Byte) : Statement (.release d) := by
  refine ⟨by simp [rowOf, opcodeTable], fixed_bits _ _ _ _ _ fun k => ?_⟩
  simp only [BitVec.getLsbD_append, Instr.op, Instr.imm, rowOf]
  fin_cases k <;> simp

end TableBits

end Sys2Proof.Laws
end

