-- ==== Sys2Proof/Laws/Step.lean ====
section
/-! SUPPORT. What one command and one turn can do, said once: later proofs cite these and do not unfold
`exec`, `takeTurn` or the bus (00_scope.md rules R16 to R19; 20_memory.md rules R72, R73; 30_encoding.md
rules R90, R97). -/

namespace Sys2Proof.Machine

/-! ## Commands -/

/-- A command whose descriptor is held runs its meaning on that descriptor. -/
theorem withDesc_some {d : Byte} {s : State} {c : Desc} (k : Desc → State) (h : s.desc? d = some c) :
    withDesc d s k = k c := by simp [withDesc, h]

/-- A descriptor id out of range has the effect of rule R97. -/
theorem withDesc_none {d : Byte} {s : State} (k : Desc → State) (h : s.desc? d = none) :
    withDesc d s k = illegalCommand s := by simp [withDesc, h]

/-- Everything a command can do: the effect of an illegal word, a new RESULT, a new width and RESULT 0,
or a change of the registry (rules R97, R110 to R130). -/
theorem exec_cases {i : Instr} {s t : State} (h : exec i s = .next t) :
    (∃ d, i.desc? = some d ∧ s.desc? d = none ∧ t = illegalCommand s) ∨
    (∃ v, t = setResult v s) ∨
    (∃ d c w, s.desc? d = some c ∧ Config.minPulseWidth ≤ w.toNat ∧
      w.toNat ≤ Config.maxPulseWidth ∧ t = setResult 0 (setWidth d w s)) ∨
    (∃ d p c, i = .attach d p ∧ s.desc? d = some c ∧ c.isAttached = false ∧
      s.registry.count.toNat ≠ Config.maxChannels ∧
      t = setResult (s.registry.count.setWidth 32) (attachEntry d p s)) ∨
    (∃ d c, i = .detach d ∧ s.desc? d = some c ∧ c.isAttached = true ∧
      t = setResult 0 (detachEntry d c.index.toNat s)) ∨
    (∃ d c, i = .release d ∧ s.desc? d = some c ∧ c.isAttached = true ∧
      t = setResult 0 (construct d (detachEntry d c.index.toNat s))) ∨
    (∃ d c, i = .release d ∧ s.desc? d = some c ∧ c.isAttached = false ∧
      t = setResult 0 (construct d s)) := by
  have ill : ∀ d, i.desc? = some d → s.desc? d = none → t = illegalCommand s →
      ∃ d, i.desc? = some d ∧ s.desc? d = none ∧ t = illegalCommand s := fun d h1 h2 h3 => ⟨d, h1, h2, h3⟩
  cases i with
  | nop => cases h; exact .inr (.inl ⟨0, rfl⟩)
  | attach d p =>
    cases h
    cases hd : s.desc? d with
    | none => exact .inl (ill d rfl hd (withDesc_none _ hd))
    | some c =>
      rw [withDesc_some _ hd]
      by_cases ha : c.isAttached = true
      · rw [if_pos ha]; exact .inr (.inl ⟨_, rfl⟩)
      · rw [if_neg ha]
        by_cases hf : s.registry.count.toNat = Config.maxChannels
        · rw [if_pos hf]; exact .inr (.inl ⟨_, rfl⟩)
        · rw [if_neg hf]
          exact .inr (.inr (.inr (.inl ⟨d, p, c, rfl, hd, by simpa using ha, hf, rfl⟩)))
  | detach d =>
    cases h
    cases hd : s.desc? d with
    | none => exact .inl (ill d rfl hd (withDesc_none _ hd))
    | some c =>
      rw [withDesc_some _ hd]
      by_cases ha : c.isAttached = true
      · rw [if_pos ha]; exact .inr (.inr (.inr (.inr (.inl ⟨d, c, rfl, hd, ha, rfl⟩))))
      · rw [if_neg ha]; exact .inr (.inl ⟨0, rfl⟩)
  | write d a =>
    cases h
    cases hd : s.desc? d with
    | none => exact .inl (ill d rfl hd (withDesc_none _ hd))
    | some c =>
      rw [withDesc_some _ hd]
      have hb := clampWidth_bounds (angleToUs (sext16 a))
      exact .inr (.inr (.inl ⟨d, c, _, hd, hb.1, hb.2, rfl⟩))
  | writeUs d v =>
    cases h
    cases hd : s.desc? d with
    | none => exact .inl (ill d rfl hd (withDesc_none _ hd))
    | some c =>
      rw [withDesc_some _ hd]
      have hb := clampWidth_bounds (sext16 v)
      exact .inr (.inr (.inl ⟨d, c, _, hd, hb.1, hb.2, rfl⟩))
  | release d =>
    cases h
    cases hd : s.desc? d with
    | none => exact .inl (ill d rfl hd (withDesc_none _ hd))
    | some c =>
      rw [withDesc_some _ hd]
      by_cases ha : c.isAttached = true
      · rw [if_pos ha]
        exact .inr (.inr (.inr (.inr (.inr (.inl ⟨d, c, rfl, hd, ha, rfl⟩)))))
      · rw [if_neg ha]
        exact .inr (.inr (.inr (.inr (.inr (.inr ⟨d, c, rfl, hd, by simpa using ha, rfl⟩)))))
  | read d | readUs d | attached d | index d | pin d =>
    cases h
    cases hd : s.desc? d with
    | none => exact .inl (ill d rfl hd (withDesc_none _ hd))
    | some c => rw [withDesc_some _ hd]; exact .inr (.inl ⟨_, rfl⟩)

/-- A command never stops (rule R108). -/
theorem exec_next (i : Instr) (s : State) : ∃ t, exec i s = .next t := by
  cases i <;> exact ⟨_, rfl⟩

/-! ## Bus accesses -/

/-- Everything a read by the host can do (rules R72, R73; log 3). -/
theorem hostRead_cases (addr n : Nat) (s : State) :
    hostRead addr n s = s ∨
    (∃ off r, addr = s.base + off ∧ readTarget off n = some r ∧
      hostRead addr n s = { s with readData := lanesOfWord (r.value s) }) ∨
    (∃ off, addr = s.base + off ∧ off < Config.regBytes ∧ readTarget off n = none ∧
      hostRead addr n s = flag .badAcc { s with readData := List.replicate n 0 }) := by
  unfold hostRead windowOffset
  split
  · rename_i off h
    split at h
    · rename_i hw
      cases h
      unfold memRead
      cases hr : readTarget (addr - s.base) n with
      | some r => exact .inr (.inl ⟨_, r, by omega, hr, rfl⟩)
      | none => exact .inr (.inr ⟨_, by omega, by omega, hr, rfl⟩)
    · cases h
  · exact .inl rfl

/-- Everything a write by the host can do: nothing, a command, an illegal word, a STATUS write, or an
illegal access (rules R52, R72, R73, R90, R97; log 3). -/
theorem hostWrite_cases {addr : Nat} {data : List Byte} {s t : State}
    (h : hostWrite addr data s = .next t) :
    t = s ∨
    (∃ i, addr = s.base ∧ decode s.nDesc data = .ok i ∧ exec i s = .next t) ∨
    (∃ r, addr = s.base ∧ data.length = 4 ∧ decode s.nDesc data = .error r ∧ t = illegalCommand s) ∨
    (addr = s.base + 8 ∧ data.length = 4 ∧ t = clearStatus (busWord data) s) ∨
    (∃ off, addr = s.base + off ∧ off < Config.regBytes ∧ writeTarget off data.length = none ∧
      t = flag .badAcc s) := by
  have target : ∀ off, off < Config.regBytes →
      (writeTarget off data.length = none) ∨
      (off = 0 ∧ data.length = 4 ∧ writeTarget off data.length = some .cmd) ∨
      (off = 8 ∧ data.length = 4 ∧ writeTarget off data.length = some .status) := by
    intro off _
    rw [writeTarget_eq]
    by_cases h4 : data.length = 4
    · rw [if_pos h4]
      by_cases h0 : off = 0
      · exact .inr (.inl ⟨h0, h4, by rw [if_pos h0]⟩)
      · by_cases h8 : off = 8
        · exact .inr (.inr ⟨h8, h4, by rw [if_neg h0, if_pos h8]⟩)
        · exact .inl (by rw [if_neg h0, if_neg h8])
    · exact .inl (if_neg h4)
  unfold hostWrite windowOffset at h
  split at h
  · rename_i off hw
    split at hw
    · rename_i hr
      cases hw
      unfold memWrite at h
      rcases target (addr - s.base) (by omega) with ht | ⟨ho, hl, ht⟩ | ⟨ho, hl, ht⟩
      · rw [ht] at h
        cases h
        exact .inr (.inr (.inr (.inr ⟨_, by omega, by omega, ht, rfl⟩)))
      · rw [ht] at h
        simp only [runCommand] at h
        split at h
        · rename_i i hd
          exact .inr (.inl ⟨i, by omega, hd, h⟩)
        · rename_i r hd
          cases h
          exact .inr (.inr (.inl ⟨r, by omega, hl, hd, rfl⟩))
      · rw [ht] at h
        cases h
        exact .inr (.inr (.inr (.inl ⟨by omega, hl, rfl⟩)))
    · cases hw
  · cases h; exact .inl rfl

/-! ## Urgency -/

theorem wakeEnabled_iff {s : State} :
    wakeEnabled s = true ↔ s.engine.st = .slotActive ∧ s.engine.waitCnt = 0 := by
  simp [wakeEnabled]

theorem endEnabled_iff {s : State} : endEnabled s = true ↔ s.engine.st = .ending := by
  simp [endEnabled]

theorem tickEnabled_iff {s : State} :
    tickEnabled s = true ↔
      ¬(s.engine.st = .slotActive ∧ s.engine.waitCnt = 0) ∧ s.engine.st ≠ .ending := by
  rw [tickEnabled, urgent, Bool.not_eq_true', Bool.or_eq_false_iff, ← Bool.not_eq_true,
    ← Bool.not_eq_true, wakeEnabled_iff, endEnabled_iff]

/-- The engine's turn (rules R160, R162; log 7). -/
theorem engineStep_cases (s : State) :
    (s.engine.st = .slotActive ∧ s.engine.waitCnt = 0 ∧ engineStep s = wake s) ∨
    (s.engine.st = .ending ∧ engineStep s = endSlot s) ∨
    (tickEnabled s = true ∧ engineStep s = s) := by
  unfold engineStep
  by_cases hw : wakeEnabled s = true
  · rw [if_pos hw]
    exact .inl ⟨(wakeEnabled_iff.1 hw).1, (wakeEnabled_iff.1 hw).2, rfl⟩
  · by_cases he : endEnabled s = true
    · rw [if_neg hw, if_pos he]
      exact .inr (.inl ⟨endEnabled_iff.1 he, rfl⟩)
    · rw [if_neg hw, if_neg he]
      refine .inr (.inr ⟨?_, rfl⟩)
      simp [tickEnabled, urgent, hw, he]

/-! ## One step -/

/-- Everything one step can do, by the turn it takes (00_scope.md rules R16 to R19; log 5, log 6): the
machine's own advance, a host access, a delivery, a Tick, an engine step, a reset. -/
theorem step_cases {s t : State} (h : step s = .next t) :
    (s.schedule = [] ∧ tickEnabled s = true ∧ t = tick s) ∨
    (s.schedule = [] ∧ tickEnabled s = false ∧ t = engineStep s) ∨
    ∃ u rest, s.schedule = u :: rest ∧
      ((∃ addr n, u = .hostRead addr n ∧ t = hostRead addr n { s with schedule := rest }) ∨
       (∃ addr data, u = .hostWrite addr data ∧
          hostWrite addr data { s with schedule := rest } = .next t) ∨
       (∃ code, u = .deliver code ∧ t = deliver code { s with schedule := rest }) ∨
       (u = .tick ∧ tickEnabled s = true ∧ t = tick { s with schedule := rest }) ∨
       (u = .tick ∧ tickEnabled s = false ∧ t = engineStep s) ∨
       (u = .engine ∧ t = engineStep { s with schedule := rest }) ∨
       (u = .reset ∧ t = resetStep { s with schedule := rest })) := by
  unfold step at h
  split at h
  · rename_i hs
    cases h
    unfold advance
    cases ht : tickEnabled s with
    | true => exact .inl ⟨hs, rfl, rfl⟩
    | false => exact .inr (.inl ⟨hs, rfl, rfl⟩)
  · rename_i u rest hs
    refine .inr (.inr ⟨u, rest, hs, ?_⟩)
    cases u with
    | hostRead addr n => cases h; exact .inl ⟨addr, n, rfl, rfl⟩
    | hostWrite addr data => exact .inr (.inl ⟨addr, data, rfl, h⟩)
    | deliver code => cases h; exact .inr (.inr (.inl ⟨code, rfl, rfl⟩))
    | tick =>
      have e : ({ s with schedule := .tick :: rest } : State) = s := by rw [← hs]
      have hen : tickEnabled { s with schedule := rest } = tickEnabled s := rfl
      simp only [takeTurn, hen, e] at h
      cases ht : tickEnabled s with
      | true =>
        simp only [ht] at h; cases h
        exact .inr (.inr (.inr (.inl ⟨rfl, rfl, rfl⟩)))
      | false =>
        simp only [ht] at h; cases h
        exact .inr (.inr (.inr (.inr (.inl ⟨rfl, rfl, rfl⟩))))
    | engine => cases h; exact .inr (.inr (.inr (.inr (.inr (.inl ⟨rfl, rfl⟩)))))
    | reset => cases h; exact .inr (.inr (.inr (.inr (.inr (.inr ⟨rfl, rfl⟩)))))

end Sys2Proof.Machine
end

