-- ==== Sys2Proof/Laws/Trace.lean ====
section
/-! SUPPORT. What the readers of a trace see of a trace that grows (00_scope.md rule R15; 20_memory.md
rule R81): each of them splits over an append, and the events a step added are what it appended. -/

namespace Sys2Proof.Machine

/-- The events a step added are those it appended. -/
theorem newEvents_eq {s t : State} {es : List Stamped} (h : t.trace = s.trace ++ es) :
    newEvents s t = es := by simp [newEvents, h]

theorem newEvents_of_trace_eq {s t : State} (h : t.trace = s.trace) : newEvents s t = [] := by
  simp [newEvents, h]

@[simp] theorem portTrace_append (p : Port) (a b : List Stamped) :
    portTrace p (a ++ b) = portTrace p a ++ portTrace p b := by simp [portTrace]

@[simp] theorem answersGiven_append (a b : List Stamped) :
    answersGiven (a ++ b) = answersGiven a + answersGiven b := by simp [answersGiven]

@[simp] theorem pinDrives_append (a b : List Stamped) :
    pinDrives (a ++ b) = pinDrives a ++ pinDrives b := by simp [pinDrives]

@[simp] theorem sessionEvents_append (a b : List Stamped) :
    sessionEvents (a ++ b) = sessionEvents a ++ sessionEvents b := by simp [sessionEvents]

@[simp] theorem requestEvents_append (a b : List Stamped) :
    requestEvents (a ++ b) = requestEvents a ++ requestEvents b := by simp [requestEvents]

/-! ## The 1-bit codes of levels and actions (30_encoding.md rules R100, R103) -/

@[simp] theorem level_code_eq_one (l : Level) : l.code = 1 ↔ l = .high := by cases l <;> decide

@[simp] theorem level_code_eq_zero (l : Level) : l.code = 0 ↔ l = .low := by cases l <;> decide

@[simp] theorem action_code_eq_one (a : Action) : a.code = 1 ↔ a = .endSlot := by cases a <;> decide

@[simp] theorem action_code_eq_zero (a : Action) : a.code = 0 ↔ a = .none := by cases a <;> decide

end Sys2Proof.Machine
end

