-- ==== Sys2Proof/Tests/Slice0.lean ====
section
/-! SUPPORT. Tests: the smoke test of WellFormed, words decoded, single steps against the vectors of
95_test_vectors.md (named `V<n>` there), and for every statement with hypotheses a state and operands
that meet all of them together. -/

namespace Sys2Proof.Tests

open Sys2Proof Sys2Proof.Machine

/-! ## States the tests start from -/

/-- Four descriptors, nothing attached. -/
def blank : State := State.initial 4 0

/-- One of four descriptors attached: d3 with pin 7 at entry 0, the state after V45 but for N_DESC. -/
def one : State :=
  { blank with
    desc := [Desc.constructed, Desc.constructed, Desc.constructed, ⟨0, 7, 1500⟩]
    registry := ⟨(Vector.replicate 10 0xFF).set 0 3, 1⟩
    gen := ⟨true, 10000⟩ }

/-- Two of four descriptors attached: d1 (pin 5, 600 µs) at entry 0, d2 (pin 7, 2400 µs) at entry 1. -/
def two : State :=
  { blank with
    desc := [Desc.constructed, ⟨0, 5, 600⟩, ⟨1, 7, 2400⟩, Desc.constructed]
    registry := ⟨((Vector.replicate 10 0xFF).set 0 1).set 1 2, 2⟩
    gen := ⟨true, 10000⟩ }

/-- d0, d1, d2 attached in that order with pins 1, 2, 3 and widths 1000, 1500, 2000: the registry of V70,
and of program P1 before its step 7. -/
def three : State :=
  { blank with
    desc := [⟨0, 1, 1000⟩, ⟨1, 2, 1500⟩, ⟨2, 3, 2000⟩, Desc.constructed]
    registry := ⟨(((Vector.replicate 10 0xFF).set 0 0).set 1 1).set 2 2, 3⟩
    gen := ⟨true, 10000⟩ }

/-- The full registry of program P2 after its step 10: d0 to d9 attached in order, d10 not. -/
def full : State :=
  { State.initial 11 0 with
    desc := ((List.range 10).map fun k => ⟨BitVec.ofNat 8 k, BitVec.ofNat 8 (20 + k), 1500⟩) ++
      [Desc.constructed]
    registry := ⟨Vector.ofFn fun k : Fin 10 => BitVec.ofNat 8 k.val, 10⟩
    gen := ⟨true, 10000⟩ }

/-- The engine of V70 in a train: pins 1, 2, 3 of widths 1000, 1500, 2000. -/
def trainEngine (st : EngState) (lowered : BitVec 10) (curT waitCnt : Half) : Engine :=
  { st := st
    snap := (((Vector.replicate 10 ⟨0, 0⟩).set 0 ⟨1, 1000⟩).set 1 ⟨2, 1500⟩).set 2 ⟨3, 2000⟩
    snapN := 3, lowered := lowered, curT := curT, waitCnt := waitCnt }

/-- V70's train when its first wait is over, at @51000. -/
def waking : State := { three with now := 51000, engine := trainEngine .slotActive 0 1000 0 }

/-- V70's train at @51200: pin 1 is LOW, pins 2 and 3 are HIGH. -/
def midTrain : State := { three with now := 51200, engine := trainEngine .slotActive 1 1500 300 }

/-- V70's train before its last Wake, at @52000. -/
def lastWake : State := { three with now := 52000, engine := trainEngine .slotActive 3 2000 0 }

/-- V70's train between its last Wake and End, at @52000. -/
def ending : State := { three with now := 52000, engine := trainEngine .ending 7 2000 0 }

/-- The state with these turns to come. -/
def withTurns (ts : List Turn) (s : State) : State := { s with schedule := ts }

/-- A CMD write of the word. -/
def cmd (w : Word) : Turn := .hostWrite 0 (lanesOfWord w)

/-- What a step answered, seen through `f`. -/
def see {α : Type} (f : State → α) : Host.Outcome State Fault Refusal → Option α
  | .next t => some (f t)
  | .fault _ => none
  | .refused _ => none

/-- One step on turn `t`, seen through `f`. -/
def after {α : Type} (t : Turn) (s : State) (f : State → α) : Option α := see f (step (withTurns [t] s))

/-- The registers of rule R51 as a read shows them. -/
def reg (off : Nat) (s : State) : Nat := ((Reg.ofOffset off).map fun r => (r.value s).toNat).getD 0

/-- The events of a trace without their times. -/
def events (s : State) : List PortEvent := s.trace.map Stamped.event

/-! ## WellFormed (rule R92) -/

theorem test_wellFormed_refuses_each_command_with_d_out_of_range :
    ([.attach 16 0, .detach 16, .write 16 0, .writeUs 16 0, .read 16, .readUs 16, .attached 16,
      .index 16, .pin 16, .release 16] : List Instr).all (fun i => !i.wellFormed 16) = true := by decide

theorem test_wellFormed_accepts_the_last_descriptor :
    Instr.wellFormed 16 (.attach 15 255) = true ∧ Instr.wellFormed 1 .nop = true := by decide

/-! ## Words written out from the encoding (rules R91 to R94) -/

theorem test_decode_nop : decodeWord 16 0b00000000000000000000000000000000 = .ok .nop := by decide
theorem test_decode_attach : decodeWord 16 0b00000001000000110000000000000111 = .ok (.attach 3 7) := by
  decide
theorem test_decode_detach : decodeWord 16 0b00000010000001000000000000000000 = .ok (.detach 4) := by
  decide
theorem test_decode_write : decodeWord 16 0b00000011000000001111111101001100 = .ok (.write 0 (-180)) := by
  decide
theorem test_decode_writeUs : decodeWord 16 0b00000100000000100000001111101000 = .ok (.writeUs 2 1000) := by
  decide
theorem test_decode_read : decodeWord 16 0b00000101000000000000000000000000 = .ok (.read 0) := by decide
theorem test_decode_readUs : decodeWord 16 0b00000110000000100000000000000000 = .ok (.readUs 2) := by
  decide
theorem test_decode_attached : decodeWord 11 0b00000111000010100000000000000000 = .ok (.attached 10) := by
  decide
theorem test_decode_index : decodeWord 16 0b00001000000010010000000000000000 = .ok (.index 9) := by decide
theorem test_decode_pin : decodeWord 16 0b00001001000000110000000000000000 = .ok (.pin 3) := by decide
theorem test_decode_release : decodeWord 16 0b00001010000001010000000000000000 = .ok (.release 5) := by
  decide

/-- V91 to V94, V96 to V100 and V102. -/
theorem test_illegal_words :
    decodeWord 16 0x00000001 = .error .mustBeZero ∧ decodeWord 16 0x00010000 = .error .mustBeZero ∧
    decodeWord 16 0x01000105 = .error .mustBeZero ∧ decodeWord 16 0x01100005 = .error .descriptorRange ∧
    decodeWord 16 0x02000001 = .error .mustBeZero ∧ decodeWord 16 0x05008000 = .error .mustBeZero ∧
    decodeWord 16 0x0B000000 = .error .reservedOpcode ∧
    decodeWord 16 0xFF000000 = .error .reservedOpcode ∧
    decodeWord 16 0x03FF0000 = .error .descriptorRange ∧
    decodeWord 11 0x070B0000 = .error .descriptorRange := by decide

theorem test_encode_lanes : encode (.attach 3 7) = [0x07, 0x00, 0x03, 0x01] := by decide

theorem test_decode_table_word :
    decodeTableWord 32 0x01030007 = some (.attach 3 7) ∧ decodeTableWord 32 0x0B000000 = none := by decide

/-! ## One command each -/

/-- V44. -/
theorem test_nop : after (cmd 0x00000000) { blank with result := 5 } State.result = some 0 := by decide

/-- V45. -/
theorem test_attach_first :
    after (cmd 0x01030007) blank (fun t => (reg 0x0C t, reg 0x40 t, reg 0x04 t, t.desc? 3, events t)) =
      some (0x27100101, 3, 0, some ⟨0, 7, 1500⟩,
        [.configure 7, .openSession, .request ⟨0, 2500, 0, 100000⟩]) := by decide

/-- Program P2, step 11, and V46. -/
theorem test_attach_full_and_attached :
    after (cmd 0x010A001E) full (fun t => (reg 0x04 t, t.count, events t)) = some (0xFF, 10, []) ∧
    after (cmd 0x01030009) one (fun t => (reg 0x04 t, t.desc? 3, events t)) =
      some (0, some ⟨0, 7, 1500⟩, []) := by decide

/-- Program P1, step 7 and its end state. -/
theorem test_detach_compacts :
    after (cmd 0x02010000) three (fun t => (t.attachedIds, t.desc, reg 0x48 t, reg 0x0C t)) =
      some ([0, 2], [⟨0, 1, 1000⟩, ⟨0xFF, 2, 1500⟩, ⟨1, 3, 2000⟩, Desc.constructed], 0xFF,
        0x27100201) := by decide

/-- V51. -/
theorem test_detach_last :
    after (cmd 0x02030000) one (fun t => (reg 0x0C t, reg 0x40 t, t.desc? 3, events t)) =
      some (0, 0xFF, some ⟨0xFF, 7, 1500⟩, [.closeSession]) := by decide

/-- V4, V12, V14a. -/
theorem test_write :
    after (cmd 0x0300002C) blank (fun t => ((t.desc? 0).map Desc.width, t.result)) =
      some (some 997, 0) ∧
    after (cmd 0x0300FF4C) blank (fun t => (t.desc? 0).map Desc.width) = some (some 544) ∧
    after (cmd 0x03007FFF) blank (fun t => (t.desc? 0).map Desc.width) = some (some 2400) := by decide

/-- V20, V25, V27. -/
theorem test_writeUs :
    after (cmd 0x04008000) blank (fun t => (t.desc? 0).map Desc.width) = some (some 544) ∧
    after (cmd 0x04000221) blank (fun t => (t.desc? 0).map Desc.width) = some (some 545) ∧
    after (cmd 0x04000961) blank (fun t => (t.desc? 0).map Desc.width) = some (some 2400) := by decide

/-- V30 to V43, the angle that READ reports for each width. -/
theorem test_read_map :
    (([544, 553, 554, 563, 564, 1000, 1471, 1472, 1500, 2000, 2389, 2390, 2399, 2400] : List Half).map
      widthToAngle) = [0, 0, 1, 1, 2, 44, 90, 90, 92, 141, 179, 179, 180, 180] := by decide

/-- V38. -/
theorem test_read_and_readUs :
    after (cmd 0x05000000) blank State.result = some 92 ∧
    after (cmd 0x06000000) blank State.result = some 1500 := by decide

/-- V47. -/
theorem test_attached :
    after (cmd 0x07030000) one State.result = some 1 ∧
    after (cmd 0x07020000) one State.result = some 0 := by decide

/-- V48. -/
theorem test_index :
    after (cmd 0x08030000) one State.result = some 0 ∧
    after (cmd 0x08020000) one State.result = some 0xFF := by decide

/-- V49. -/
theorem test_pin :
    after (cmd 0x09030000) one State.result = some 7 ∧
    after (cmd 0x09020000) one State.result = some 0 := by decide

/-- V54's last command: the attached descriptor is detached and constructed afresh. -/
theorem test_release :
    after (cmd 0x0A030000) one (fun t => (t.desc? 3, t.count, t.gen, events t, t.result)) =
      some (some ⟨0xFF, 0, 1500⟩, 0, ⟨false, 0⟩, [.closeSession], 0) := by decide

/-- V98. -/
theorem test_illegal_word_runs_nothing :
    after (cmd 0x0B000000) one (fun t => (t.status, t.result, t.desc, events t)) =
      some (1, 0xFFFFFFFF, one.desc, []) := by decide

/-! ## Register accesses -/

/-- V111, V113, V114. -/
theorem test_cfg :
    reg 0x10 State.reset = 0x0100100A ∧ reg 0x10 (State.initial 1 0) = 0x0100010A ∧
    reg 0x10 (State.initial 11 0) = 0x01000B0A := by decide

/-- V112. -/
theorem test_cfg_largest : (Reg.value (State.initial 256 0) .cfg).toNat = 0x0101000A := by
  have h : (State.initial 256 0).nDesc = 256 := List.length_replicate
  rw [Reg.value, cfgValue, h]
  decide

/-- V111 and V119 to V121, V127: the bytes the bus returns and STATUS. -/
theorem test_reads :
    after (.hostRead 0x10 4) (State.initial 16 0) (fun t => (t.readData, t.status)) =
      some ([0x0A, 0x10, 0x00, 0x01], 0) ∧
    after (.hostRead 0x00 4) blank (fun t => (t.readData, t.status)) = some ([0, 0, 0, 0], 2) ∧
    after (.hostRead 0x10 1) blank (fun t => (t.readData, t.status)) = some ([0], 2) ∧
    after (.hostRead 0x10 2) blank (fun t => (t.readData, t.status)) = some ([0, 0], 2) ∧
    after (.hostRead 0xFC 4) blank (fun t => (t.readData, t.status)) = some ([0, 0, 0, 0], 2) := by
  decide

/-- V128 to V135 but V129. -/
theorem test_writes :
    after (.hostWrite 0x04 [1, 0, 0, 0]) { blank with status := 0xC } (fun t => (t.result, t.status)) =
      some (0, 0xE) ∧
    after (.hostWrite 0x08 [4, 0, 0, 0]) { blank with status := 0xC } State.status = some 0x8 ∧
    after (.hostWrite 0x08 [0xF0, 0xFF, 0xFF, 0xFF]) { blank with status := 0xC } State.status =
      some 0xC ∧
    after (.hostWrite 0x08 [0xF, 0, 0, 0]) { blank with status := 0xC } State.status = some 0 ∧
    after (.hostWrite 0x00 [0, 0]) { blank with status := 0xC } State.status = some 0xE ∧
    after (.hostWrite 0x02 [0, 0, 0, 7]) { blank with status := 0xC } State.status = some 0xE ∧
    after (.hostWrite 0x08 [0, 0, 0, 0]) { blank with status := 3 } State.status = some 3 := by decide

/-! ## Generator and pulse engine -/

/-- V61: the Tick that requests reloads the trigger. -/
theorem test_tick_requests :
    after .tick { one with now := 10099, gen := ⟨true, 1⟩ } (fun t => (reg 0x0C t, t.trace)) =
      some (0x27100101, [⟨10100, .request ⟨0, 2500, 0, 100000⟩⟩]) := by decide

/-- V70's slot start. -/
theorem test_slot_start :
    after (.deliver 0x00) three (fun t => (reg 0x14 t, t.engine.st, t.engine.snapN, reg 0x80 t)) =
      some (0x03E803E8, .slotActive, 3, 0x000103E8) ∧
    after (.deliver 0x00) three events =
      some [.set 1 .high, .set 2 .high, .set 3 .high] := by decide

/-- V71: no channel, so the slot is ending at once and no pin is driven. -/
theorem test_slot_start_without_channels :
    after (.deliver 0x00) blank (fun t => (t.engine.st, t.engine.snapN, events t)) =
      some (.ending, 0, []) := by decide

/-- V70's Wakes at @51000 and @52000, and its End. -/
theorem test_wake_and_end :
    after .engine waking (fun t => (reg 0x14 t, reg 0x18 t, t.trace)) =
      some (0x01F405DC, 1, [⟨51000, .set 1 .low⟩]) ∧
    after .engine lastWake (fun t => (t.engine.st, reg 0x18 t, t.trace)) =
      some (.ending, 7, [⟨52000, .set 3 .low⟩]) ∧
    after .engine ending (fun t => (t.engine.st, t.trace)) =
      some (.idle, [⟨52000, .answer 0x00 .endSlot⟩]) := by decide

/-- V76 and V77. -/
theorem test_overlap_and_overrun :
    after (.deliver 0x00) midTrain (fun t => (t.engine, t.status, events t)) =
      some (midTrain.engine, 8, [.answer 0x00 .none]) ∧
    after (.deliver 0x01) midTrain (fun t => (t.engine.st, reg 0x14 t, reg 0x18 t, t.status)) =
      some (.idle, 0x012C05DC, 1, 4) ∧
    after (.deliver 0x01) midTrain events = some [.answer 0x00 .endSlot, .answer 0x01 .endSlot] := by
  decide

/-- V78 and V79: a timer expiry outside a train sets no bit. -/
theorem test_timer_expiry_outside_a_train :
    after (.deliver 0x01) blank (fun t => (t.status, events t)) = some (0, [.answer 0x01 .endSlot]) ∧
    after (.deliver 0x01) ending (fun t => (t.status, t.engine.st, events t)) =
      some (0, .ending, [.answer 0x01 .endSlot]) := by decide

/-- V75: RADIO and OTHER. -/
theorem test_radio_and_other :
    after (.deliver 0x02) midTrain (fun t => (t.engine, events t)) =
      some (midTrain.engine, [.answer 0x02 .none]) ∧
    after (.deliver 0x7F) midTrain events = some [.answer 0x7F .none] := by decide

/-- The bit an event puts on the action port or the pin port, if it carries one. -/
def portBit (e : PortEvent) : Option (BitVec 1) :=
  match e with
  | .answer _ a => some a.code
  | .set _ l => some l.code
  | .configure _ => none
  | .openSession => none
  | .closeSession => none
  | .request _ => none

/-- Rules R100 and R103: the answers of V77 carry 1, that of V75 carries 0; a rise carries 1, a fall 0. -/
theorem test_port_bits :
    after (.deliver 0x01) midTrain (fun t => (events t).map portBit) = some [some 1, some 1] ∧
    after (.deliver 0x02) midTrain (fun t => (events t).map portBit) = some [some 0] ∧
    after (.deliver 0x00) one (fun t => (events t).map portBit) = some [some 1] ∧
    after .engine waking (fun t => (events t).map portBit) = some [some 0] := by decide

/-- V80 to V83. -/
theorem test_train_function :
    train [] = [] ∧ train [⟨4, 544⟩] = [⟨0, 4, .high⟩, ⟨544, 4, .low⟩] ∧
    train [⟨1, 2000⟩, ⟨2, 1000⟩, ⟨3, 2000⟩] =
      [⟨0, 1, .high⟩, ⟨0, 2, .high⟩, ⟨0, 3, .high⟩, ⟨1000, 2, .low⟩, ⟨2000, 1, .low⟩,
        ⟨2000, 3, .low⟩] ∧
    train [⟨5, 1500⟩, ⟨5, 900⟩] =
      [⟨0, 5, .high⟩, ⟨0, 5, .high⟩, ⟨900, 5, .low⟩, ⟨1500, 5, .low⟩] := by decide

/-- V140. -/
theorem test_reset_during_a_train :
    after .reset midTrain (fun t => (reg 0x0C t, reg 0x08 t, t.attachedIds, t.now, events t)) =
      some (0, 0, [], 51200, []) := by decide

/-! ## Assembler (rules R105, R106; program P3) -/

theorem test_assemble_text :
    assembleText 16 "servo d0, 4, 1000 ; set and attach".toList =
      some [.command 0x040003E8, .command 0x01000004] ∧
    assembleText 16 "write d0, -180".toList = some [.command 0x0300FF4C] ∧
    assembleText 16 "clear_status".toList = some [.statusWrite 0xF] ∧
    assembleText 16 "attach d16, 5".toList = none := by decide

/-- The examples of rule R105. -/
theorem test_assemble_examples :
    assembleText 16 "write_us d2, 1000".toList = some [.command 0x040203E8] ∧
    assembleText 16 "write d1, -1".toList = some [.command 0x0301FFFF] ∧
    assembleText 16 "attach d0, 5".toList = some [.command 0x01000005] := by decide

/-! ## Witnesses: the hypotheses of each statement are met together

A witness is named after its statement; a statement without hypotheses needs none. -/

theorem inv_blank : blank.Inv := checkInv_sound (by decide) (by decide)
theorem inv_one : one.Inv := checkInv_sound (by decide) (by decide)
theorem inv_two : two.Inv := checkInv_sound (by decide) (by decide)
theorem inv_three : three.Inv := checkInv_sound (by decide) (by decide)
theorem inv_full : full.Inv := checkInv_sound (by decide) (by decide)
theorem inv_waking : waking.Inv := checkInv_sound (by decide) (by decide)
theorem inv_midTrain : midTrain.Inv := checkInv_sound (by decide) (by decide)
theorem inv_lastWake : lastWake.Inv := checkInv_sound (by decide) (by decide)
theorem inv_ending : ending.Inv := checkInv_sound (by decide) (by decide)

/-- The turns to come are no part of the invariant. -/
theorem inv_withTurns {s : State} (h : s.Inv) (ts : List Turn) : (withTurns ts s).Inv :=
  ⟨h.size, h.widths, h.indices, h.contiguous, h.membership, h.gen, h.train, h.engine, h.status, h.trace⟩

/-- One step, as a state (the state itself if it stopped, which no step does). -/
def stepped (s : State) : State := (see id (step s)).getD s

theorem witness_DecodeAndEncodeAreInverse :
    (Instr.wellFormed 1 (.attach 0 255) = true ∧ Instr.wellFormed 256 (.write 255 0x8000) = true) ∧
    decode 256 [0xFF, 0x00, 0xFF, 0x01] = .ok (.attach 255 255) := by decide

theorem witness_LegalWordsAreTheTablesWords :
    (∃ r ∈ opcodeTable, r.fits 1 0x0300FFFF = true) ∧ (∃ r ∈ opcodeTable, r.fits 1 0 = true) := by decide

theorem witness_ByteLanesAreLittleEndian :
    (readTarget 0x04 4 = some .result ∧ 0 < 4) ∧ (readTarget 0xA4 4 = some (.snap 9) ∧ 3 < 4) := by decide

theorem witness_StepRunsTheDecodedCommand :
    (withTurns [.hostWrite 0 [0x07, 0, 3, 1], .tick] blank).schedule =
        .hostWrite blank.base [0x07, 0, 3, 1] :: [.tick] ∧
      decode blank.nDesc [0x07, 0, 3, 1] = .ok (.attach 3 7) := by decide

theorem witness_PlacedWordRunsNext :
    decodeWord State.reset.nDesc (BitVec.ofNat 32 0x01030007) = .ok (.attach 3 7) := by decide

theorem witness_OnlyTickAdvancesTime :
    step blank = .next (stepped blank) ∧ (stepped blank).now = blank.now + 1 ∧
    step (withTurns [.reset] blank) = .next (stepped (withTurns [.reset] blank)) ∧
    (stepped (withTurns [.reset] blank)).now = blank.now := ⟨rfl, rfl, rfl, rfl⟩

theorem witness_TraceOnlyGrowsWithStampedEvents :
    step (withTurns [cmd 0x01030007] blank) = .next (stepped (withTurns [cmd 0x01030007] blank)) := rfl

theorem witness_ParametersNeverChange :
    step (withTurns [.reset] two) = .next (stepped (withTurns [.reset] two)) := rfl

/-- A reserved offset, a short width, a read-only register, an empty write, the last byte of the window. -/
theorem witness_IllegalAccessOnlyFlags :
    (0x1C < 256 ∧ (withTurns [.hostRead 0x1C 4] blank).schedule = .hostRead (blank.base + 0x1C) 4 :: [] ∧
      readTarget 0x1C 4 = none) ∧
    (0xFF < 256 ∧ (withTurns [.hostRead 0xFF 1] blank).schedule = .hostRead (blank.base + 0xFF) 1 :: [] ∧
      readTarget 0xFF 1 = none) ∧
    ((withTurns [.hostWrite 0x04 [1, 0, 0, 0]] blank).schedule =
        .hostWrite (blank.base + 0x04) [1, 0, 0, 0] :: [] ∧
      writeTarget 0x04 ([1, 0, 0, 0] : List Byte).length = none) ∧
    ((withTurns [.hostWrite 0 []] blank).schedule = .hostWrite (blank.base + 0) [] :: [] ∧
      writeTarget 0x00 ([] : List Byte).length = none) := by decide

theorem witness_StatusWriteClearsBits :
    (withTurns [.hostWrite 0x08 [4, 0, 0, 0]] { blank with status := 0xC }).schedule =
      .hostWrite (blank.base + 0x08) [4, 0, 0, 0] :: [] := by decide

theorem witness_LegalReadHasNoSideEffect :
    0xA4 < 256 ∧ readTarget 0xA4 4 = some (.snap 9) ∧
    (withTurns [.hostRead 0xA4 4] midTrain).schedule = .hostRead (midTrain.base + 0xA4) 4 :: [] := by
  decide

theorem witness_RegisterMapShowsTheState : blank.nDesc ≤ 256 ∧ 1 ≤ 256 ∧ 256 ≤ 256 := by decide

theorem witness_AccessOutsideWindowDoesNothing :
    (State.initial 1 0x100).base = 0x100 ∧ 0xFF < 0x100 ∧ 0x100 + 256 ≤ 0x200 ∧
    (withTurns [.hostRead 0xFF 4] (State.initial 1 0x100)).schedule = .hostRead 0xFF 4 :: [] ∧
    (withTurns [.hostWrite 0x200 [1]] (State.initial 1 0x100)).schedule = .hostWrite 0x200 [1] :: [] := by
  decide

/-- Each clause: a bit cleared, and each of the four bits set. -/
theorem witness_StatusBitsAreStickyAndCaused :
    (∃ s : State, s.Inv ∧ step s = .next (stepped s) ∧ s.status.getLsbD 3 = true ∧
      (stepped s).status.getLsbD 3 = false) ∧
    (∃ s : State, s.Inv ∧ step s = .next (stepped s) ∧ s.status.getLsbD 0 = false ∧
      (stepped s).status.getLsbD 0 = true) ∧
    (∃ s : State, s.Inv ∧ step s = .next (stepped s) ∧ s.status.getLsbD 1 = false ∧
      (stepped s).status.getLsbD 1 = true) ∧
    (∃ s : State, s.Inv ∧ step s = .next (stepped s) ∧ s.status.getLsbD 2 = false ∧
      (stepped s).status.getLsbD 2 = true) ∧
    (∃ s : State, s.Inv ∧ step s = .next (stepped s) ∧ s.status.getLsbD 3 = false ∧
      (stepped s).status.getLsbD 3 = true) :=
  ⟨⟨withTurns [.hostWrite 8 [8, 0, 0, 0]] { blank with status := 0xC },
      checkInv_sound (by decide) (by decide), rfl, by decide, by decide⟩,
   ⟨withTurns [cmd 0x0B000000] blank, inv_withTurns inv_blank _, rfl, by decide, by decide⟩,
   ⟨withTurns [.hostRead 0 4] blank, inv_withTurns inv_blank _, rfl, by decide, by decide⟩,
   ⟨withTurns [.deliver 0x01] midTrain, inv_withTurns inv_midTrain _, rfl, by decide, by decide⟩,
   ⟨withTurns [.deliver 0x00] ending, inv_withTurns inv_ending _, rfl, by decide, by decide⟩⟩

theorem witness_OneStatusConditionPerStep :
    let s := withTurns [.deliver 0x00] midTrain
    step s = .next (stepped s) ∧ s.status.getLsbD StatusBit.overlap.pos = false ∧
      (stepped s).status.getLsbD StatusBit.overlap.pos = true := ⟨rfl, by decide, by decide⟩

theorem witness_StatusChangesNoBehaviour :
    step (withTurns [.hostRead 8 4] blank) = .next (stepped (withTurns [.hostRead 8 4] blank)) := rfl

theorem witness_LegalCommandsCompleteAndKeepStatus :
    Instr.wellFormed blank.nDesc (.release 3) = true ∧ Instr.wellFormed blank.nDesc .nop = true := by
  decide

theorem witness_IllegalWordSetsBadCmd :
    (withTurns [.hostWrite 0 [0, 0, 0, 0x0B]] blank).schedule =
        .hostWrite blank.base [0, 0, 0, 0x0B] :: [] ∧
      ([0, 0, 0, 0x0B] : List Byte).length = 4 ∧
      decode blank.nDesc [0, 0, 0, 0x0B] = .error .reservedOpcode := by decide

theorem witness_NopOnlyClearsResult : opField 0x00000001 = 0x00 ∧ (0x00000001 : Word) ≠ 0 := by decide

/-- Attached already, registry full, registry with one free entry, registry empty. -/
theorem witness_AttachFollowsItsThreeBranches :
    (one.desc? 3 = some ⟨0, 7, 1500⟩ ∧ one.count ≤ 10 ∧ (0 : Byte) ≠ 0xFF) ∧
    (full.desc? 10 = some Desc.constructed ∧ full.count = 10 ∧ Desc.constructed.index = 0xFF) ∧
    (one.desc? 0 = some Desc.constructed ∧ 0 < one.count ∧ one.count < 10) ∧
    (blank.desc? 3 = some Desc.constructed ∧ blank.count = 0) := by decide

/-- Detached, the first and the last of several attached, the only one attached. -/
theorem witness_DetachCompactsTheRegistry :
    (two.Inv ∧ two.desc? 3 = some Desc.constructed ∧ Desc.constructed.index = 0xFF) ∧
    (full.Inv ∧ full.desc? 0 = some ⟨0, 20, 1500⟩ ∧ full.desc? 9 = some ⟨9, 29, 1500⟩ ∧
      1 < full.count ∧ full.desc? 10 = some Desc.constructed) ∧
    (one.Inv ∧ one.desc? 3 = some ⟨0, 7, 1500⟩ ∧ one.count = 1 ∧ (0 : Byte) ≠ 3 ∧
      one.desc? 0 = some Desc.constructed) :=
  ⟨⟨inv_two, by decide⟩, ⟨inv_full, by decide⟩, ⟨inv_one, by decide⟩⟩

theorem witness_ReleaseDetachesAndConstructs :
    one.desc? 3 = some ⟨0, 7, 1500⟩ ∧ one.desc? 0 = some Desc.constructed := by decide

theorem witness_RegistryKeepsAttachOrder :
    full.Inv ∧ see State.attachedIds (exec (.detach 5) full) =
      some [0, 1, 2, 3, 4, 6, 7, 8, 9] := ⟨inv_full, by decide⟩

theorem witness_WriteStoresTheClampedMap : one.desc? 3 = some ⟨0, 7, 1500⟩ := by decide

theorem witness_WriteMapLaws : (0x8000 : Half).toInt ≤ (0x7FFF : Half).toInt := by decide

theorem witness_WriteUsStoresTheClampedValue : blank.desc? 0 = some Desc.constructed := by decide

theorem witness_ReadReportsTheAngle :
    (two.desc? 2 = some ⟨1, 7, 2400⟩ ∧ 544 ≤ (2400 : Half).toNat ∧ (2400 : Half).toNat ≤ 2400) ∧
    (({ blank with desc := [⟨0xFF, 0, 544⟩] } : State).desc? 0 = some ⟨0xFF, 0, 544⟩ ∧
      544 ≤ (544 : Half).toNat ∧ (544 : Half).toNat ≤ 2400) := by decide

theorem witness_ReadReturnsTheWrittenAngle :
    (blank.desc? 3 = some Desc.constructed ∧ 0 ≤ (180 : Half).toInt ∧ (180 : Half).toInt ≤ 180 ∧
      0 ≤ (0 : Half).toInt) ∧
    (one.desc? 3).map Desc.width = ((stepped (withTurns [cmd 0x01030007] blank)).desc? 3).map Desc.width ∧
    544 ≤ (544 : Half).toNat ∧ (2400 : Half).toNat ≤ 2400 := by decide

theorem witness_QueriesReportTheFields :
    one.desc? 3 = some ⟨0, 7, 1500⟩ ∧ one.desc? 0 = some Desc.constructed := by decide

theorem witness_QueriesChangeOnlyResult :
    (3 : Byte).toNat < one.nDesc ∧
    Instr.pin 3 ∈ [Instr.read 3, .readUs 3, .attached 3, .index 3, .pin 3] ∧
    exec (.read 3) one = .next { one with result := 92 } := ⟨by decide, by decide, rfl⟩

theorem witness_RegistryCommandsFrame :
    (3 : Byte).toNat < one.nDesc ∧
    Instr.release 3 ∈ [Instr.attach 3 9, .detach 3, .release 3] ∧
    (∃ t, exec (.attach 3 9) one = .next t) ∧ (∃ t, exec (.detach 3) one = .next t) ∧
    ∃ t, exec (.release 3) one = .next t := ⟨by decide, by decide, ⟨_, rfl⟩, ⟨_, rfl⟩, ⟨_, rfl⟩⟩

theorem witness_NoCommandDrivesAPin : ∃ t, exec (.attach 0 9) midTrain = .next t := ⟨_, rfl⟩

theorem witness_CommandsLeaveTheTrainAlone : ∃ t, exec (.writeUs 0 2400) waking = .next t := ⟨_, rfl⟩

/-- Stopped, counting, at the last count, and in a train. -/
theorem witness_TickCountsTimeTriggerAndWait :
    (blank.engine.st = .idle ∧ blank.gen.run = false ∧
      (withTurns [.tick] blank).schedule = .tick :: []) ∧
    ((withTurns [.tick] one).engine.st = .idle ∧ one.gen.run = true ∧ 2 ≤ one.gen.trigCnt.toNat) ∧
    (({ one with gen := ⟨true, 1⟩ } : State).gen.trigCnt.toNat = 1 ∧
      ({ one with gen := ⟨true, 1⟩ } : State).gen.run = true ∧
      ({ one with gen := ⟨true, 2⟩ } : State).gen.trigCnt.toNat = 2) ∧
    (midTrain.engine.st = .slotActive ∧
      ¬(midTrain.engine.st = .slotActive ∧ midTrain.engine.waitCnt = 0) ∧
      midTrain.engine.st ≠ .ending) := by decide

/-- Ticks from a fresh start; a step without a request; a request during a train. -/
theorem witness_RequestsComeEveryRefreshInterval :
    ((withTurns (List.replicate 3 .tick ++ [.reset]) one).schedule =
        List.replicate 3 .tick ++ [.reset] ∧
      one.engine.st = .idle ∧ one.gen = ⟨true, 10000⟩) ∧
    (∃ s : State, s.Inv ∧ step s = .next (stepped s) ∧ s.gen.run = true ∧
      (stepped s).gen.run = true ∧ requestEvents (newEvents s (stepped s)) = []) ∧
    (∃ s : State, s.Inv ∧ step s = .next (stepped s) ∧ s.gen.run = true ∧
      (stepped s).gen.run = true ∧ s.engine.st = .slotActive ∧
      requestEvents (newEvents s (stepped s)) = [⟨51201, .request ⟨0, 2500, 0, 100000⟩⟩]) :=
  ⟨by decide,
   ⟨withTurns [cmd 0x02010000] three, inv_withTurns inv_three _, rfl, by decide, by decide, by decide⟩,
   ⟨withTurns [.tick] { midTrain with gen := ⟨true, 1⟩ }, checkInv_sound (by decide) (by decide), rfl,
     by decide, by decide, by decide, by decide⟩⟩

/-- A start, a stop, and neither. -/
theorem witness_SessionEventsFollowTheGenerator :
    (blank.Inv ∧ blank.gen.run = false ∧
      (stepped (withTurns [cmd 0x01030007] blank)).gen.run = true) ∧
    (one.Inv ∧ one.gen.run = true ∧ (stepped (withTurns [cmd 0x02030000] one)).gen.run = false) ∧
    step (withTurns [.deliver 0x02] two) = .next (stepped (withTurns [.deliver 0x02] two)) ∧
    ∀ rest, (withTurns [.deliver 0x02] two).schedule ≠ .reset :: rest :=
  ⟨⟨inv_blank, by decide⟩, ⟨inv_one, by decide⟩, rfl, fun _ h => by cases h⟩

theorem witness_StoppedAndIdleOnlyTimePasses :
    (withTurns (List.replicate 2 .tick ++ []) blank).schedule = List.replicate 2 .tick ++ [] ∧
    blank.gen.run = false ∧ blank.engine.st = .idle ∧
    (withTurns [.engine] blank).schedule = .engine :: [] := by decide

/-- An empty and a nonempty registry. -/
theorem witness_SlotStartSnapshotsAndRises :
    ((withTurns [.deliver 0x00] blank).Inv ∧ blank.engine.st = .idle ∧ blank.count = 0) ∧
    ((withTurns [.deliver 0x00] full).Inv ∧ full.engine.st = .idle ∧ 0 < full.count ∧
      (withTurns [.deliver 0x00] full).schedule = .deliver 0x00 :: []) :=
  ⟨⟨inv_withTurns inv_blank _, by decide⟩, ⟨inv_withTurns inv_full _, by decide⟩⟩

theorem witness_SlotStartDuringTrainIsAnsweredNone :
    (withTurns [.deliver 0x00] midTrain).schedule = .deliver 0x00 :: [] ∧
    midTrain.engine.st ≠ .idle ∧ ending.engine.st ≠ .idle := by decide

/-- A Wake after which entries remain, and the last one of a train. -/
theorem witness_WakeLowersTheDuePins :
    ((withTurns [.engine] waking).Inv ∧ waking.engine.st = .slotActive ∧ waking.engine.waitCnt = 0 ∧
      waking.engine.snapN.toNat ≤ 3 ∧ (∃ k, k < waking.engine.snapN.toNat ∧
        (stepped (withTurns [.engine] waking)).engine.lowered.getLsbD k = false)) ∧
    ((withTurns [.engine] lastWake).Inv ∧ lastWake.engine.st = .slotActive ∧
      lastWake.engine.waitCnt = 0 ∧
      (∀ k, k < lastWake.engine.snapN.toNat →
        (stepped (withTurns [.engine] lastWake)).engine.lowered.getLsbD k = true)) :=
  ⟨⟨inv_withTurns inv_waking _, by decide, by decide, by decide, 1, by decide, by decide⟩,
   ⟨inv_withTurns inv_lastWake _, by decide, by decide, by decide⟩⟩

theorem witness_EndAnswersTheSlot :
    (withTurns [.engine] ending).schedule = .engine :: [] ∧ ending.engine.st = .ending := by decide

theorem witness_TimerExpiryAbortsTheTrain :
    (withTurns [.deliver 0x01] midTrain).schedule = .deliver 0x01 :: [] ∧
    midTrain.engine.st = .slotActive ∧ ending.engine.st ≠ .slotActive ∧
    blank.engine.st ≠ .slotActive := by decide

theorem witness_OtherEventsAreAnsweredNone :
    (withTurns [.deliver 0x02] blank).schedule = .deliver 0x02 :: [] ∧
    (0x02 : Byte) ≠ 0x00 ∧ (0x02 : Byte) ≠ 0x01 ∧ (0xFF : Byte) ≠ 0x00 ∧ (0xFF : Byte) ≠ 0x01 := by
  decide

theorem witness_EveryEventIsAnsweredOnce :
    (step (withTurns [.deliver 0x00] three) = .next (stepped (withTurns [.deliver 0x00] three)) ∧
      ∃ code rest, (withTurns [.deliver 0x00] three).schedule = .deliver code :: rest) ∧
    (step (withTurns [.engine] ending) = .next (stepped (withTurns [.engine] ending)) ∧
      (∀ rest, (withTurns [.engine] ending).schedule ≠ .reset :: rest) ∧
      ∀ code rest, (withTurns [.engine] ending).schedule ≠ .deliver code :: rest) :=
  ⟨⟨rfl, 0x00, [], rfl⟩, rfl, (fun _ h => by cases h), (fun _ _ h => by cases h)⟩

/-- In a train, leaving IDLE, and each way back to it. -/
theorem witness_TrainsNeverOverlap :
    (step (withTurns [.engine] waking) = .next (stepped (withTurns [.engine] waking)) ∧
      waking.engine.st ≠ .idle) ∧
    (three.engine.st = .idle ∧ (stepped (withTurns [.deliver 0x00] three)).engine.st ≠ .idle) ∧
    (stepped (withTurns [.engine] ending)).engine.st = .idle ∧
    (stepped (withTurns [.deliver 0x01] midTrain)).engine.st = .idle ∧
    (stepped (withTurns [.reset] midTrain)).engine.st = .idle := ⟨⟨rfl, by decide⟩, by decide⟩

theorem witness_TrainClockIsExact :
    (waking.Inv ∧ waking.engine.st = .slotActive ∧
      (stepped (withTurns [.engine] waking)).engine.st = .slotActive) ∧
    (three.Inv ∧ three.engine.st ≠ .slotActive ∧
      (stepped (withTurns [.deliver 0x00] three)).engine.st = .slotActive) :=
  ⟨⟨inv_waking, by decide⟩, ⟨inv_three, by decide⟩⟩

/-- A Tick that is not delayed, and one delayed by two urgent steps. -/
theorem witness_TickIsDelayedAtMostTwoSteps :
    ((withTurns [.tick] blank).Inv ∧ (withTurns [.tick] blank).schedule = .tick :: []) ∧
    ((withTurns [.tick] lastWake).Inv ∧ (withTurns [.tick] lastWake).schedule = .tick :: []) :=
  ⟨⟨inv_withTurns inv_blank _, rfl⟩, ⟨inv_withTurns inv_lastWake _, rfl⟩⟩

/-- The slot start of V70 itself (`k = 0`), and the whole train of V71 (`k = 1`): no channel, END. -/
theorem witness_PulseTrainIsTheTrainFunction :
    (∃ t, (withTurns [.deliver 0x00, .deliver 0x02] three).Inv ∧ three.engine.st = .idle ∧
      (∀ u ∈ [Turn.deliver 0x02], u ≠ .deliver 0x01 ∧ u ≠ .reset) ∧
      Sys2Proof.core.run (0 + 1) (withTurns [.deliver 0x00, .deliver 0x02] three) = .next t ∧
      t.engine.st = .slotActive) ∧
    (∃ t, (withTurns [.deliver 0x00, .engine] blank).Inv ∧ blank.engine.st = .idle ∧
      (∀ u ∈ [Turn.engine], u ≠ .deliver 0x01 ∧ u ≠ .reset) ∧
      Sys2Proof.core.run (1 + 1) (withTurns [.deliver 0x00, .engine] blank) = .next t ∧
      t.engine.st = .idle ∧
      ∀ j u, j < 1 → Sys2Proof.core.run (j + 1) (withTurns [.deliver 0x00, .engine] blank) = .next u →
        u.engine.st ≠ .idle) := by
  refine ⟨⟨_, inv_withTurns inv_three _, by decide, by decide, rfl, by decide⟩,
    ⟨_, inv_withTurns inv_blank _, by decide, by decide, rfl, by decide, ?_⟩⟩
  intro j u hj hu
  obtain rfl : j = 0 := by omega
  cases hu
  decide

theorem witness_TrainFunctionPulsesEveryEntry :
    ∀ x ∈ ([⟨4, 544⟩, ⟨5, 2400⟩] : List SnapEntry), x.width.toNat ≤ 2400 := by decide

theorem witness_PinLevelIsTheLastSet :
    (5 ≤ 5 ∧ ∀ e ∈ ([⟨5, .set 2 .low⟩, ⟨6, .set 1 .high⟩] : List Stamped), e.time ≤ 5 →
      ∀ l', e.event ≠ .set 1 l') ∧
    ∀ e ∈ ([] : List Stamped), e.time ≤ 0 → ∀ l, e.event ≠ .set 1 l := by
  refine ⟨⟨by decide, ?_⟩, by simp⟩
  intro e he ht l'
  simp only [List.mem_cons, List.not_mem_nil, or_false] at he
  rcases he with rfl | rfl
  · intro h; cases h
  · simp at ht

/-- V83's snapshot at both sides of the least width. -/
theorem witness_DuplicatePinFallsAtItsLeastWidth :
    (∀ x ∈ ([⟨5, 1500⟩, ⟨5, 900⟩] : List SnapEntry), 0 < x.width.toNat) ∧
    ((([⟨5, 1500⟩, ⟨5, 900⟩] : List SnapEntry).filter fun x => x.pin = 5).map
      fun x => x.width.toNat).min? = some 900 ∧
    100 ≤ 999 ∧ 999 < 100 + 900 ∧ 100 + 900 ≤ 1000 := by decide

theorem witness_ResetRestoresEveryElement :
    (withTurns [.reset] midTrain).schedule = .reset :: [] := rfl

theorem witness_ResetMeetsTheInvariant : 1 ≤ 1 ∧ 1 ≤ 256 ∧ 256 ≤ 256 := by decide

theorem witness_StepKeepsTheInvariant :
    (withTurns [cmd 0x02010000] midTrain).Inv ∧
    step (withTurns [cmd 0x02010000] midTrain) =
      .next (stepped (withTurns [cmd 0x02010000] midTrain)) := ⟨inv_withTurns inv_midTrain _, rfl⟩

theorem witness_AssembledWordsAreTheLegalWords :
    16 ≤ 256 ∧ (AsmLine.attach 15 255).assemble 16 = some [.command 0x010F00FF] ∧
    HostOp.command 0x010F00FF ∈ [HostOp.command 0x010F00FF] ∧
    Instr.wellFormed 16 (.write 15 0x8000) = true := by decide

end Sys2Proof.Tests
end

section
/-! PROOFS. The scope's statements (00_scope.md rules R12, R15 to R19): a step that is no Tick takes no
time, every step keeps the parameters and only adds to the trace, and a Tick is never delayed for long. -/

namespace Sys2Proof.Machine

/-! ## Operations that take no time -/

/-- `t` comes from `s` by an operation that takes no time: `now` and the parameters stay, and the
trace is extended by events stamped with that `now` (rules R12, R15, R17). -/
structure SameMoment (s t : State) : Prop where
  now : t.now = s.now
  base : t.base = s.base
  nDesc : t.nDesc = s.nDesc
  trace : ∃ es, t.trace = s.trace ++ es ∧ ∀ e ∈ es, e.time = s.now

namespace SameMoment

/-- An operation that emits nothing. -/
theorem of_silent {s t : State} (hnow : t.now = s.now) (hbase : t.base = s.base)
    (hdesc : t.nDesc = s.nDesc) (htrace : t.trace = s.trace) : SameMoment s t :=
  ⟨hnow, hbase, hdesc, [], by simp [htrace], by simp⟩

theorem refl (s : State) : SameMoment s s := of_silent rfl rfl rfl rfl

theorem trans {s t u : State} (h : SameMoment s t) (h' : SameMoment t u) : SameMoment s u := by
  obtain ⟨hnow, hbase, hdesc, es, htrace, hes⟩ := h
  obtain ⟨hnow', hbase', hdesc', es', htrace', hes'⟩ := h'
  refine ⟨hnow'.trans hnow, hbase'.trans hbase, hdesc'.trans hdesc, es ++ es', ?_, ?_⟩
  · rw [htrace', htrace, List.append_assoc]
  · intro e he
    rcases List.mem_append.1 he with he | he
    · exact hes e he
    · rw [hes' e he, hnow]

/-- The passing of a turn. -/
theorem setSchedule (s : State) (ts : List Turn) : SameMoment s { s with schedule := ts } :=
  of_silent rfl rfl rfl rfl

end SameMoment

open SameMoment

theorem emit_sameMoment (e : PortEvent) (s : State) : SameMoment s (emit e s) :=
  ⟨rfl, rfl, rfl, _, rfl, by simp⟩

theorem emitAll_sameMoment (es : List PortEvent) (s : State) : SameMoment s (emitAll es s) :=
  ⟨rfl, rfl, rfl, _, rfl, by simp⟩

theorem setResult_sameMoment (v : Word) (s : State) : SameMoment s (setResult v s) :=
  of_silent rfl rfl rfl rfl

theorem flag_sameMoment (b : StatusBit) (s : State) : SameMoment s (flag b s) :=
  of_silent rfl rfl rfl rfl

theorem illegalCommand_sameMoment (s : State) : SameMoment s (illegalCommand s) :=
  (flag_sameMoment _ s).trans (setResult_sameMoment _ _)

theorem modifyDesc_sameMoment (d : Byte) (f : Desc → Desc) (s : State) :
    SameMoment s (modifyDesc d f s) :=
  of_silent rfl rfl (modifyDesc_nDesc d f s) rfl

theorem attachEntry_sameMoment (d p : Byte) (s : State) : SameMoment s (attachEntry d p s) := by
  obtain ⟨-, -, -, hnow, hbase, -, -, hdesc, -, -, hfirst, hlater⟩ := attachEntry_frame d p s
  by_cases h : s.registry.count = 0
  · exact ⟨hnow, hbase, hdesc, _, (hfirst h).2, by simp⟩
  · exact ⟨hnow, hbase, hdesc, _, (hlater h).2, by simp⟩

theorem detachEntry_sameMoment (d : Byte) (i : Nat) (s : State) :
    SameMoment s (detachEntry d i s) := by
  obtain ⟨-, -, -, hnow, hbase, -, -, hdesc, hlast, hother⟩ := detachEntry_frame d i s
  by_cases h : s.registry.count - 1 = 0
  · exact ⟨hnow, hbase, hdesc, _, (hlast h).2, by simp⟩
  · exact of_silent hnow hbase hdesc (hother h).2

/-- A command takes no time (rules R76, R90). -/
theorem exec_sameMoment {i : Instr} {s t : State} (h : exec i s = .next t) : SameMoment s t := by
  rcases exec_cases h with ⟨_, -, -, rfl⟩ | ⟨_, rfl⟩ | ⟨d, _, w, -, -, -, rfl⟩ |
    ⟨d, p, _, -, -, -, -, rfl⟩ | ⟨d, c, -, -, -, rfl⟩ | ⟨d, c, -, -, -, rfl⟩ | ⟨d, _, -, -, -, rfl⟩
  · exact illegalCommand_sameMoment s
  · exact setResult_sameMoment _ s
  · exact (modifyDesc_sameMoment d _ s).trans (setResult_sameMoment _ _)
  · exact (attachEntry_sameMoment d p s).trans (setResult_sameMoment _ _)
  · exact (detachEntry_sameMoment d _ s).trans (setResult_sameMoment _ _)
  · exact ((detachEntry_sameMoment d _ s).trans (modifyDesc_sameMoment d _ _)).trans
      (setResult_sameMoment _ _)
  · exact (modifyDesc_sameMoment d _ s).trans (setResult_sameMoment _ _)

theorem hostRead_sameMoment (addr n : Nat) (s : State) : SameMoment s (hostRead addr n s) := by
  rcases hostRead_cases addr n s with h | ⟨_, _, -, -, h⟩ | ⟨_, -, -, -, h⟩ <;> rw [h]
  · exact refl s
  · exact of_silent rfl rfl rfl rfl
  · exact of_silent rfl rfl rfl rfl

theorem hostWrite_sameMoment {addr : Nat} {data : List Byte} {s t : State}
    (h : hostWrite addr data s = .next t) : SameMoment s t := by
  rcases hostWrite_cases h with rfl | ⟨i, -, -, hexec⟩ | ⟨_, -, -, -, rfl⟩ | ⟨-, -, rfl⟩ |
    ⟨_, -, -, -, rfl⟩
  · exact refl _
  · exact exec_sameMoment hexec
  · exact illegalCommand_sameMoment s
  · exact of_silent rfl rfl rfl rfl
  · exact flag_sameMoment _ s

theorem wake_sameMoment (s : State) : SameMoment s (wake s) :=
  (emitAll_sameMoment _ s).trans (of_silent rfl rfl rfl rfl)

theorem endSlot_sameMoment (s : State) : SameMoment s (endSlot s) :=
  (emit_sameMoment _ s).trans (of_silent rfl rfl rfl rfl)

/-- An urgent engine step takes no time (rule R18). -/
theorem engineStep_sameMoment (s : State) : SameMoment s (engineStep s) := by
  rcases engineStep_cases s with ⟨-, -, h⟩ | ⟨-, h⟩ | ⟨-, h⟩ <;> rw [h]
  · exact wake_sameMoment s
  · exact endSlot_sameMoment s
  · exact refl s

/-- A delivery takes no time (rule R155). -/
theorem deliver_sameMoment (code : Byte) (s : State) : SameMoment s (deliver code s) := by
  rcases deliver_cases code s with ⟨-, -, h⟩ | ⟨-, -, h⟩ | ⟨-, -, h⟩ | ⟨-, -, h⟩ | ⟨-, -, h⟩ <;> rw [h]
  · exact (emitAll_sameMoment _ s).trans (of_silent rfl rfl rfl rfl)
  · exact (flag_sameMoment _ s).trans (emit_sameMoment _ _)
  · exact ((flag_sameMoment _ s).trans (endSlot_sameMoment _)).trans (emit_sameMoment _ _)
  · exact emit_sameMoment _ s
  · exact emit_sameMoment _ s

/-- Reset keeps the time, the trace and the parameters (rules R201, R203; log 10). -/
theorem resetStep_sameMoment (s : State) : SameMoment s (resetStep s) :=
  of_silent rfl rfl List.length_replicate rfl

theorem tickTrigger_sameMoment (s : State) : SameMoment s (tickTrigger s) := by
  unfold tickTrigger
  split_ifs
  · exact (emit_sameMoment _ s).trans (of_silent rfl rfl rfl rfl)
  · exact of_silent rfl rfl rfl rfl
  · exact refl s

theorem tickWait_sameMoment (s : State) : SameMoment s (tickWait s) := by
  unfold tickWait
  split_ifs
  · exact of_silent rfl rfl rfl rfl
  · exact refl s

/-- A Tick moves time by one µs, and all else it does happens at the new time (rule R143). -/
theorem tick_sameMoment (s : State) : SameMoment { s with now := s.now + 1 } (tick s) :=
  (tickTrigger_sameMoment _).trans (tickWait_sameMoment _)

/-- Every step either takes no time or is an enabled Tick, whose effects happen one µs later (rules R17,
R18; log 5). -/
theorem step_sameMoment_or_tick {s t : State} (h : step s = .next t) :
    SameMoment s t ∨
    ((s.schedule = [] ∨ ∃ rest, s.schedule = .tick :: rest) ∧ tickEnabled s = true ∧
      SameMoment { s with now := s.now + 1 } t) := by
  rcases step_cases h with ⟨hs, hen, rfl⟩ | ⟨-, -, rfl⟩ | ⟨u, rest, hs, hturn⟩
  · exact .inr ⟨.inl hs, hen, tick_sameMoment s⟩
  · exact .inl (engineStep_sameMoment s)
  · rcases hturn with ⟨addr, n, -, rfl⟩ | ⟨addr, data, -, hw⟩ | ⟨code, -, rfl⟩ | ⟨rfl, hen, rfl⟩ |
      ⟨-, -, rfl⟩ | ⟨-, rfl⟩ | ⟨-, rfl⟩
    · exact .inl ((setSchedule s rest).trans (hostRead_sameMoment addr n _))
    · exact .inl ((setSchedule s rest).trans (hostWrite_sameMoment hw))
    · exact .inl ((setSchedule s rest).trans (deliver_sameMoment code _))
    · exact .inr ⟨.inr ⟨rest, hs⟩, hen,
        (setSchedule _ rest).trans (tick_sameMoment { s with schedule := rest })⟩
    · exact .inl (engineStep_sameMoment s)
    · exact .inl ((setSchedule s rest).trans (engineStep_sameMoment _))
    · exact .inl ((setSchedule s rest).trans (resetStep_sameMoment _))

/-- Settles O8: a step that takes no time keeps `now`, and the other steps are enabled Ticks. -/
theorem onlyTickAdvancesTime : Obligations.OnlyTickAdvancesTime := by
  intro s t h
  rcases step_sameMoment_or_tick h with hm | ⟨hturn, hen, hm⟩
  · exact .inl hm.now
  · obtain ⟨hwake, hend⟩ := tickEnabled_iff.1 hen
    exact .inr ⟨hm.now, hturn, hwake, hend⟩

/-- Settles O9: the trace grows by events of the moment the step ends in, a Tick's by those of the
new time. -/
theorem traceOnlyGrowsWithStampedEvents : Obligations.TraceOnlyGrowsWithStampedEvents := by
  intro s t h
  rcases step_sameMoment_or_tick h with hm | ⟨-, -, hm⟩ <;>
  · obtain ⟨es, htrace, hes⟩ := hm.trace
    exact ⟨es, htrace, fun e he => (hes e he).trans hm.now.symm⟩

/-- Settles O10: both kinds of step keep the parameters. -/
theorem parametersNeverChange : Obligations.ParametersNeverChange := by
  intro s t h
  rcases step_sameMoment_or_tick h with hm | ⟨-, -, hm⟩
  · exact ⟨hm.nDesc, hm.base⟩
  · exact ⟨hm.nDesc, hm.base⟩

/-! ## A Tick's delay -/

/-- A run of at most `n` steps takes the Tick listed first: it ends one µs later, with the turns `rest`
still to come. -/
def TicksWithin (n : Nat) (s : State) (rest : List Turn) : Prop :=
  ∃ k t, k ≤ n ∧ Sys2Proof.core.run k s = .next t ∧ t.now = s.now + 1 ∧ t.schedule = rest

theorem run_succ_of_step (M : Host.Core) {s t : M.State} (h : M.step s = .next t) (k : Nat) :
    M.run (k + 1) s = M.run k t := by
  rw [Host.Core.run, h]

theorem step_of_tick_enabled {s : State} {rest : List Turn} (hs : s.schedule = .tick :: rest)
    (hen : tickEnabled s = true) : step s = .next (tick { s with schedule := rest }) := by
  have hen' : tickEnabled { s with schedule := rest } = true := hen
  simp [step, hs, takeTurn, hen']

/-- A Tick whose turn comes while an urgent step is enabled waits for that step (log 6). -/
theorem step_of_tick_delayed {s : State} {rest : List Turn} (hs : s.schedule = .tick :: rest)
    (hen : tickEnabled s = false) : step s = .next (engineStep s) := by
  have hen' : tickEnabled { s with schedule := rest } = false := hen
  have hstay : ({ s with schedule := .tick :: rest } : State) = s := by rw [← hs]
  simp [step, hs, takeTurn, hen', hstay]

@[simp] theorem tick_schedule (s : State) : (tick s).schedule = s.schedule := by
  unfold tick tickWait tickTrigger
  split_ifs <;> rfl

@[simp] theorem engineStep_schedule (s : State) : (engineStep s).schedule = s.schedule := by
  rcases engineStep_cases s with ⟨-, -, h⟩ | ⟨-, h⟩ | ⟨-, h⟩ <;> rw [h] <;> rfl

/-- An enabled Tick is taken in the next step. -/
theorem ticksWithin_of_enabled {s : State} {rest : List Turn} (hs : s.schedule = .tick :: rest)
    (hen : tickEnabled s = true) : TicksWithin 1 s rest :=
  ⟨1, _, le_rfl, run_succ_of_step Sys2Proof.core (step_of_tick_enabled hs hen) 0,
    (tick_sameMoment _).now, tick_schedule _⟩

/-- A Tick that waits is taken one step later than from the state after the engine's step. -/
theorem ticksWithin_of_delayed {n : Nat} {s : State} {rest : List Turn}
    (hs : s.schedule = .tick :: rest) (hen : tickEnabled s = false)
    (h : TicksWithin n (engineStep s) rest) : TicksWithin (n + 1) s rest := by
  obtain ⟨k, t, hk, hrun, hnow, hsched⟩ := h
  have hstep := run_succ_of_step Sys2Proof.core (step_of_tick_delayed hs hen) k
  refine ⟨k + 1, t, by omega, hstep.trans hrun, ?_, hsched⟩
  rw [hnow, (engineStep_sameMoment s).now]

theorem TicksWithin.mono {m n : Nat} {s : State} {rest : List Turn} (hmn : m ≤ n)
    (h : TicksWithin m s rest) : TicksWithin n s rest := by
  obtain ⟨k, t, hk, hrun⟩ := h
  exact ⟨k, t, hk.trans hmn, hrun⟩

theorem engineStep_of_waking {s : State} (hact : s.engine.st = .slotActive)
    (hwait : s.engine.waitCnt = 0) : engineStep s = wake s :=
  if_pos (wakeEnabled_iff.2 ⟨hact, hwait⟩)

theorem engineStep_of_ending {s : State} (hend : s.engine.st = .ending) :
    engineStep s = endSlot s := by
  have hwake : wakeEnabled s ≠ true := fun h =>
    EngState.noConfusion ((wakeEnabled_iff.1 h).1.symm.trans hend)
  rw [engineStep, if_neg hwake, if_pos (endEnabled_iff.2 hend)]

/-- End leaves the engine IDLE, where nothing is urgent (rule R162). -/
theorem tickEnabled_endSlot (s : State) : tickEnabled (endSlot s) = true :=
  tickEnabled_iff.2 ⟨fun h => EngState.noConfusion h.1, fun h => EngState.noConfusion h⟩

/-- A Wake that does not end the train waits at least one µs, since what is left is wider than CUR_T
(rule R160). -/
theorem Engine.rewait_lowerDue_cases (e : Engine) :
    e.lowerDue.rewait.st = .ending ∨ (e.lowerDue.rewait.st = e.st ∧ e.lowerDue.rewait.waitCnt ≠ 0) := by
  rcases Engine.rewait_cases e.lowerDue with ⟨-, h⟩ | ⟨t, hmin, h⟩ <;> rw [h]
  · exact .inl rfl
  · refine .inr ⟨rfl, fun hzero => ?_⟩
    obtain ⟨⟨k, hk, rfl⟩, -⟩ := Engine.minPendingWidth_eq_some.1 hmin
    have hwider : e.curT.toNat < e.widthOf k := (Engine.mem_lowerDue_pending.1 hk).2
    have hbound := e.widthOf_lt k
    have hcur : BitVec.ofNat 16 (e.widthOf k) = e.curT := sub_eq_zero.1 hzero
    rw [← hcur, BitVec.toNat_ofNat, Nat.mod_eq_of_lt hbound] at hwider
    exact hwider.false

/-- An engine that is ENDING delays a Tick by its End only. -/
theorem ticksWithin_of_ending {s : State} {rest : List Turn} (hs : s.schedule = .tick :: rest)
    (hend : s.engine.st = .ending) : TicksWithin 2 s rest := by
  have hen : tickEnabled s = false := Bool.eq_false_iff.2 fun h => (tickEnabled_iff.1 h).2 hend
  refine ticksWithin_of_delayed hs hen (ticksWithin_of_enabled ?_ ?_)
  · rw [engineStep_schedule, hs]
  · rw [engineStep_of_ending hend, tickEnabled_endSlot]

/-- A Wake delays a Tick by itself and, when it ends the train, by the End after it. -/
theorem ticksWithin_of_waking {s : State} {rest : List Turn} (hs : s.schedule = .tick :: rest)
    (hact : s.engine.st = .slotActive) (hwait : s.engine.waitCnt = 0) : TicksWithin 3 s rest := by
  have hen : tickEnabled s = false :=
    Bool.eq_false_iff.2 fun h => (tickEnabled_iff.1 h).1 ⟨hact, hwait⟩
  have hs' : (engineStep s).schedule = .tick :: rest := by rw [engineStep_schedule, hs]
  refine ticksWithin_of_delayed hs hen ?_
  rw [engineStep_of_waking hact hwait] at hs' ⊢
  rcases s.engine.rewait_lowerDue_cases with hend | ⟨hst, hne⟩
  · exact ticksWithin_of_ending hs' hend
  · have hact' : (wake s).engine.st = .slotActive := hst.trans hact
    have hen' : tickEnabled (wake s) = true :=
      tickEnabled_iff.2 ⟨fun h => hne h.2, fun h => EngState.noConfusion (hact'.symm.trans h)⟩
    exact (ticksWithin_of_enabled hs' hen').mono (by omega)

/-- Settles O51, by what the engine's turn would be: a Wake, an End, or nothing urgent. -/
theorem tickIsDelayedAtMostTwoSteps : Obligations.TickIsDelayedAtMostTwoSteps := by
  intro s rest _ hs
  rcases engineStep_cases s with ⟨hact, hwait, -⟩ | ⟨hend, -⟩ | ⟨hen, -⟩
  · exact ticksWithin_of_waking hs hact hwait
  · exact (ticksWithin_of_ending hs hend).mono (by omega)
  · exact (ticksWithin_of_enabled hs hen).mono (by omega)

end Sys2Proof.Machine
end

section
/-! PROOFS. The invariant's part about the descriptors, the registry and the generator (10_state.md rules
R31, R33, R35 to R37, R40, R41): every command keeps it. -/

namespace Sys2Proof.Machine

/-! ## Descriptors, registry and generator -/

/-- The part of the invariant that speaks of the descriptors, the registry and the generator. -/
structure State.RegistryInv (s : State) : Prop where
  size : s.SizeOk
  widths : s.WidthsOk
  indices : s.IndicesOk
  contiguous : s.Contiguous
  membership : s.Membership
  gen : s.GenOk

theorem State.Inv.registryInv {s : State} (h : s.Inv) : s.RegistryInv :=
  ⟨h.size, h.widths, h.indices, h.contiguous, h.membership, h.gen⟩

/-- An operation that writes no descriptor and no registry slot keeps this part, but for the
generator. -/
theorem State.RegistryInv.of_frame {s t : State} (h : s.RegistryInv) (hdesc : t.desc = s.desc)
    (hreg : t.registry = s.registry) (hgen : t.GenOk) : t.RegistryInv := by
  obtain ⟨size, widths, indices, contiguous, membership, -⟩ := h
  cases s; cases t
  cases hdesc; cases hreg
  exact ⟨size, widths, indices, contiguous, membership, hgen⟩

/-- An operation that writes no descriptor, no registry slot and no generator keeps this part. -/
theorem State.RegistryInv.congr {s t : State} (h : s.RegistryInv) (hdesc : t.desc = s.desc)
    (hreg : t.registry = s.registry) (hgen : t.gen = s.gen) : t.RegistryInv :=
  h.of_frame hdesc hreg (by rw [State.GenOk, State.count, hgen, hreg]; exact h.gen)

theorem State.mem_desc_of_desc? {s : State} {d : Byte} {c : Desc} (h : s.desc? d = some c) :
    c ∈ s.desc := List.mem_of_getElem? h

/-- Every descriptor has an 8-bit id, as N_DESC is at most 256 (rules R11, R30). -/
theorem State.SizeOk.exists_id {s : State} (h : s.SizeOk) {c : Desc} (hc : c ∈ s.desc) :
    ∃ d, s.desc? d = some c := by
  obtain ⟨q, hq, rfl⟩ := List.mem_iff_getElem.1 hc
  have hlt : q < 256 := lt_of_lt_of_le hq h.2
  refine ⟨BitVec.ofNat 8 q, ?_⟩
  simp [State.desc?, Nat.mod_eq_of_lt hlt, hq]

/-- The two states hold descriptors of the same ids. -/
theorem exists_desc?_of_nDesc_eq {s t : State} (hn : t.nDesc = s.nDesc) {d : Byte} {y : Desc}
    (hy : t.desc? d = some y) : ∃ x, s.desc? d = some x := by
  have hlt : d.toNat < s.nDesc := hn ▸ (List.getElem?_eq_some_iff.1 hy).1
  exact ⟨_, List.getElem?_eq_getElem hlt⟩

theorem Desc.isAttached_eq_true {c : Desc} : c.isAttached = true ↔ c.index ≠ Config.invalid := by
  simp [Desc.isAttached]

theorem Desc.isAttached_eq_false {c : Desc} : c.isAttached = false ↔ c.index = Config.invalid := by
  simp [Desc.isAttached]

/-- Every attached descriptor holds the registry slot its index names (rules R36, R37). -/
def State.IndicesNameSlots (s : State) : Prop :=
  ∀ d c, s.desc? d = some c → c.isAttached = true →
    c.index.toNat < s.count ∧ s.slotId c.index.toNat = d

theorem State.RegistryInv.indicesNameSlots {s : State} (h : s.RegistryInv) : s.IndicesNameSlots :=
  fun _ _ hc ha => attached_slot h.contiguous h.membership hc ha

theorem State.IndicesNameSlots.membership {s : State} (h : s.IndicesNameSlots)
    (hcont : s.Contiguous) : s.Membership := by
  intro d c hc
  constructor
  · intro ha
    exact ⟨c.index.toNat, h d c hc ha, fun j hj => (slot_attached hcont hc hj.1 hj.2).1.symm⟩
  · rintro ⟨i, ⟨hi, hs⟩, -⟩
    exact (slot_attached hcont hc hi hs).2

theorem State.IndicesNameSlots.indicesOk {s : State} (h : s.IndicesNameSlots)
    (hcont : s.Contiguous) (hsize : s.SizeOk) : s.IndicesOk := by
  intro c hc
  obtain ⟨d, hd⟩ := hsize.exists_id hc
  by_cases ha : c.isAttached = true
  · exact .inl ((h d c hd ha).1.trans_le hcont.1)
  · exact .inr (Desc.isAttached_eq_false.1 (by simpa using ha))

/-- The invariant from what is said of every id: the widths, the two directions of the registry's links,
and the generator. -/
theorem State.RegistryInv.of_indicesNameSlots {s : State} (hsize : s.SizeOk)
    (hwidth : ∀ d c, s.desc? d = some c →
      Config.minPulseWidth ≤ c.width.toNat ∧ c.width.toNat ≤ Config.maxPulseWidth)
    (hcont : s.Contiguous) (hnames : s.IndicesNameSlots) (hgen : s.GenOk) : s.RegistryInv := by
  refine ⟨hsize, fun c hc => ?_, hnames.indicesOk hcont hsize, hcont, hnames.membership hcont, hgen⟩
  obtain ⟨d, hd⟩ := hsize.exists_id hc
  exact hwidth d c hd

/-- The reset generator and the empty registry agree (rules R35, R40, R41, R200). -/
theorem State.GenOk.of_stopped {t : State} (hgen : t.gen = Generator.stopped) (hcount : t.count = 0) :
    t.GenOk := by
  simp [State.GenOk, hgen, hcount, Generator.stopped]

/-! ## Commands -/

theorem modifyDesc_desc? (d : Byte) (f : Desc → Desc) (s : State) (q : Byte) :
    (modifyDesc d f s).desc? q = if d = q then (s.desc? q).map f else s.desc? q := by
  simp only [State.desc?, modifyDesc_desc, List.getElem?_modify, BitVec.toNat_inj]
  split_ifs <;> simp

/-- A change of one descriptor that keeps its index and gives it a legal width (rules R118, R121,
R130). -/
theorem modifyDesc_keeps_registryInv {s : State} (h : s.RegistryInv) (d : Byte) {f : Desc → Desc}
    (hindex : ∀ c, (f c).index = c.index)
    (hwidth : ∀ c, Config.minPulseWidth ≤ (f c).width.toNat ∧
      (f c).width.toNat ≤ Config.maxPulseWidth) :
    (modifyDesc d f s).RegistryInv := by
  obtain ⟨hle, hslots, hfree⟩ := h.contiguous
  have hkeep : ∀ {q x}, s.desc? q = some x →
      ∃ y, (modifyDesc d f s).desc? q = some y ∧ y.index = x.index := by
    intro q x hx
    rw [modifyDesc_desc?, hx]
    split_ifs
    · exact ⟨f x, rfl, hindex x⟩
    · exact ⟨x, rfl, rfl⟩
  refine .of_indicesNameSlots ?_ (fun q y hy => ?_) ⟨hle, fun i hi => ?_, hfree⟩
    (fun q y hy ha => ?_) h.gen
  · rw [State.SizeOk, modifyDesc_nDesc]
    exact h.size
  · rw [modifyDesc_desc?] at hy
    split_ifs at hy
    · obtain ⟨x, -, rfl⟩ := Option.map_eq_some_iff.1 hy
      exact hwidth x
    · exact h.widths y (State.mem_desc_of_desc? hy)
  · obtain ⟨c, hc, hci⟩ := hslots i hi
    obtain ⟨y, hy, hyi⟩ := hkeep hc
    exact ⟨y, hy, by rw [hyi, hci]⟩
  · obtain ⟨x, hx⟩ := exists_desc?_of_nDesc_eq (modifyDesc_nDesc d f s) hy
    obtain ⟨y', hy', hyi⟩ := hkeep hx
    cases hy'.symm.trans hy
    rw [Desc.isAttached_eq_true, hyi, ← Desc.isAttached_eq_true] at ha
    rw [hyi]
    exact h.indicesNameSlots q x hx ha

theorem setWidth_keeps_registryInv {s : State} (h : s.RegistryInv) (d : Byte) {w : Half}
    (hmin : Config.minPulseWidth ≤ w.toNat) (hmax : w.toNat ≤ Config.maxPulseWidth) :
    (setWidth d w s).RegistryInv :=
  modifyDesc_keeps_registryInv h d (fun _ => rfl) fun _ => ⟨hmin, hmax⟩

theorem construct_keeps_registryInv {s : State} (h : s.RegistryInv) (d : Byte) :
    (construct d s).RegistryInv :=
  modifyDesc_keeps_registryInv h d (fun _ => rfl) fun _ =>
    show Config.minPulseWidth ≤ 1500 ∧ 1500 ≤ Config.maxPulseWidth by decide

/-! ### ATTACH -/

theorem count_eq_zero {s : State} : s.registry.count = 0 ↔ s.count = 0 := by
  rw [← BitVec.toNat_inj]; rfl

theorem count_sub_one_eq_zero {s : State} : s.registry.count - 1 = 0 ↔ s.count = 1 := by
  rw [sub_eq_zero, ← BitVec.toNat_inj]; rfl

/-- COUNT after the last branch of ATTACH; its 4 bits hold it while the registry is not full. -/
theorem attachEntry_count (d p : Byte) {s : State} (h : s.count < Config.maxChannels) :
    (attachEntry d p s).count = s.count + 1 := by
  obtain ⟨-, -, -, -, -, -, -, -, hreg, -⟩ := attachEntry_frame d p s
  have h16 : s.count + 1 < 16 := by simp only [Config.maxChannels] at h; omega
  rw [State.count, hreg]
  exact (BitVec.toNat_add _ _).trans (Nat.mod_eq_of_lt h16)

/-- SLOT after the last branch of ATTACH: the first free slot holds `d` (rule R112). -/
theorem attachEntry_slotId (d p : Byte) {s : State} (h : s.count < Config.maxChannels) (j : Nat) :
    (attachEntry d p s).slotId j = if s.count = j then d else s.slotId j := by
  obtain ⟨-, -, -, -, -, -, -, -, hreg, -⟩ := attachEntry_frame d p s
  rw [slotId_eq, slotId_eq, hreg, Vector.getElem?_setIfInBounds]
  change (if s.count = j then if s.count < Config.maxChannels then some d else none
    else s.registry.slot[j]?).getD 0xFF = _
  rw [if_pos h]
  split_ifs <;> rfl

/-- The descriptor file after the last branch of ATTACH (rule R112). -/
theorem attachEntry_desc? (d p : Byte) (s : State) (q : Byte) :
    (attachEntry d p s).desc? q = if d = q then
      (s.desc? q).map fun c => { c with index := s.registry.count.setWidth 8, pin := p }
    else s.desc? q := by
  obtain ⟨-, -, -, -, -, -, -, -, -, hdesc, -⟩ := attachEntry_frame d p s
  rw [State.desc?, hdesc]
  exact modifyDesc_desc? d _ s q

theorem count_setWidth_toNat (s : State) : (s.registry.count.setWidth 8).toNat = s.count := by
  rw [BitVec.toNat_setWidth]
  exact Nat.mod_eq_of_lt (by have := count_lt s; simp only [State.count] at this; omega)

section Attach
variable {s : State} {d : Byte} (p : Byte) {c : Desc} (h : s.RegistryInv) (hd : s.desc? d = some c)
  (hlt : s.count < Config.maxChannels)

theorem attachEntry_desc?_same (hd : s.desc? d = some c) : (attachEntry d p s).desc? d =
    some { c with index := s.registry.count.setWidth 8, pin := p } := by
  rw [attachEntry_desc?, if_pos rfl, hd]; rfl

theorem attachEntry_desc?_ne {q : Byte} (hq : q ≠ d) :
    (attachEntry d p s).desc? q = s.desc? q := by
  rw [attachEntry_desc?, if_neg hq.symm]

include h hd hlt

theorem attachEntry_contiguous (hc : c.isAttached = false) : (attachEntry d p s).Contiguous := by
  obtain ⟨-, hslots, hfree⟩ := h.contiguous
  have hcount := attachEntry_count d p hlt
  refine ⟨by rw [hcount]; exact hlt, fun i hi => ?_, fun i hi h10 => ?_⟩ <;>
    (rw [hcount] at hi; rw [attachEntry_slotId d p hlt])
  · by_cases hci : s.count = i
    · rw [if_pos hci]
      exact ⟨_, attachEntry_desc?_same p hd, (count_setWidth_toNat s).trans hci⟩
    · have hi' : i < s.count := by omega
      have hne : s.slotId i ≠ d := fun e =>
        Bool.noConfusion (hc.symm.trans (slot_attached h.contiguous hd hi' e).2)
      rw [if_neg hci, attachEntry_desc?_ne p hne]
      exact hslots i hi'
  · rw [if_neg (by omega)]
    exact hfree i (by omega) h10

theorem attachEntry_indicesNameSlots : (attachEntry d p s).IndicesNameSlots := by
  intro q y hy ha
  rw [attachEntry_count d p hlt, attachEntry_slotId d p hlt]
  by_cases hq : q = d
  · subst hq
    cases (attachEntry_desc?_same p hd).symm.trans hy
    rw [count_setWidth_toNat, if_pos rfl]
    exact ⟨by omega, rfl⟩
  · rw [attachEntry_desc?_ne p hq] at hy
    obtain ⟨hi, hs⟩ := h.indicesNameSlots q y hy ha
    rw [if_neg (by omega)]
    exact ⟨by omega, hs⟩

omit hd in
theorem attachEntry_genOk : (attachEntry d p s).GenOk := by
  obtain ⟨-, -, -, -, -, -, -, -, -, -, hfirst, hlater⟩ := attachEntry_frame d p s
  rw [State.GenOk, attachEntry_count d p hlt]
  by_cases h0 : s.count = 0
  · rw [(hfirst (count_eq_zero.2 h0)).1]
    exact ⟨by simp, fun _ => by decide, by simp⟩
  · obtain ⟨hrun, htrig⟩ := h.gen
    rw [(hlater (mt count_eq_zero.1 h0)).1]
    exact ⟨by rw [hrun]; omega, htrig⟩

/-- ATTACH of a detached descriptor to a registry that is not full (rules R36, R37, R41, R112). -/
theorem attachEntry_keeps_registryInv (hc : c.isAttached = false) :
    (attachEntry d p s).RegistryInv := by
  obtain ⟨-, -, -, -, -, -, -, hn, -⟩ := attachEntry_frame d p s
  refine .of_indicesNameSlots (by rw [State.SizeOk, hn]; exact h.size) (fun q y hy => ?_)
    (attachEntry_contiguous p h hd hlt hc) (attachEntry_indicesNameSlots p h hd hlt)
    (attachEntry_genOk p h hlt)
  by_cases hq : q = d
  · subst hq
    cases (attachEntry_desc?_same p hd).symm.trans hy
    exact h.widths c (State.mem_desc_of_desc? hd)
  · rw [attachEntry_desc?_ne p hq] at hy
    exact h.widths y (State.mem_desc_of_desc? hy)

end Attach

/-! ### DETACH -/

section Detach
variable {s : State} {d : Byte} {c : Desc} (h : s.RegistryInv) (hd : s.desc? d = some c)
  (hc : c.isAttached = true)
include h hd hc

/-- A descriptor attached before the detached one keeps everything (rule R116). -/
theorem detachEntry_desc?_below {q : Byte} {x : Desc} (hx : s.desc? q = some x)
    (hlt : x.index.toNat < c.index.toNat) : (detachEntry d c.index.toNat s).desc? q = some x := by
  have hq : q ≠ d := by
    rintro rfl
    cases hx.symm.trans hd
    exact hlt.false
  rw [detachEntry_desc? h.contiguous h.membership hd hc hx, if_neg hq,
    if_neg fun hmoved => hlt.asymm hmoved.2]

/-- A descriptor attached after the detached one moves down by one (rule R115). -/
theorem detachEntry_desc?_above {q : Byte} {x : Desc} (hx : s.desc? q = some x)
    (ha : x.isAttached = true) (hlt : c.index.toNat < x.index.toNat) :
    ∃ y, (detachEntry d c.index.toNat s).desc? q = some y ∧
      y.index.toNat = x.index.toNat - 1 := by
  have hq : q ≠ d := by
    rintro rfl
    cases hx.symm.trans hd
    exact hlt.false
  refine ⟨_, detachEntry_desc? h.contiguous h.membership hd hc hx, ?_⟩
  have hbound := x.index.isLt
  simp only [if_neg hq, ha, hlt, and_self, if_true, BitVec.toNat_ofNat]
  omega

/-- What is attached after a DETACH was attached before it, to a slot below or above the freed one. -/
theorem detachEntry_attached {q : Byte} {y : Desc}
    (hy : (detachEntry d c.index.toNat s).desc? q = some y) (ha : y.isAttached = true) :
    ∃ x, s.desc? q = some x ∧ x.isAttached = true ∧
      (x.index.toNat < c.index.toNat ∨ c.index.toNat < x.index.toNat) := by
  obtain ⟨-, -, -, -, -, -, -, hn, -⟩ := detachEntry_frame d c.index.toNat s
  obtain ⟨x, hx⟩ := exists_desc?_of_nDesc_eq hn hy
  cases (detachEntry_desc? h.contiguous h.membership hd hc hx).symm.trans hy
  rw [Desc.isAttached_eq_true] at ha
  have hq : q ≠ d := fun e => ha (if_pos e)
  have hxa : x.isAttached = true := by
    by_contra hxa
    simp only [if_neg hq, hxa, false_and] at ha
    exact hxa (Desc.isAttached_eq_true.2 ha)
  refine ⟨x, hx, hxa, Nat.lt_or_gt_of_ne fun e => hq ?_⟩
  rw [← (h.indicesNameSlots q x hx hxa).2, e, (h.indicesNameSlots d c hd hc).2]

theorem detachEntry_contiguous : (detachEntry d c.index.toNat s).Contiguous := by
  obtain ⟨hle, hslots, hfree⟩ := h.contiguous
  have hi := (h.indicesNameSlots d c hd hc).1
  have hcount := detachEntry_count d c.index.toNat s (by omega)
  have hslot := detachEntry_slotId d c.index.toNat s hle hi
  refine ⟨by rw [hcount]; omega, fun j hj => ?_, fun j hj h10 => ?_⟩ <;> rw [hcount] at hj
  · by_cases hij : c.index.toNat ≤ j
    · have hj1 : j + 1 < s.count := by omega
      obtain ⟨x, hx, hxj⟩ := hslots (j + 1) hj1
      have hxa := (slot_attached h.contiguous hx hj1 rfl).2
      obtain ⟨y, hy, hyj⟩ := detachEntry_desc?_above h hd hc hx hxa (by omega)
      exact ⟨y, by rw [hslot, if_pos ⟨hij, hj1⟩, hy], by omega⟩
    · obtain ⟨x, hx, hxj⟩ := hslots j (by omega)
      refine ⟨x, ?_, hxj⟩
      rw [hslot, if_neg (by omega), if_neg (by omega)]
      exact detachEntry_desc?_below h hd hc hx (by omega)
  · rw [hslot, if_neg (by omega)]
    split_ifs
    · rfl
    · exact hfree j (by omega) h10

theorem detachEntry_indicesNameSlots : (detachEntry d c.index.toNat s).IndicesNameSlots := by
  intro q y hy ha
  have hi := (h.indicesNameSlots d c hd hc).1
  obtain ⟨x, hx, hxa, hbelow | habove⟩ := detachEntry_attached h hd hc hy ha
  all_goals
    obtain ⟨hxi, hxs⟩ := h.indicesNameSlots q x hx hxa
    rw [detachEntry_count d _ s (by omega), detachEntry_slotId d _ s h.contiguous.1 hi]
  · cases (detachEntry_desc?_below h hd hc hx hbelow).symm.trans hy
    rw [if_neg (by omega), if_neg (by omega)]
    exact ⟨by omega, hxs⟩
  · obtain ⟨y', hy', hyx⟩ := detachEntry_desc?_above h hd hc hx hxa habove
    cases hy'.symm.trans hy
    have hback : y.index.toNat + 1 = x.index.toNat := by omega
    rw [if_pos (by omega), hback]
    exact ⟨by omega, hxs⟩

theorem detachEntry_genOk : (detachEntry d c.index.toNat s).GenOk := by
  obtain ⟨hrun, htrig⟩ := h.gen
  obtain ⟨-, -, -, -, -, -, -, -, hlast, hother⟩ := detachEntry_frame d c.index.toNat s
  have hi := (h.indicesNameSlots d c hd hc).1
  have hcount := detachEntry_count d c.index.toNat s (by omega)
  by_cases h1 : s.count = 1
  · exact .of_stopped (hlast (count_sub_one_eq_zero.2 h1)).1 (by rw [hcount, h1])
  · rw [State.GenOk, hcount, (hother (mt count_sub_one_eq_zero.1 h1)).1]
    exact ⟨by rw [hrun]; omega, htrig⟩

/-- DETACH of an attached descriptor (rules R36, R37, R41, R115). -/
theorem detachEntry_keeps_registryInv : (detachEntry d c.index.toNat s).RegistryInv := by
  obtain ⟨-, -, -, -, -, -, -, hn, -⟩ := detachEntry_frame d c.index.toNat s
  refine .of_indicesNameSlots (by rw [State.SizeOk, hn]; exact h.size) (fun q y hy => ?_)
    (detachEntry_contiguous h hd hc) (detachEntry_indicesNameSlots h hd hc)
    (detachEntry_genOk h hd hc)
  obtain ⟨x, hx⟩ := exists_desc?_of_nDesc_eq hn hy
  cases (detachEntry_desc? h.contiguous h.membership hd hc hx).symm.trans hy
  exact h.widths x (State.mem_desc_of_desc? hx)

end Detach

/-! ### All commands -/

/-- Every command keeps the invariants of the descriptors, the registry and the generator. -/
theorem exec_keeps_registryInv {i : Instr} {s t : State} (h : s.RegistryInv)
    (hexec : exec i s = .next t) : t.RegistryInv := by
  rcases exec_cases hexec with ⟨_, -, -, rfl⟩ | ⟨_, rfl⟩ | ⟨d, _, _, -, hmin, hmax, rfl⟩ |
    ⟨d, p, _, -, hd, hc, hfull, rfl⟩ | ⟨d, c, -, hd, hc, rfl⟩ | ⟨d, c, -, hd, hc, rfl⟩ |
    ⟨d, _, -, -, -, rfl⟩
  · exact h.congr rfl rfl rfl
  · exact h.congr rfl rfl rfl
  · exact (setWidth_keeps_registryInv h d hmin hmax).congr rfl rfl rfl
  · exact (attachEntry_keeps_registryInv p h hd (lt_of_le_of_ne h.contiguous.1 hfull) hc).congr rfl rfl rfl
  · exact (detachEntry_keeps_registryInv h hd hc).congr rfl rfl rfl
  · exact (construct_keeps_registryInv (detachEntry_keeps_registryInv h hd hc) d).congr rfl rfl rfl
  · exact (construct_keeps_registryInv h d).congr rfl rfl rfl

end Sys2Proof.Machine
end

section
/-! PROOFS. The invariant's part about the pulse engine (10_state.md rules R43, R46), which every engine step and
delivery keeps, and what a Tick and the trace's growth keep (rules R40, R46; 20_memory.md rule R81). -/

namespace Sys2Proof.Machine

/-! ## Pulse engine -/

/-- The part of the invariant that speaks of the engine and its train. -/
structure State.EngineInv (s : State) : Prop where
  train : s.TrainOk
  engine : s.EngineOk

theorem State.Inv.engineInv {s : State} (h : s.Inv) : s.EngineInv := ⟨h.train, h.engine⟩

/-- An operation that writes no engine state and takes no time keeps this part. -/
theorem State.EngineInv.congr {s t : State} (h : s.EngineInv) (hengine : t.engine = s.engine)
    (hnow : t.now = s.now) : t.EngineInv := by
  obtain ⟨htrain, heng⟩ := h
  refine ⟨?_, ?_⟩
  · rw [State.TrainOk, hengine, hnow]; exact htrain
  · rw [State.EngineOk, hengine]; exact heng

/-- An engine that is IDLE owes the train invariants nothing (rule R46). -/
theorem State.EngineInv.of_idle {t : State} (hidle : t.engine.st = .idle)
    (hsnap : t.engine.snapN.toNat ≤ Config.maxChannels) : t.EngineInv :=
  ⟨fun h => EngState.noConfusion (hidle.symm.trans h), hsnap,
    fun h => EngState.noConfusion (hidle.symm.trans h)⟩

/-- An engine that is ENDING has lowered every entry (rules R158, R160). -/
theorem State.EngineInv.of_ending {t : State} (hend : t.engine.st = .ending)
    (hsnap : t.engine.snapN.toNat ≤ Config.maxChannels) (hpending : t.engine.pending = []) :
    t.EngineInv :=
  ⟨fun h => EngState.noConfusion (hend.symm.trans h), hsnap, fun _ => hpending⟩

/-- The least pending width fits the 16 bits of CUR_T. -/
theorem Engine.toNat_minPendingWidth {e : Engine} {w : Nat} (hmin : e.minPendingWidth = some w) :
    (BitVec.ofNat 16 w).toNat = w := by
  obtain ⟨⟨k, -, rfl⟩, -⟩ := Engine.minPendingWidth_eq_some.1 hmin
  rw [BitVec.toNat_ofNat]
  exact Nat.mod_eq_of_lt (e.widthOf_lt k)

/-- An entry is lowered once every entry below the least pending width is (rule R46). -/
theorem Engine.lowered_iff_of_minPendingWidth {e : Engine} {w : Nat}
    (hsnap : e.snapN.toNat ≤ Config.maxChannels) (hmin : e.minPendingWidth = some w)
    (hlow : ∀ k, k < e.snapN.toNat → e.lowered.getLsbD k = true → e.widthOf k < w)
    {k : Nat} (hk : k < e.snapN.toNat) : e.lowered.getLsbD k = true ↔ e.widthOf k < w := by
  refine ⟨hlow k hk, fun hlt => ?_⟩
  by_contra hpending
  have hmem : k ∈ e.pending :=
    Engine.mem_pending.2 ⟨hk.trans_le hsnap, hk, by simpa using hpending⟩
  exact absurd ((Engine.minPendingWidth_eq_some.1 hmin).2 k hmem) (by omega)

/-- An engine that waits for its least pending width, `WAIT_CNT` of it still to come, meets the train
invariants (rule R46). -/
theorem State.EngineInv.of_waiting {t : State} {w : Nat}
    (hsnap : t.engine.snapN.toNat ≤ Config.maxChannels) (hactive : t.engine.st = .slotActive)
    (hwidths : ∀ k, k < t.engine.snapN.toNat →
      Config.minPulseWidth ≤ t.engine.widthOf k ∧ t.engine.widthOf k ≤ Config.maxPulseWidth)
    (hmin : t.engine.minPendingWidth = some w) (hcur : t.engine.curT = BitVec.ofNat 16 w)
    (hlow : ∀ k, k < t.engine.snapN.toNat → t.engine.lowered.getLsbD k = true →
      t.engine.widthOf k < w)
    (hwait : t.engine.waitCnt.toNat ≤ w) (hnow : w ≤ t.now + t.engine.waitCnt.toNat) :
    t.EngineInv := by
  refine ⟨fun _ => ?_, hsnap, fun h => EngState.noConfusion (hactive.symm.trans h)⟩
  have hw : t.engine.curT.toNat = w := by rw [hcur, Engine.toNat_minPendingWidth hmin]
  obtain ⟨⟨k, hk, -⟩, -⟩ := Engine.minPendingWidth_eq_some.1 hmin
  have hpos : k < t.engine.snapN.toNat := (Engine.mem_pending.1 hk).2.1
  rw [hw]
  exact ⟨by omega, hwidths, hmin,
    fun k hk => Engine.lowered_iff_of_minPendingWidth hsnap hmin hlow hk, hwait, hnow⟩

/-- A Wake lowers what is due and waits for the next width, or ends the train (rule R160). -/
theorem wake_keeps_engineInv {s : State} (h : s.EngineInv) (hactive : s.engine.st = .slotActive)
    (hwait : s.engine.waitCnt = 0) : (wake s).EngineInv := by
  obtain ⟨-, hwidths, -, hlow, -, hnow⟩ := h.train hactive
  have hsnap := h.engine.1
  have he : (wake s).engine = s.engine.lowerDue.rewait := rfl
  rcases Engine.rewait_cases s.engine.lowerDue with ⟨hpending, hre⟩ | ⟨w, hmin, hre⟩ <;>
    rw [hre] at he
  · exact .of_ending (by rw [he]) (by rw [he]; exact hsnap) (by rw [he]; exact hpending)
  · have hlt : s.engine.curT.toNat < w := by
      obtain ⟨⟨k, hk, rfl⟩, -⟩ := Engine.minPendingWidth_eq_some.1 hmin
      exact (Engine.mem_lowerDue_pending.1 hk).2
    have hnext : (BitVec.ofNat 16 w - s.engine.lowerDue.curT).toNat = w - s.engine.curT.toNat := by
      have hw := Engine.toNat_minPendingWidth hmin
      rw [BitVec.toNat_sub_of_le] <;> simp only [BitVec.le_def, hw, Engine.lowerDue_curT]
      exact hlt.le
    have hstart : s.engine.curT.toNat ≤ s.now := by simpa [hwait] using hnow
    have hlow' : ∀ k, k < s.engine.snapN.toNat → s.engine.lowerDue.lowered.getLsbD k = true →
        s.engine.widthOf k < w := by
      intro k hk hl
      rw [Engine.lowerDue_lowered, Bool.or_eq_true, decide_eq_true_eq] at hl
      rcases hl with hl | hdue
      · exact ((hlow k hk).1 hl).trans hlt
      · exact (Engine.mem_due.1 hdue).2.trans_lt hlt
    refine .of_waiting (w := w) ?_ ?_ ?_ ?_ ?_ ?_ ?_ ?_ <;> rw [he]
    · exact hsnap
    · exact hactive
    · exact hwidths
    · exact hmin
    · exact hlow'
    · exact hnext ▸ Nat.sub_le _ _
    · change w ≤ s.now + _
      rw [hnext]
      omega

/-- End leaves the engine IDLE (rule R162). -/
theorem endSlot_keeps_engineInv {s : State} (h : s.EngineInv) : (endSlot s).EngineInv :=
  .of_idle rfl h.engine.1

theorem engineStep_keeps_engineInv {s : State} (h : s.EngineInv) : (engineStep s).EngineInv := by
  rcases engineStep_cases s with ⟨hactive, hwait, he⟩ | ⟨-, he⟩ | ⟨-, he⟩ <;> rw [he]
  · exact wake_keeps_engineInv h hactive hwait
  · exact endSlot_keeps_engineInv h
  · exact h

/-- The widths a slot start loads are the registry's, all of them legal (rules R33, R158, R159). -/
theorem loadSnapshot_widthOf {s : State} (h : s.RegistryInv) {k : Nat} (hk : k < s.count) :
    Config.minPulseWidth ≤ (loadSnapshot s).widthOf k ∧
      (loadSnapshot s).widthOf k ≤ Config.maxPulseWidth := by
  obtain ⟨hle, hslots, -⟩ := h.contiguous
  obtain ⟨c, hc, -⟩ := hslots k hk
  have hentry : registryEntry s k = ⟨c.pin, c.width⟩ := by
    rw [registryEntry, ← slotId_eq, hc]
    rfl
  have hw : (loadSnapshot s).widthOf k = c.width.toNat := by
    rw [Engine.widthOf, loadSnapshot_snap_lt s hk (hk.trans_le hle), hentry]
    rfl
  rw [hw]
  exact h.widths c (State.mem_desc_of_desc? hc)

/-- A slot start loads the registry and waits for its least width, or is ENDING at once (rule R158). -/
theorem slotStart_establishes_engineInv {s : State} (h : s.RegistryInv) :
    (slotStart s).EngineInv := by
  have hsnap : (loadSnapshot s).snapN.toNat ≤ Config.maxChannels := h.contiguous.1
  have he : (slotStart s).engine = (loadSnapshot s).rise := rfl
  rcases Engine.rise_cases (loadSnapshot s) with ⟨hpending, hrise⟩ | ⟨w, hmin, hrise⟩ <;>
    rw [hrise] at he
  · exact .of_ending (by rw [he]) (by rw [he]; exact hsnap) (by rw [he]; exact hpending)
  · have hw := Engine.toNat_minPendingWidth hmin
    refine .of_waiting (w := w) ?_ ?_ ?_ ?_ ?_ ?_ ?_ ?_ <;> rw [he]
    · exact hsnap
    · exact fun k hk => loadSnapshot_widthOf h hk
    · exact hmin
    · exact fun k _ hl => absurd hl (by simp)
    · exact hw.le
    · exact hw.ge.trans (Nat.le_add_left _ _)

/-- Every delivery keeps the engine's invariants (rule R155). -/
theorem deliver_keeps_engineInv {s : State} (hreg : s.RegistryInv) (h : s.EngineInv) (code : Byte) :
    (deliver code s).EngineInv := by
  rcases deliver_cases code s with ⟨-, -, he⟩ | ⟨-, -, he⟩ | ⟨-, -, he⟩ | ⟨-, -, he⟩ | ⟨-, -, he⟩ <;>
    rw [he]
  · exact slotStart_establishes_engineInv hreg
  · exact h.congr rfl rfl
  · exact .of_idle rfl h.engine.1
  · exact h.congr rfl rfl
  · exact h.congr rfl rfl

/-! ## Tick -/

@[simp] theorem tickTrigger_engine (s : State) : (tickTrigger s).engine = s.engine := by
  unfold tickTrigger
  split_ifs <;> rfl

@[simp] theorem tickWait_gen (s : State) : (tickWait s).gen = s.gen := by
  unfold tickWait
  split_ifs <;> rfl

/-- What a Tick leaves alone (rule R143). -/
theorem tick_frame (s : State) : (tick s).desc = s.desc ∧ (tick s).registry = s.registry ∧
    (tick s).status = s.status := by
  unfold tick tickWait tickTrigger
  split_ifs <;> exact ⟨rfl, rfl, rfl⟩

/-- The three ways of the refresh trigger under a Tick: stopped, its last count, a count before
(rule R143). -/
theorem tick_gen_cases (s : State) :
    (s.gen.run = false ∧ (tick s).gen = s.gen) ∨
    (s.gen.run = true ∧ s.gen.trigCnt = 1 ∧
      (tick s).gen = ⟨true, BitVec.ofNat 14 Config.refreshUs⟩) ∨
    (s.gen.run = true ∧ s.gen.trigCnt ≠ 1 ∧ (tick s).gen = ⟨true, s.gen.trigCnt - 1⟩) := by
  rw [show (tick s).gen = (tickTrigger { s with now := s.now + 1 }).gen from tickWait_gen _]
  unfold tickTrigger
  split_ifs with hrun hlast
  · exact .inr (.inl ⟨hrun, sub_eq_zero.1 hlast, by simp [show s.gen.run = true from hrun]⟩)
  · exact .inr (.inr ⟨hrun, mt sub_eq_zero.2 hlast, by simp [show s.gen.run = true from hrun]⟩)
  · exact .inl ⟨by simpa using hrun, rfl⟩

/-- The refresh trigger stays in 1..10000 while the generator runs (rules R40, R143). -/
theorem tick_keeps_genOk {s : State} (h : s.GenOk) : (tick s).GenOk := by
  obtain ⟨hrun, htrig, -⟩ := id h
  have hcount : (tick s).count = s.count := by rw [State.count, (tick_frame s).2.1]; rfl
  rw [State.GenOk, hcount]
  rcases tick_gen_cases s with ⟨-, hg⟩ | ⟨hr, -, hg⟩ | ⟨hr, hne, hg⟩ <;> rw [hg]
  · exact h
  · exact ⟨by rw [← hrun, hr], fun _ => by decide, by simp⟩
  · have hpos := htrig hr
    have hne' : s.gen.trigCnt.toNat ≠ 1 := fun h1 => hne (BitVec.eq_of_toNat_eq h1)
    have hpred : (s.gen.trigCnt - 1).toNat = s.gen.trigCnt.toNat - 1 :=
      BitVec.toNat_sub_of_le (BitVec.le_def.2 hpos.1)
    exact ⟨by rw [← hrun, hr], fun _ => by simp only [hpred]; omega, by simp⟩

theorem tick_keeps_registryInv {s : State} (h : s.RegistryInv) : (tick s).RegistryInv := by
  obtain ⟨hdesc, hreg, -⟩ := tick_frame s
  exact h.of_frame hdesc hreg (tick_keeps_genOk h.gen)

/-- A Tick takes one µs off the train's wait (rules R46, R143). -/
theorem tick_keeps_engineInv {s : State} (h : s.EngineInv) (hen : tickEnabled s = true) :
    (tick s).EngineInv := by
  have hnow : (tick s).now = s.now + 1 := (tick_sameMoment s).now
  by_cases hactive : s.engine.st = .slotActive
  · have he : (tick s).engine = { s.engine with waitCnt := s.engine.waitCnt - 1 } := by
      simp [tick, tickWait, hactive]
    obtain ⟨hsome, hwidths, hmin, hlow, hwait, hstart⟩ := h.train hactive
    have hne : s.engine.waitCnt ≠ 0 := fun h0 => (tickEnabled_iff.1 hen).1 ⟨hactive, h0⟩
    have hpos : 1 ≤ s.engine.waitCnt.toNat := Nat.one_le_iff_ne_zero.2 fun h0 =>
      hne (BitVec.eq_of_toNat_eq h0)
    have hpred : (s.engine.waitCnt - 1).toNat = s.engine.waitCnt.toNat - 1 :=
      BitVec.toNat_sub_of_le (BitVec.le_def.2 hpos)
    refine ⟨fun _ => ?_, ?_⟩
    · rw [he, hnow]
      exact ⟨hsome, hwidths, hmin, hlow, by simp only [hpred]; omega, by simp only [hpred]; omega⟩
    · rw [State.EngineOk, he]
      exact h.engine
  · have he : (tick s).engine = s.engine := by simp [tick, tickWait, hactive]
    refine ⟨fun hact => absurd (he ▸ hact) hactive, ?_⟩
    rw [State.EngineOk, he]
    exact h.engine

/-! ## The trace -/

/-- An operation that takes no time keeps the trace in order (rules R15, R81). -/
theorem SameMoment.traceOk {s t : State} (h : SameMoment s t) (ht : s.TraceOk) : t.TraceOk := by
  obtain ⟨hnow, -, -, es, htrace, hes⟩ := h
  obtain ⟨hsorted, hpast⟩ := ht
  rw [State.TraceOk, htrace, hnow, List.map_append, List.pairwise_append]
  refine ⟨⟨hsorted, ?_, ?_⟩, ?_⟩
  · refine List.pairwise_map.2 (List.pairwise_of_forall_mem_list fun a ha b hb => ?_)
    rw [hes a ha, hes b hb]
  · simp only [List.forall_mem_map]
    exact fun a ha b hb => (hpast a ha).trans (hes b hb).ge
  · exact List.forall_mem_append.2 ⟨hpast, fun e he => (hes e he).le⟩

theorem step_keeps_traceOk {s t : State} (h : s.TraceOk) (hstep : step s = .next t) : t.TraceOk := by
  rcases step_sameMoment_or_tick hstep with hm | ⟨-, -, hm⟩
  · exact hm.traceOk h
  · exact hm.traceOk ⟨h.1, fun e he => (h.2 e he).trans (Nat.le_succ _)⟩

end Sys2Proof.Machine
end

section
/-! PROOFS. STATUS (10_state.md rules R49, R52): what a step can do to it, and why. -/

namespace Sys2Proof.Machine

/-- Only a legal command comes out of the decoder (rules R92, R95). -/
theorem wellFormed_of_decodeWord {n : Nat} {w : Word} {i : Instr} (h : decodeWord n w = .ok i) :
    i.wellFormed n = true := by
  unfold decodeWord at h
  dsimp only at h
  split at h
  case h_12 => cases h
  all_goals
    obtain ⟨-, hwf, rfl⟩ := checked_eq_ok.1 h
    exact hwf

theorem wellFormed_of_decode {n : Nat} {data : List Byte} {i : Instr} (h : decode n data = .ok i) :
    i.wellFormed n = true := by
  unfold decode at h
  split at h
  · exact wellFormed_of_decodeWord h
  · cases h

/-- A legal command names a descriptor the block holds (rules R92, R107). -/
theorem exists_desc?_of_wellFormed {s : State} {i : Instr} {d : Byte}
    (h : i.wellFormed s.nDesc = true) (hd : i.desc? = some d) : ∃ c, s.desc? d = some c := by
  have hlt : d.toNat < s.nDesc := by simpa [Instr.wellFormed, hd] using h
  exact ⟨_, List.getElem?_eq_getElem hlt⟩

/-- A legal command writes no STATUS bit (rule R108). -/
theorem exec_status_of_wellFormed {i : Instr} {s t : State} (hwf : i.wellFormed s.nDesc = true)
    (h : exec i s = .next t) : t.status = s.status := by
  rcases exec_cases h with ⟨d, hd, hnone, -⟩ | ⟨_, rfl⟩ | ⟨_, _, _, -, -, -, rfl⟩ |
    ⟨d, p, _, -, -, -, -, rfl⟩ | ⟨d, c, -, -, -, rfl⟩ | ⟨d, c, -, -, -, rfl⟩ | ⟨_, _, -, -, -, rfl⟩
  · obtain ⟨c, hc⟩ := exists_desc?_of_wellFormed hwf hd
    rw [hc] at hnone
    cases hnone
  · rfl
  · rfl
  · exact (attachEntry_frame d p s).2.1
  · exact (detachEntry_frame d c.index.toNat s).2.1
  · exact (detachEntry_frame d c.index.toNat s).2.1
  · rfl

/-- The step from `s` meets the condition that the bit records (rules R73, R97, R157, R164). -/
def StatusBit.Raised (s : State) : StatusBit → Prop
  | .badCmd => ∃ data rest r, s.schedule = .hostWrite s.base data :: rest ∧ data.length = 4 ∧
      decode s.nDesc data = .error r
  | .badAcc => ∃ off rest, off < 256 ∧
      ((∃ n, s.schedule = .hostRead (s.base + off) n :: rest ∧ readTarget off n = none) ∨
       (∃ data, s.schedule = .hostWrite (s.base + off) data :: rest ∧
         writeTarget off data.length = none))
  | .overrun => ∃ rest, s.schedule = .deliver 0x01 :: rest ∧ s.engine.st = .slotActive
  | .overlap => ∃ rest, s.schedule = .deliver 0x00 :: rest ∧ s.engine.st ≠ .idle

@[simp] theorem engineStep_status (s : State) : (engineStep s).status = s.status := by
  rcases engineStep_cases s with ⟨-, -, h⟩ | ⟨-, h⟩ | ⟨-, h⟩ <;> rw [h] <;> rfl

/-- The four things a step can do to STATUS (rules R49, R52, R200): nothing, set the bit whose condition
the step meets, clear the bits a STATUS write names, reset it. -/
theorem step_status_cases {s t : State} (h : step s = .next t) :
    t.status = s.status ∨
    (∃ b : StatusBit, b.Raised s ∧ t.status = s.status ||| b.mask) ∨
    (∃ data rest, s.schedule = .hostWrite (s.base + 0x08) data :: rest ∧ data.length = 4 ∧
      t.status = s.status &&& ~~~(busWord data &&& 0xF)) ∨
    (∃ rest, s.schedule = .reset :: rest ∧ t.status = 0) := by
  rcases step_cases h with ⟨-, -, rfl⟩ | ⟨-, -, rfl⟩ | ⟨u, rest, hs, hturn⟩
  · exact .inl (tick_frame s).2.2
  · exact .inl (engineStep_status s)
  rcases hturn with ⟨addr, n, rfl, rfl⟩ | ⟨addr, data, rfl, hw⟩ | ⟨code, rfl, rfl⟩ | ⟨-, -, rfl⟩ |
    ⟨-, -, rfl⟩ | ⟨-, rfl⟩ | ⟨rfl, rfl⟩
  · rcases hostRead_cases addr n { s with schedule := rest } with he | ⟨_, _, -, -, he⟩ |
      ⟨off, rfl, hoff, hillegal, he⟩ <;> rw [he]
    · exact .inl rfl
    · exact .inl rfl
    · exact .inr (.inl ⟨.badAcc, ⟨off, rest, hoff, .inl ⟨n, hs, hillegal⟩⟩, rfl⟩)
  · rcases hostWrite_cases hw with rfl | ⟨i, -, hdecode, hexec⟩ | ⟨r, rfl, hlen, hdecode, rfl⟩ |
      ⟨rfl, hlen, rfl⟩ | ⟨off, rfl, hoff, hillegal, rfl⟩
    · exact .inl rfl
    · exact .inl (exec_status_of_wellFormed (s := { s with schedule := rest })
        (wellFormed_of_decode hdecode) hexec)
    · exact .inr (.inl ⟨.badCmd, ⟨data, rest, r, hs, hlen, hdecode⟩, rfl⟩)
    · exact .inr (.inr (.inl ⟨data, rest, hs, hlen, rfl⟩))
    · exact .inr (.inl ⟨.badAcc, ⟨off, rest, hoff, .inr ⟨data, hs, hillegal⟩⟩, rfl⟩)
  · rcases deliver_cases code { s with schedule := rest } with ⟨-, -, he⟩ | ⟨rfl, hst, he⟩ |
      ⟨rfl, hst, he⟩ | ⟨-, -, he⟩ | ⟨-, -, he⟩ <;> rw [he]
    · exact .inl rfl
    · exact .inr (.inl ⟨.overlap, ⟨rest, hs, hst⟩, rfl⟩)
    · exact .inr (.inl ⟨.overrun, ⟨rest, hs, hst⟩, rfl⟩)
    · exact .inl rfl
    · exact .inl rfl
  · exact .inl (tick_frame _).2.2
  · exact .inl (engineStep_status s)
  · exact .inl (engineStep_status _)
  · exact .inr (.inr (.inr ⟨rest, hs, rfl⟩))

/-- STATUS bits 31..4 stay 0 (rule R49). -/
theorem step_keeps_statusOk {s t : State} (h : s.StatusOk) (hstep : step s = .next t) :
    t.StatusOk := by
  rw [State.StatusOk] at h ⊢
  rcases step_status_cases hstep with he | ⟨b, -, he⟩ | ⟨_, _, -, -, he⟩ | ⟨_, -, he⟩ <;> rw [he]
  · exact h
  · have hmask : b.mask.toNat < 16 := by cases b <;> decide
    exact (BitVec.toNat_or _ _).trans_lt (Nat.or_lt_two_pow (n := 4) h hmask)
  · exact ((BitVec.toNat_and _ _).trans_le Nat.and_le_left).trans_lt h
  · decide

/-- A STATUS write clears the bits 3..0 that are set in its value (rule R52). -/
theorem getLsbD_clearLow (x v : Word) (i : Nat) : (x &&& ~~~(v &&& 0xF)).getLsbD i =
    (x.getLsbD i && !(decide (i < 4) && v.getLsbD i)) := by
  have hlow : (0xF : Word).getLsbD i = decide (i < 4) := Nat.testBit_two_pow_sub_one 4 i
  rw [BitVec.getLsbD_and, BitVec.getLsbD_not, BitVec.getLsbD_and, hlow, Bool.and_comm (v.getLsbD i)]
  by_cases hi : i < 32
  · simp [hi]
  · simp [x.getLsbD_of_ge i (by omega)]

@[simp] theorem StatusBit.mask_getLsbD_pos (b b' : StatusBit) :
    b.mask.getLsbD b'.pos = decide (b = b') := by cases b <;> cases b' <;> decide

/-- A bit that a step sets records a condition that the step meets. -/
theorem StatusBit.raised_of_set {s t : State} {b : StatusBit} (hstep : step s = .next t)
    (hs : s.status.getLsbD b.pos = false) (ht : t.status.getLsbD b.pos = true) : b.Raised s := by
  rcases step_status_cases hstep with he | ⟨b', hraised, he⟩ | ⟨_, _, -, -, he⟩ | ⟨_, -, he⟩ <;>
    rw [he] at ht
  · exact Bool.noConfusion (hs.symm.trans ht)
  · rw [BitVec.getLsbD_or, hs, Bool.false_or, mask_getLsbD_pos, decide_eq_true_eq] at ht
    exact ht ▸ hraised
  · rw [BitVec.getLsbD_and, hs, Bool.false_and] at ht
    cases ht
  · simp at ht

/-- Settles O17: the bits' causes are the cases of what a step can do to STATUS. -/
theorem statusBitsAreStickyAndCaused : Obligations.StatusBitsAreStickyAndCaused := by
  intro s t hinv hstep
  have hset := fun b : StatusBit => StatusBit.raised_of_set (b := b) hstep
  refine ⟨step_keeps_statusOk hinv.status hstep, fun b hs ht => ?_, hset .badCmd, hset .badAcc,
    hset .overrun, hset .overlap⟩
  rcases step_status_cases hstep with he | ⟨b', -, he⟩ | ⟨data, rest, hturn, hlen, he⟩ |
    ⟨rest, hturn, -⟩
  · rw [he, hs] at ht
    cases ht
  · rw [he, BitVec.getLsbD_or, hs] at ht
    cases ht
  · refine ⟨rest, .inr ⟨data, hturn, hlen, ?_⟩⟩
    have hlow : b.pos < 4 := by cases b <;> decide
    rw [he, getLsbD_clearLow, hs] at ht
    simpa [hlow] using ht
  · exact ⟨rest, .inl hturn⟩

end Sys2Proof.Machine
end

section
/-! PROOFS. The invariant of the machine (Safety.lean) at reset and over every step of every agent
(70_reset_and_hazards.md rule R200; 10_state.md rule R36). -/

namespace Sys2Proof.Machine

/-! ## Reset -/

theorem State.initial_desc?_eq_some {n base : Nat} {d : Byte} {c : Desc}
    (h : (State.initial n base).desc? d = some c) : c = Desc.constructed :=
  List.eq_of_mem_replicate (State.mem_desc_of_desc? h)

/-- All descriptors are constructed and the registry is empty at reset (rules R34, R35, R200). -/
theorem State.initial_registryInv {n : Nat} (base : Nat) (hmin : 1 ≤ n) (hmax : n ≤ 256) :
    (State.initial n base).RegistryInv := by
  have hn : (State.initial n base).nDesc = n := List.length_replicate
  have hcount : (State.initial n base).count = 0 := rfl
  refine .of_indicesNameSlots (by rw [State.SizeOk, hn]; exact ⟨hmin, hmax⟩) (fun d c hc => ?_)
    ⟨Nat.zero_le _, fun i hi => absurd hi (by omega), fun i _ hi => ?_⟩ (fun d c hc ha => ?_)
    (.of_stopped rfl rfl)
  · rw [State.initial_desc?_eq_some hc]
    decide
  · simp [State.slotId, State.initial, Registry.empty, hi]
  · rw [State.initial_desc?_eq_some hc] at ha
    cases ha

/-- The invariant at reset: the engine is IDLE, STATUS clear and the trace empty. -/
theorem State.initial_inv {n : Nat} (base : Nat) (hmin : 1 ≤ n) (hmax : n ≤ 256) :
    (State.initial n base).Inv := by
  obtain ⟨size, widths, indices, contiguous, membership, gen⟩ :=
    State.initial_registryInv base hmin hmax
  have hidle : (State.initial n base).EngineInv := .of_idle rfl (Nat.zero_le _)
  exact ⟨size, widths, indices, contiguous, membership, gen, hidle.train, hidle.engine,
    Nat.zero_lt_succ 15, List.Pairwise.nil, List.forall_mem_nil _⟩

/-- Settles O57: the default parameters are legal ones too. -/
theorem resetMeetsTheInvariant : Obligations.ResetMeetsTheInvariant :=
  ⟨State.initial_inv _ (by decide) (by decide), fun _ base => State.initial_inv base⟩

theorem resetStep_keeps_registryInv {s : State} (h : s.RegistryInv) : (resetStep s).RegistryInv :=
  (State.initial_registryInv s.base h.size.1 h.size.2).congr rfl rfl rfl

/-! ## Every step -/

theorem hostRead_frame (addr n : Nat) (s : State) :
    (hostRead addr n s).desc = s.desc ∧ (hostRead addr n s).registry = s.registry ∧
      (hostRead addr n s).gen = s.gen ∧ (hostRead addr n s).engine = s.engine := by
  rcases hostRead_cases addr n s with h | ⟨_, _, -, -, h⟩ | ⟨_, -, -, -, h⟩ <;> rw [h] <;>
    exact ⟨rfl, rfl, rfl, rfl⟩

theorem engineStep_frame (s : State) : (engineStep s).desc = s.desc ∧
    (engineStep s).registry = s.registry ∧ (engineStep s).gen = s.gen := by
  rcases engineStep_cases s with ⟨-, -, h⟩ | ⟨-, h⟩ | ⟨-, h⟩ <;> rw [h] <;> exact ⟨rfl, rfl, rfl⟩

theorem deliver_frame (code : Byte) (s : State) : (deliver code s).desc = s.desc ∧
    (deliver code s).registry = s.registry ∧ (deliver code s).gen = s.gen := by
  rcases deliver_cases code s with ⟨-, -, h⟩ | ⟨-, -, h⟩ | ⟨-, -, h⟩ | ⟨-, -, h⟩ | ⟨-, -, h⟩ <;>
    rw [h] <;> exact ⟨rfl, rfl, rfl⟩

/-- A command writes no engine state (rule R79). -/
theorem exec_engine {i : Instr} {s t : State} (h : exec i s = .next t) : t.engine = s.engine := by
  rcases exec_cases h with ⟨_, -, -, rfl⟩ | ⟨_, rfl⟩ | ⟨_, _, _, -, -, -, rfl⟩ |
    ⟨d, p, _, -, -, -, -, rfl⟩ | ⟨d, c, -, -, -, rfl⟩ | ⟨d, c, -, -, -, rfl⟩ | ⟨_, _, -, -, -, rfl⟩
  · rfl
  · rfl
  · rfl
  · exact (attachEntry_frame d p s).1
  · exact (detachEntry_frame d c.index.toNat s).1
  · exact (detachEntry_frame d c.index.toNat s).1
  · rfl

/-- Of the writes by the host only a command changes more than STATUS and RESULT (rules R52, R73, R97). -/
theorem hostWrite_keeps {addr : Nat} {data : List Byte} {s t : State}
    (h : hostWrite addr data s = .next t) :
    (∃ i, exec i s = .next t) ∨
    (t.desc = s.desc ∧ t.registry = s.registry ∧ t.gen = s.gen ∧ t.engine = s.engine) := by
  rcases hostWrite_cases h with rfl | ⟨i, -, -, hexec⟩ | ⟨_, -, -, -, rfl⟩ | ⟨-, -, rfl⟩ |
    ⟨_, -, -, -, rfl⟩
  · exact .inr ⟨rfl, rfl, rfl, rfl⟩
  · exact .inl ⟨i, hexec⟩
  · exact .inr ⟨rfl, rfl, rfl, rfl⟩
  · exact .inr ⟨rfl, rfl, rfl, rfl⟩
  · exact .inr ⟨rfl, rfl, rfl, rfl⟩

theorem hostWrite_keeps_registryInv {addr : Nat} {data : List Byte} {s t : State}
    (h : s.RegistryInv) (hw : hostWrite addr data s = .next t) : t.RegistryInv := by
  rcases hostWrite_keeps hw with ⟨i, hexec⟩ | ⟨hdesc, hreg, hgen, -⟩
  · exact exec_keeps_registryInv h hexec
  · exact h.congr hdesc hreg hgen

theorem hostWrite_engine {addr : Nat} {data : List Byte} {s t : State}
    (hw : hostWrite addr data s = .next t) : t.engine = s.engine := by
  rcases hostWrite_keeps hw with ⟨i, hexec⟩ | ⟨-, -, -, hengine⟩
  · exact exec_engine hexec
  · exact hengine

theorem engineStep_keeps_registryInv {s : State} (h : s.RegistryInv) :
    (engineStep s).RegistryInv := by
  obtain ⟨hdesc, hreg, hgen⟩ := engineStep_frame s
  exact h.congr hdesc hreg hgen

theorem step_keeps_registryInv {s t : State} (h : s.RegistryInv) (hstep : step s = .next t) :
    t.RegistryInv := by
  rcases step_cases hstep with ⟨-, -, rfl⟩ | ⟨-, -, rfl⟩ | ⟨u, rest, -, hturn⟩
  · exact tick_keeps_registryInv h
  · exact engineStep_keeps_registryInv h
  have hrest : ({ s with schedule := rest } : State).RegistryInv := h.congr rfl rfl rfl
  rcases hturn with ⟨addr, n, -, rfl⟩ | ⟨addr, data, -, hw⟩ | ⟨code, -, rfl⟩ | ⟨-, -, rfl⟩ |
    ⟨-, -, rfl⟩ | ⟨-, rfl⟩ | ⟨-, rfl⟩
  · obtain ⟨hdesc, hreg, hgen, -⟩ := hostRead_frame addr n { s with schedule := rest }
    exact hrest.congr hdesc hreg hgen
  · exact hostWrite_keeps_registryInv hrest hw
  · obtain ⟨hdesc, hreg, hgen⟩ := deliver_frame code { s with schedule := rest }
    exact hrest.congr hdesc hreg hgen
  · exact tick_keeps_registryInv hrest
  · exact engineStep_keeps_registryInv h
  · exact engineStep_keeps_registryInv hrest
  · exact resetStep_keeps_registryInv hrest

/-- The engine's invariants rest on the registry's, from which a slot start loads its snapshot (rules
R46, R158). -/
theorem step_keeps_engineInv {s t : State} (hreg : s.RegistryInv) (h : s.EngineInv)
    (hstep : step s = .next t) : t.EngineInv := by
  rcases step_cases hstep with ⟨-, hen, rfl⟩ | ⟨-, -, rfl⟩ | ⟨u, rest, -, hturn⟩
  · exact tick_keeps_engineInv h hen
  · exact engineStep_keeps_engineInv h
  have hrest : ({ s with schedule := rest } : State).EngineInv := h.congr rfl rfl
  rcases hturn with ⟨addr, n, -, rfl⟩ | ⟨addr, data, -, hw⟩ | ⟨code, -, rfl⟩ | ⟨-, hen, rfl⟩ |
    ⟨-, -, rfl⟩ | ⟨-, rfl⟩ | ⟨-, rfl⟩
  · exact hrest.congr (hostRead_frame addr n _).2.2.2 (hostRead_sameMoment addr n _).now
  · exact hrest.congr (hostWrite_engine hw) (hostWrite_sameMoment hw).now
  · exact deliver_keeps_engineInv (s := { s with schedule := rest }) (hreg.congr rfl rfl rfl) hrest code
  · exact tick_keeps_engineInv hrest hen
  · exact engineStep_keeps_engineInv h
  · exact engineStep_keeps_engineInv hrest
  · exact .of_idle rfl (Nat.zero_le _)

/-- Settles O58: each part of the invariant is kept, by what the step's turn can do. -/
theorem stepKeepsTheInvariant : Obligations.StepKeepsTheInvariant := by
  intro s t hinv hstep
  obtain ⟨size, widths, indices, contiguous, membership, gen⟩ :=
    step_keeps_registryInv hinv.registryInv hstep
  obtain ⟨train, engine⟩ := step_keeps_engineInv hinv.registryInv hinv.engineInv hstep
  exact ⟨size, widths, indices, contiguous, membership, gen, train, engine,
    step_keeps_statusOk hinv.status hstep, step_keeps_traceOk hinv.trace hstep⟩

end Sys2Proof.Machine
end

section
/-! PROOFS. The register window (10_state.md rules R51 to R54; 20_memory.md rules R70, R72): what a legal
read and a STATUS write do, which offset is which register, and the fields each register shows. -/

namespace Sys2Proof.Machine

/-! ## Accesses in the window -/

theorem step_of_turn {s : State} {u : Turn} {rest : List Turn} (h : s.schedule = u :: rest) :
    step s = takeTurn u { s with schedule := rest } := by
  rw [step, h]

theorem windowOffset_base_add (base : Nat) {off : Nat} (h : off < Config.regBytes) :
    windowOffset base (base + off) = some off := by
  rw [windowOffset, if_pos ⟨Nat.le_add_right _ _, Nat.add_lt_add_left h _⟩, Nat.add_sub_cancel_left]

/-- Settles O13: the offset reaches the register, and the read writes `readData` alone. -/
theorem legalReadHasNoSideEffect : Obligations.LegalReadHasNoSideEffect := by
  intro s off rest r hoff htarget hs
  rw [step_of_turn hs, takeTurn, hostRead, windowOffset_base_add s.base hoff]
  dsimp only
  rw [memRead, htarget]
  rfl

/-- Settles O15: the write reaches STATUS, where it clears the low bits of its value. -/
theorem statusWriteClearsBits : Obligations.StatusWriteClearsBits := by
  intro s b0 b1 b2 b3 rest hs
  refine ⟨s.status &&& ~~~(wordOfLanes b0 b1 b2 b3 &&& 0xF), ?_,
    getLsbD_clearLow s.status (wordOfLanes b0 b1 b2 b3)⟩
  have htarget : writeTarget 0x08 [b0, b1, b2, b3].length = some .status := rfl
  rw [step_of_turn hs, takeTurn, hostWrite, windowOffset_base_add s.base (by decide)]
  dsimp only
  rw [memWrite, htarget]
  rfl

/-! ## Offsets -/

/-- The byte offset of a register (rule R51). -/
def Reg.offset : Reg → Nat
  | .cmd => 0x00
  | .result => 0x04
  | .status => 0x08
  | .gen => 0x0C
  | .cfg => 0x10
  | .engT => 0x14
  | .engLowered => 0x18
  | .slot i => 0x40 + 4 * i.val
  | .snap k => 0x80 + 4 * k.val

theorem bankReg_eq_some {f : Fin Config.maxChannels → Reg} {i : Nat} {r : Reg} :
    bankReg f i = some r ↔ ∃ k : Fin Config.maxChannels, k.val = i ∧ f k = r := by
  unfold bankReg
  split_ifs with h
  · constructor
    · intro e
      exact ⟨⟨i, h⟩, rfl, Option.some.inj e⟩
    · rintro ⟨k, rfl, rfl⟩
      rfl
  · simp only [false_iff]
    rintro ⟨k, rfl, -⟩
    exact h k.isLt

theorem Reg.ofOffset_offset (r : Reg) : Reg.ofOffset r.offset = some r := by
  cases r with
  | slot i | snap i => fin_cases i <;> rfl
  | _ => rfl

theorem Reg.offset_of_ofWordIndex {j : Nat} {r : Reg} (h : Reg.ofWordIndex j = some r) :
    r.offset = 4 * j := by
  unfold Reg.ofWordIndex at h
  split at h
  case h_8 =>
    split_ifs at h
    · obtain ⟨k, hk, rfl⟩ := bankReg_eq_some.1 h
      simp only [Reg.offset]
      omega
    · obtain ⟨k, hk, rfl⟩ := bankReg_eq_some.1 h
      simp only [Reg.offset]
      omega
  all_goals
    cases h
    rfl

/-- Each register stands at its offset and no other offset is a register's (rules R51, R74). -/
theorem Reg.ofOffset_eq_some {off : Nat} {r : Reg} :
    Reg.ofOffset off = some r ↔ off = r.offset := by
  constructor
  · intro h
    unfold Reg.ofOffset at h
    split_ifs at h
    rw [Reg.offset_of_ofWordIndex h]
    omega
  · rintro rfl
    exact r.ofOffset_offset

theorem Reg.offset_cases (r : Reg) :
    r.offset ∈ [0x00, 0x04, 0x08, 0x0C, 0x10, 0x14, 0x18] ∨
      (∃ i : Fin 10, r.offset = 0x40 + 4 * i.val) ∨ ∃ k : Fin 10, r.offset = 0x80 + 4 * k.val := by
  cases r with
  | slot i => exact .inr (.inl ⟨i, rfl⟩)
  | snap k => exact .inr (.inr ⟨k, rfl⟩)
  | _ => exact .inl (by decide)

/-! ## Contents -/

/-- The fields of GEN (rule R51). -/
theorem genValue_fields (s : State) :
    (genValue s).getLsbD 0 = s.gen.run ∧ (genValue s).extractLsb' 1 3 = 0 ∧
    (genValue s).extractLsb' 4 2 = s.engine.st.code ∧ (genValue s).extractLsb' 6 2 = 0 ∧
    (genValue s).extractLsb' 8 4 = s.registry.count ∧
    (genValue s).extractLsb' 12 4 = s.engine.snapN ∧
    (genValue s).extractLsb' 16 16 = s.gen.trigCnt.setWidth 16 := by
  unfold genValue
  simp (disch := omega) only [BitVec.extractLsb'_append_eq_of_le,
    BitVec.extractLsb'_append_eq_of_add_le, BitVec.getLsbD_append]
  simp

/-- The fields of CFG (rule R51). -/
theorem cfgValue_fields (s : State) :
    (cfgValue s).extractLsb' 0 8 = BitVec.ofNat 8 Config.maxChannels ∧
    (cfgValue s).extractLsb' 8 9 = BitVec.ofNat 9 s.nDesc ∧
    (cfgValue s).extractLsb' 17 7 = 0 ∧ (cfgValue s).extractLsb' 24 8 = Config.version := by
  unfold cfgValue
  simp (disch := omega) only [BitVec.extractLsb'_append_eq_of_le,
    BitVec.extractLsb'_append_eq_of_add_le]
  simp

/-- N_DESC fits its 9-bit field of CFG (rule R11). -/
theorem toNat_nDescField {n : Nat} (h : n ≤ 256) : (BitVec.ofNat 9 n).toNat = n := by
  rw [BitVec.toNat_ofNat]
  exact Nat.mod_eq_of_lt (by omega)

/-- CFG as a number (rule R51). -/
theorem cfgValue_toNat {s : State} (h : s.nDesc ≤ 256) :
    (cfgValue s).toNat = 0x0100000A + s.nDesc * 256 := by
  have hlow : (BitVec.ofNat 8 Config.maxChannels).toNat = 10 := rfl
  have hhigh : (Config.version ++ (0 : BitVec 7)).toNat = 128 := rfl
  rw [cfgValue, BitVec.toNat_append, BitVec.toNat_append, hlow, hhigh, toNat_nDescField h,
    ← Nat.shiftLeft_add_eq_or_of_lt (by decide), ← Nat.shiftLeft_add_eq_or_of_lt (by omega)]
  simp only [Nat.shiftLeft_eq]
  omega

/-- The two halves of ENG_T (rule R51). -/
theorem engT_fields (s : State) : (Reg.value s .engT).extractLsb' 0 16 = s.engine.curT ∧
    (Reg.value s .engT).extractLsb' 16 16 = s.engine.waitCnt := by
  unfold Reg.value
  simp (disch := omega) only [BitVec.extractLsb'_append_eq_of_le,
    BitVec.extractLsb'_append_eq_of_add_le]
  simp

/-- A field in the low bits of a word, zeros above it (rule R51). -/
theorem zeroExtended_fields {n : Nat} (x : BitVec n) (m : Nat) :
    (x.setWidth (n + m)).extractLsb' 0 n = x ∧ (x.setWidth (n + m)).extractLsb' n m = 0 := by
  constructor <;> apply BitVec.eq_of_getLsbD_eq <;> intro i hi
  · have hlt : i < n + m := by omega
    simp [hi, hlt]
  · simp

/-- The fields of SNAP[k] (rule R51). -/
theorem snap_fields (s : State) (k : Fin Config.maxChannels) :
    (Reg.value s (.snap k)).extractLsb' 0 16 = s.engine.snap[k].width ∧
    (Reg.value s (.snap k)).extractLsb' 16 8 = s.engine.snap[k].pin ∧
    (Reg.value s (.snap k)).extractLsb' 24 8 = 0 := by
  unfold Reg.value
  simp (disch := omega) only [BitVec.extractLsb'_append_eq_of_le,
    BitVec.extractLsb'_append_eq_of_add_le]
  simp

theorem Reg.readable_iff (r : Reg) : r.readable = true ↔ r ≠ .cmd := by
  cases r <;> simp [Reg.readable]

theorem Reg.writable_iff (r : Reg) : r.writable = true ↔ r = .cmd ∨ r = .status := by
  cases r <;> simp [Reg.writable]

/-- Settles O14: offsets by `Reg.ofOffset_eq_some`, contents field by field. -/
theorem registerMapShowsTheState : Obligations.RegisterMapShowsTheState := by
  refine ⟨⟨rfl, rfl, rfl, rfl, rfl, rfl, rfl, fun i => Reg.ofOffset_offset (.slot i),
    fun k => Reg.ofOffset_offset (.snap k), fun off r h => ?_⟩,
    fun r => ⟨r.readable_iff, r.writable_iff⟩, fun s hn => ?_, fun n base hn => ?_⟩
  · obtain rfl := Reg.ofOffset_eq_some.1 h
    exact r.offset_cases
  · obtain ⟨hrun, hz1, hst, hz6, hcount, hsnapN, htrig⟩ := genValue_fields s
    obtain ⟨hmax, hnDesc, hz17, hversion⟩ := cfgValue_fields s
    obtain ⟨hcurT, hwait⟩ := engT_fields s
    obtain ⟨hlowered, hz10⟩ := zeroExtended_fields s.engine.lowered 22
    refine ⟨rfl, rfl, hrun, hz1, hst, hz6, hcount, hsnapN, ?_, ?_, ?_, hz17, hversion, hcurT, hwait,
      hlowered, hz10, fun i => zeroExtended_fields s.registry.slot[i] 24, snap_fields s⟩
    · rw [Reg.value, htrig]
      exact BitVec.toNat_setWidth_of_le (by decide)
    · rw [Reg.value, hmax]
      rfl
    · rw [Reg.value, hnDesc, toNat_nDescField hn]
  · have hnDesc : (State.initial n base).nDesc = n := List.length_replicate
    refine ⟨rfl, rfl, ?_, ?_, ?_, ?_, fun i => ?_, fun k => ?_⟩
    · exact (by decide : genValue (State.initial 0 0) = 0)
    · rw [Reg.value, cfgValue_toNat (hnDesc.trans_le hn), hnDesc]
    · exact (by decide : (0 : Half) ++ (0 : Half) = (0 : Word))
    · simp [Reg.value, State.initial, Engine.atReset]
    · simp [Reg.value, State.initial, Registry.empty]
    · simp [Reg.value, State.initial, Engine.atReset]

end Sys2Proof.Machine
end

section
/-! PROOFS. Pins (10_state.md rule R55; 42_pulse_engine.md rules R169, R170): a pin's level is the last
one set, no command sets one, and what the function `train` does to the pins of its entries. -/

namespace Sys2Proof.Machine

/-! ## The levels set of a pin -/

/-- The levels that the events emitted at or before `t` set pin `p` to, in order (rule R55). -/
def levelsSet (tr : List Stamped) (t : Nat) (p : Byte) : List Level :=
  (tr.filter fun e => e.time ≤ t).filterMap fun e => e.event.setsPin p

theorem pinLevelAt_eq (tr : List Stamped) (t : Nat) (p : Byte) :
    pinLevelAt tr t p = (levelsSet tr t p).getLast?.getD (Config.initialPinLevel p) := rfl

@[simp] theorem levelsSet_append (a b : List Stamped) (t : Nat) (p : Byte) :
    levelsSet (a ++ b) t p = levelsSet a t p ++ levelsSet b t p := by simp [levelsSet]

theorem PortEvent.setsPin_eq_some {e : PortEvent} {p : Byte} {l : Level} :
    e.setsPin p = some l ↔ e = .set p l := by
  cases e <;> simp [PortEvent.setsPin]

theorem mem_levelsSet {tr : List Stamped} {t : Nat} {p : Byte} {l : Level} :
    l ∈ levelsSet tr t p ↔ ∃ e ∈ tr, e.time ≤ t ∧ e.event = .set p l := by
  simp [levelsSet, PortEvent.setsPin_eq_some, and_assoc]

theorem levelsSet_eq_nil {tr : List Stamped} {t : Nat} {p : Byte} :
    levelsSet tr t p = [] ↔ ∀ e ∈ tr, e.time ≤ t → ∀ l, e.event ≠ .set p l := by
  simp only [List.eq_nil_iff_forall_not_mem, mem_levelsSet]
  constructor
  · exact fun h e he ht l hl => h l ⟨e, he, ht, hl⟩
  · rintro h l ⟨e, he, ht, hl⟩
    exact h e he ht l hl

/-- Events that do not set the pin leave its level alone. -/
theorem pinLevelAt_append_of_silent {a b : List Stamped} {t : Nat} {p : Byte}
    (h : levelsSet b t p = []) : pinLevelAt (a ++ b) t p = pinLevelAt a t p := by
  rw [pinLevelAt_eq, levelsSet_append, h, List.append_nil, ← pinLevelAt_eq]

/-- A pin all of whose last events set it to `l` has that level. -/
theorem pinLevelAt_append_of_all {a b : List Stamped} {t : Nat} {p : Byte} {l : Level}
    (hne : levelsSet b t p ≠ []) (hall : ∀ x ∈ levelsSet b t p, x = l) :
    pinLevelAt (a ++ b) t p = l := by
  have hlast := hall _ (List.getLast_mem hne)
  rw [pinLevelAt_eq, levelsSet_append, List.getLast?_append, List.getLast?_eq_some_getLast hne, hlast]
  rfl

/-- Settles O54: the last event that sets the pin decides, and without one the free value stands. -/
theorem pinLevelIsTheLastSet : Obligations.PinLevelIsTheLastSet := by
  constructor
  · intro before after t u p l hu hafter
    have hset : levelsSet [⟨u, .set p l⟩] t p = [l] := by
      simp [levelsSet, hu, PortEvent.setsPin]
    rw [List.append_cons, pinLevelAt_append_of_silent (levelsSet_eq_nil.2 hafter)]
    exact pinLevelAt_append_of_all (by simp [hset]) (by simp [hset])
  · intro tr t p hnone
    rw [pinLevelAt_eq, levelsSet_eq_nil.2 hnone]
    rfl

/-! ## Commands -/

theorem mem_pinDrives {tr : List Stamped} {e : Stamped} :
    e ∈ pinDrives tr ↔ e ∈ tr ∧ ∃ p l, e.event = .set p l := by
  obtain ⟨time, event⟩ := e
  cases event <;> simp [pinDrives]

/-- Events that drive no pin set no pin's level. -/
theorem levelsSet_of_pinDrives_eq_nil {tr : List Stamped} (h : pinDrives tr = []) (t : Nat)
    (p : Byte) : levelsSet tr t p = [] := by
  refine levelsSet_eq_nil.2 fun e he _ l hl => ?_
  have hmem : e ∈ pinDrives tr := mem_pinDrives.2 ⟨he, p, l, hl⟩
  rw [h] at hmem
  cases hmem

theorem attachEntry_trace (d p : Byte) (s : State) :
    ∃ es, (attachEntry d p s).trace = s.trace ++ es ∧ pinDrives es = [] := by
  obtain ⟨-, -, -, -, -, -, -, -, -, -, hfirst, hlater⟩ := attachEntry_frame d p s
  by_cases h : s.registry.count = 0
  · exact ⟨_, (hfirst h).2, rfl⟩
  · exact ⟨_, (hlater h).2, rfl⟩

theorem detachEntry_trace (d : Byte) (i : Nat) (s : State) :
    ∃ es, (detachEntry d i s).trace = s.trace ++ es ∧ pinDrives es = [] := by
  obtain ⟨-, -, -, -, -, -, -, -, hlast, hother⟩ := detachEntry_frame d i s
  by_cases h : s.registry.count - 1 = 0
  · exact ⟨_, (hlast h).2, rfl⟩
  · exact ⟨[], by rw [(hother h).2, List.append_nil], rfl⟩

/-- The events of a command drive no pin (rules R110 to R130). -/
theorem exec_trace {i : Instr} {s t : State} (h : exec i s = .next t) :
    ∃ es, t.trace = s.trace ++ es ∧ pinDrives es = [] := by
  have silent : ∀ {u : State}, u.trace = s.trace → ∃ es, u.trace = s.trace ++ es ∧ pinDrives es = [] :=
    fun hu => ⟨[], by rw [hu, List.append_nil], rfl⟩
  rcases exec_cases h with ⟨_, -, -, rfl⟩ | ⟨_, rfl⟩ | ⟨_, _, _, -, -, -, rfl⟩ |
    ⟨d, p, _, -, -, -, -, rfl⟩ | ⟨d, c, -, -, -, rfl⟩ | ⟨d, c, -, -, -, rfl⟩ | ⟨_, _, -, -, -, rfl⟩
  · exact silent rfl
  · exact silent rfl
  · exact silent rfl
  · exact attachEntry_trace d p s
  · exact detachEntry_trace d c.index.toNat s
  · exact detachEntry_trace d c.index.toNat s
  · exact silent rfl

/-- Settles O35: a command's events drive no pin, and it takes no time. -/
theorem noCommandDrivesAPin : Obligations.NoCommandDrivesAPin := by
  intro s t i hexec
  obtain ⟨es, htrace, hes⟩ := exec_trace hexec
  constructor
  · rw [htrace, pinDrives_append, hes, List.append_nil]
  · intro p
    rw [htrace, (exec_sameMoment hexec).now]
    exact pinLevelAt_append_of_silent (levelsSet_of_pinDrives_eq_nil hes _ p)

/-! ## The train function -/

theorem mem_insertWidth {v x : Nat} {ws : List Nat} : x ∈ insertWidth v ws ↔ x = v ∨ x ∈ ws := by
  induction ws with
  | nil => simp [insertWidth]
  | cons w ws ih =>
    unfold insertWidth
    split_ifs with hlt heq
    · simp
    · simp [heq]
    · simp only [List.mem_cons, ih]
      tauto

theorem insertWidth_sorted (v : Nat) {ws : List Nat} (h : ws.Pairwise (· < ·)) :
    (insertWidth v ws).Pairwise (· < ·) := by
  induction ws with
  | nil => exact List.pairwise_singleton _ _
  | cons w ws ih =>
    obtain ⟨hw, hws⟩ := List.pairwise_cons.1 h
    unfold insertWidth
    split_ifs with hlt heq
    · refine List.pairwise_cons.2 ⟨fun x hx => ?_, h⟩
      rcases List.mem_cons.1 hx with rfl | hx
      · exact hlt
      · exact hlt.trans (hw x hx)
    · exact h
    · refine List.pairwise_cons.2 ⟨fun x hx => ?_, ih hws⟩
      rcases mem_insertWidth.1 hx with rfl | hx
      · omega
      · exact hw x hx

theorem mem_distinctWidths {es : List SnapEntry} {v : Nat} :
    v ∈ distinctWidths es ↔ ∃ x ∈ es, x.width.toNat = v := by
  induction es with
  | nil => simp [distinctWidths]
  | cons x es ih =>
    rw [show distinctWidths (x :: es) = insertWidth x.width.toNat (distinctWidths es) from rfl,
      mem_insertWidth, ih]
    simp [eq_comm]

theorem distinctWidths_sorted (es : List SnapEntry) : (distinctWidths es).Pairwise (· < ·) := by
  induction es with
  | nil => exact List.Pairwise.nil
  | cons x es ih => exact insertWidth_sorted _ ih

/-- A list is cut into its fibres over a list of keys without repeats that has every key. -/
theorem flatMap_filter_perm {α : Type} (f : α → Nat) {ws : List Nat} (hws : ws.Nodup) {es : List α}
    (hes : ∀ x ∈ es, f x ∈ ws) : (ws.flatMap fun v => es.filter fun x => f x = v).Perm es := by
  induction ws generalizing es with
  | nil => simp [List.eq_nil_iff_forall_not_mem.2 fun x hx => List.not_mem_nil (hes x hx)]
  | cons w ws ih =>
    obtain ⟨hw, hws⟩ := List.nodup_cons.1 hws
    have hrest : (ws.flatMap fun v => es.filter fun x => f x = v) =
        ws.flatMap fun v => (es.filter fun x => !decide (f x = w)).filter fun x => f x = v := by
      refine List.flatMap_congr fun v hv => ?_
      rw [List.filter_filter]
      refine List.filter_congr fun x _ => ?_
      have hvw : v ≠ w := fun e => hw (e ▸ hv)
      by_cases hx : f x = v <;> simp [hx, hvw]
    rw [List.flatMap_cons, hrest]
    refine .trans (.append_left _ (ih hws fun x hx => ?_)) (List.filter_append_perm _ es)
    simp only [List.mem_filter, Bool.not_eq_true', decide_eq_false_iff_not] at hx
    exact (List.mem_cons.1 (hes x hx.1)).resolve_left hx.2

/-- The rises of a train, one per entry at offset 0 (rule R169). -/
def trainRises (es : List SnapEntry) : List TrainEvent := es.map fun x => ⟨0, x.pin, .high⟩

/-- The falls of a train, width by width (rule R169). -/
def trainFalls (es : List SnapEntry) : List TrainEvent :=
  (distinctWidths es).flatMap fun v =>
    (es.filter fun x => x.width.toNat = v).map fun x => ⟨v, x.pin, .low⟩

theorem train_eq (es : List SnapEntry) : train es = trainRises es ++ trainFalls es := rfl

theorem mem_trainRises {es : List SnapEntry} {e : TrainEvent} :
    e ∈ trainRises es ↔ ∃ x ∈ es, e = ⟨0, x.pin, .high⟩ := by
  simp [trainRises, eq_comm]

/-- Every entry falls at its own width. -/
theorem trainFalls_perm (es : List SnapEntry) :
    (trainFalls es).Perm (es.map fun x => ⟨x.width.toNat, x.pin, .low⟩) := by
  have hfibre : ∀ v, ((es.filter fun x => x.width.toNat = v).map fun x =>
      (⟨v, x.pin, .low⟩ : TrainEvent)) =
      (es.filter fun x => x.width.toNat = v).map fun x => ⟨x.width.toNat, x.pin, .low⟩ := by
    intro v
    refine List.map_congr_left fun x hx => ?_
    rw [(of_decide_eq_true (List.mem_filter.1 hx).2 : x.width.toNat = v)]
  rw [trainFalls]
  simp only [hfibre, ← List.map_flatMap]
  refine (flatMap_filter_perm (fun x : SnapEntry => x.width.toNat) ?_ fun x hx => ?_).map _
  · exact (distinctWidths_sorted es).imp fun h => h.ne
  · exact mem_distinctWidths.2 ⟨x, hx, rfl⟩

theorem mem_trainFalls {es : List SnapEntry} {e : TrainEvent} :
    e ∈ trainFalls es ↔ ∃ x ∈ es, e = ⟨x.width.toNat, x.pin, .low⟩ := by
  simp [(trainFalls_perm es).mem_iff, eq_comm]

/-- The falls come in time order, as the distinct widths increase. -/
theorem trainFalls_sorted (es : List SnapEntry) :
    (trainFalls es).Pairwise fun a b => a.offset ≤ b.offset := by
  have hoffset : ∀ {v e}, e ∈ (es.filter fun x => x.width.toNat = v).map (fun x =>
      (⟨v, x.pin, .low⟩ : TrainEvent)) → e.offset = v := by
    intro v e he
    obtain ⟨x, -, rfl⟩ := List.mem_map.1 he
    rfl
  refine List.pairwise_flatMap.2 ⟨fun v _ => ?_, (distinctWidths_sorted es).imp fun hlt a ha b hb => ?_⟩
  · exact List.pairwise_of_forall_mem_list fun a ha b hb => by rw [hoffset ha, hoffset hb]
  · rw [hoffset ha, hoffset hb]
    exact hlt.le

/-- Settles O53: the falls are the entries' own in another order, and the rises come before them. -/
theorem trainFunctionPulsesEveryEntry : Obligations.TrainFunctionPulsesEveryEntry := by
  intro es
  refine ⟨(trainFalls_perm es).append_left _, ?_, fun hwidth e he => ?_⟩
  · rw [train_eq, List.pairwise_map, List.pairwise_append]
    refine ⟨List.pairwise_of_forall_mem_list fun a ha b _ => ?_, trainFalls_sorted es,
      fun a ha b _ => ?_⟩ <;>
    · obtain ⟨x, -, rfl⟩ := mem_trainRises.1 ha
      exact Nat.zero_le _
  · rw [train_eq, List.mem_append, mem_trainRises, mem_trainFalls] at he
    obtain ⟨x, -, rfl⟩ | ⟨x, hx, rfl⟩ := he
    · exact Nat.zero_le _
    · exact hwidth x hx

/-! ## A pin several entries hold -/

theorem mem_levelsSet_stamped {evs : List TrainEvent} {ts t : Nat} {p : Byte} {l : Level} :
    l ∈ levelsSet (evs.map (TrainEvent.stamped ts)) t p ↔
      ∃ e ∈ evs, ts + e.offset ≤ t ∧ e.pin = p ∧ e.level = l := by
  simp [mem_levelsSet, TrainEvent.stamped]

theorem mem_levelsSet_rises {es : List SnapEntry} {ts t : Nat} {p : Byte} {l : Level} :
    l ∈ levelsSet ((trainRises es).map (TrainEvent.stamped ts)) t p ↔
      ts ≤ t ∧ l = .high ∧ ∃ x ∈ es, x.pin = p := by
  rw [mem_levelsSet_stamped]
  constructor
  · rintro ⟨e, he, ht, hp, hl⟩
    obtain ⟨x, hx, rfl⟩ := mem_trainRises.1 he
    exact ⟨ht, hl.symm, x, hx, hp⟩
  · rintro ⟨ht, rfl, x, hx, hp⟩
    exact ⟨_, mem_trainRises.2 ⟨x, hx, rfl⟩, ht, hp, rfl⟩

theorem mem_levelsSet_falls {es : List SnapEntry} {ts t : Nat} {p : Byte} {l : Level} :
    l ∈ levelsSet ((trainFalls es).map (TrainEvent.stamped ts)) t p ↔
      l = .low ∧ ∃ x ∈ es, x.pin = p ∧ ts + x.width.toNat ≤ t := by
  rw [mem_levelsSet_stamped]
  constructor
  · rintro ⟨e, he, ht, hp, hl⟩
    obtain ⟨x, hx, rfl⟩ := mem_trainFalls.1 he
    exact ⟨hl.symm, x, hx, hp, ht⟩
  · rintro ⟨rfl, x, hx, hp, ht⟩
    exact ⟨_, mem_trainFalls.2 ⟨x, hx, rfl⟩, ht, hp, rfl⟩

/-- Settles O55: before the least width only the rises have come, from it on a fall is the last. -/
theorem duplicatePinFallsAtItsLeastWidth : Obligations.DuplicatePinFallsAtItsLeastWidth := by
  intro es ts t p w _ hmin
  rw [List.min?_eq_some_iff, List.mem_map] at hmin
  obtain ⟨⟨x, hx, rfl⟩, hleast⟩ := hmin
  obtain ⟨hxe, hxp⟩ : x ∈ es ∧ x.pin = p := by simpa using hx
  have hleast' : ∀ y ∈ es, y.pin = p → x.width.toNat ≤ y.width.toNat := fun y hy hyp =>
    hleast _ (List.mem_map.2 ⟨y, List.mem_filter.2 ⟨hy, by simpa using hyp⟩, rfl⟩)
  rw [train_eq, List.map_append]
  constructor
  · intro hstart hbefore
    have hsilent : levelsSet ((trainFalls es).map (TrainEvent.stamped ts)) t p = [] := by
      refine List.eq_nil_iff_forall_not_mem.2 fun l hl => ?_
      obtain ⟨-, y, hy, hyp, hyt⟩ := mem_levelsSet_falls.1 hl
      have := hleast' y hy hyp
      omega
    rw [pinLevelAt_append_of_silent hsilent]
    refine pinLevelAt_append_of_all (a := []) (List.ne_nil_of_mem (a := .high) ?_) fun l hl => ?_
    · exact mem_levelsSet_rises.2 ⟨hstart, rfl, x, hxe, hxp⟩
    · exact (mem_levelsSet_rises.1 hl).2.1
  · intro hafter
    refine pinLevelAt_append_of_all (List.ne_nil_of_mem (a := .low) ?_) fun l hl => ?_
    · exact mem_levelsSet_falls.2 ⟨rfl, x, hxe, hxp, hafter⟩
    · exact (mem_levelsSet_falls.1 hl).1

end Sys2Proof.Machine
end

section
/-! PROOFS. STATUS as data: nothing but STATUS and what a read returns depends on it (10_state.md rule
R49). -/

namespace Sys2Proof.Machine

/-- `s` with another STATUS and other data returned by the latest read. -/
def State.withStatus (s : State) (v : Word) (rd : List Byte) : State :=
  { s with status := v, readData := rd }

/-- `t` is `s` but for STATUS and the data of the latest read. -/
def SameButStatus (s t : State) : Prop := ∃ v rd, t = s.withStatus v rd

/-- Both outcomes are next states, the same but for STATUS and the data of the latest read. -/
inductive OutSameButStatus : Out → Out → Prop
  | next {s t : State} (h : SameButStatus s t) : OutSameButStatus (.next s) (.next t)

section
variable (s : State) (v : Word) (rd : List Byte)

@[simp] theorem withStatus_registry : (s.withStatus v rd).registry = s.registry := rfl
@[simp] theorem withStatus_gen : (s.withStatus v rd).gen = s.gen := rfl
@[simp] theorem withStatus_engine : (s.withStatus v rd).engine = s.engine := rfl
@[simp] theorem withStatus_base : (s.withStatus v rd).base = s.base := rfl
@[simp] theorem withStatus_schedule : (s.withStatus v rd).schedule = s.schedule := rfl
@[simp] theorem withStatus_nDesc : (s.withStatus v rd).nDesc = s.nDesc := rfl
@[simp] theorem withStatus_desc? (d : Byte) : (s.withStatus v rd).desc? d = s.desc? d := rfl

/-! ## Operations of the commands -/

theorem attachEntry_withStatus (d p : Byte) :
    attachEntry d p (s.withStatus v rd) = (attachEntry d p s).withStatus v rd := by
  unfold attachEntry
  rw [withStatus_registry]
  split_ifs <;> rfl

theorem detachEntry_withStatus (d : Byte) (i : Nat) :
    detachEntry d i (s.withStatus v rd) = (detachEntry d i s).withStatus v rd := by
  unfold detachEntry
  rw [withStatus_registry]
  split_ifs <;> rfl

theorem illegalCommand_sameButStatus :
    SameButStatus (illegalCommand s) (illegalCommand (s.withStatus v rd)) :=
  ⟨v ||| StatusBit.badCmd.mask, rd, rfl⟩

/-- A command finds the same descriptor, and an id out of range is illegal in both. -/
theorem withDesc_sameButStatus (d : Byte) {k k' : Desc → State}
    (h : ∀ c, SameButStatus (k c) (k' c)) :
    SameButStatus (withDesc d s k) (withDesc d (s.withStatus v rd) k') := by
  cases hd : s.desc? d with
  | none =>
    rw [withDesc_none k hd, withDesc_none k' ((withStatus_desc? s v rd d).trans hd)]
    exact illegalCommand_sameButStatus s v rd
  | some c =>
    rw [withDesc_some k hd, withDesc_some k' ((withStatus_desc? s v rd d).trans hd)]
    exact h c

/-- No command reads STATUS (rules R110 to R130). -/
theorem exec_sameButStatus (i : Instr) :
    OutSameButStatus (exec i s) (exec i (s.withStatus v rd)) := by
  cases i with
  | nop => exact .next ⟨v, rd, rfl⟩
  | attach d p =>
    refine .next (withDesc_sameButStatus s v rd d fun c => ?_)
    rw [withStatus_registry]
    split_ifs
    · exact ⟨v, rd, rfl⟩
    · exact ⟨v, rd, rfl⟩
    · rw [attachEntry_withStatus]
      exact ⟨v, rd, rfl⟩
  | detach d =>
    refine .next (withDesc_sameButStatus s v rd d fun c => ?_)
    split_ifs
    · rw [detachEntry_withStatus]
      exact ⟨v, rd, rfl⟩
    · exact ⟨v, rd, rfl⟩
  | release d =>
    refine .next (withDesc_sameButStatus s v rd d fun c => ?_)
    split_ifs
    · rw [detachEntry_withStatus]
      exact ⟨v, rd, rfl⟩
    · exact ⟨v, rd, rfl⟩
  | write d | writeUs d | read d | readUs d | attached d | index d | pin d =>
    exact .next (withDesc_sameButStatus s v rd d fun c => ⟨v, rd, rfl⟩)

/-! ## Bus accesses -/

/-- A read may return STATUS, and does nothing else with it (rules R53, R54, R73). -/
theorem hostRead_sameButStatus (addr n : Nat) :
    SameButStatus (hostRead addr n s) (hostRead addr n (s.withStatus v rd)) := by
  unfold hostRead
  rw [withStatus_base]
  cases windowOffset s.base addr with
  | none => exact ⟨v, rd, rfl⟩
  | some off =>
    dsimp only
    unfold memRead
    cases readTarget off n with
    | none => exact ⟨v ||| StatusBit.badAcc.mask, List.replicate n 0, rfl⟩
    | some r => exact ⟨v, lanesOfWord (r.value (s.withStatus v rd)), rfl⟩

theorem runCommand_sameButStatus (data : List Byte) :
    OutSameButStatus (runCommand data s) (runCommand data (s.withStatus v rd)) := by
  unfold runCommand
  rw [withStatus_nDesc]
  cases decode s.nDesc data with
  | ok i => exact exec_sameButStatus s v rd i
  | error r => exact .next (illegalCommand_sameButStatus s v rd)

/-- What a write does but for STATUS does not depend on STATUS (rules R52, R73, R90). -/
theorem memWrite_sameButStatus (off : Nat) (data : List Byte) :
    OutSameButStatus (memWrite off data s) (memWrite off data (s.withStatus v rd)) := by
  unfold memWrite
  split
  · exact runCommand_sameButStatus s v rd data
  · exact .next ⟨v &&& ~~~(busWord data &&& 0xF), rd, rfl⟩
  · exact .next ⟨v ||| StatusBit.badAcc.mask, rd, rfl⟩

theorem hostWrite_sameButStatus (addr : Nat) (data : List Byte) :
    OutSameButStatus (hostWrite addr data s) (hostWrite addr data (s.withStatus v rd)) := by
  unfold hostWrite
  rw [withStatus_base]
  cases windowOffset s.base addr with
  | none => exact .next ⟨v, rd, rfl⟩
  | some off => exact memWrite_sameButStatus s v rd off data

/-! ## Engine, timebase and events -/

theorem wake_withStatus : wake (s.withStatus v rd) = (wake s).withStatus v rd := rfl

theorem endSlot_withStatus : endSlot (s.withStatus v rd) = (endSlot s).withStatus v rd := rfl

theorem engineStep_withStatus :
    engineStep (s.withStatus v rd) = (engineStep s).withStatus v rd := by
  have hwake : wakeEnabled (s.withStatus v rd) = wakeEnabled s := rfl
  have hend : endEnabled (s.withStatus v rd) = endEnabled s := rfl
  unfold engineStep
  rw [hwake, hend, wake_withStatus, endSlot_withStatus]
  split_ifs <;> rfl

theorem tickTrigger_withStatus :
    tickTrigger (s.withStatus v rd) = (tickTrigger s).withStatus v rd := by
  unfold tickTrigger
  rw [withStatus_gen]
  split_ifs <;> rfl

theorem tickWait_withStatus : tickWait (s.withStatus v rd) = (tickWait s).withStatus v rd := by
  unfold tickWait
  rw [withStatus_engine]
  split_ifs <;> rfl

theorem tick_withStatus : tick (s.withStatus v rd) = (tick s).withStatus v rd := by
  rw [tick, tick, ← tickWait_withStatus, ← tickTrigger_withStatus]
  rfl

/-- A delivery sets STATUS bits and does the same otherwise (rules R155, R157, R164). -/
theorem deliver_sameButStatus (code : Byte) :
    SameButStatus (deliver code s) (deliver code (s.withStatus v rd)) := by
  unfold deliver
  cases eventKind code with
  | slotStarted =>
    dsimp only [slotStarted]
    rw [withStatus_engine]
    split_ifs
    · exact ⟨v, rd, rfl⟩
    · exact ⟨v ||| StatusBit.overlap.mask, rd, rfl⟩
  | timerExpiry =>
    dsimp only [timerExpiry]
    rw [withStatus_engine]
    split_ifs
    · exact ⟨v ||| StatusBit.overrun.mask, rd, rfl⟩
    · exact ⟨v, rd, rfl⟩
  | radio => exact ⟨v, rd, rfl⟩
  | other c => exact ⟨v, rd, rfl⟩

theorem resetStep_sameButStatus : SameButStatus (resetStep s) (resetStep (s.withStatus v rd)) :=
  ⟨0, rd, rfl⟩

/-! ## One step -/

theorem takeTurn_sameButStatus (u : Turn) :
    OutSameButStatus (takeTurn u s) (takeTurn u (s.withStatus v rd)) := by
  cases u with
  | hostRead addr n => exact .next (hostRead_sameButStatus s v rd addr n)
  | hostWrite addr data => exact hostWrite_sameButStatus s v rd addr data
  | deliver code => exact .next (deliver_sameButStatus s v rd code)
  | tick =>
    have hen : tickEnabled (s.withStatus v rd) = tickEnabled s := rfl
    unfold takeTurn
    rw [hen]
    split_ifs
    · exact .next ⟨v, rd, tick_withStatus s v rd⟩
    · exact .next ⟨v, rd, engineStep_withStatus { s with schedule := .tick :: s.schedule } v rd⟩
  | engine => exact .next ⟨v, rd, engineStep_withStatus s v rd⟩
  | reset => exact .next (resetStep_sameButStatus s v rd)

theorem advance_withStatus : advance (s.withStatus v rd) = (advance s).withStatus v rd := by
  have hen : tickEnabled (s.withStatus v rd) = tickEnabled s := rfl
  unfold advance
  rw [hen, tick_withStatus, engineStep_withStatus]
  split_ifs <;> rfl

theorem step_sameButStatus : OutSameButStatus (step s) (step (s.withStatus v rd)) := by
  unfold step
  rw [withStatus_schedule]
  cases s.schedule with
  | nil => exact .next ⟨v, rd, advance_withStatus s v rd⟩
  | cons u rest => exact takeTurn_sameButStatus { s with schedule := rest } v rd u

end

theorem OutSameButStatus.exists_next {t : State} {out : Out} (h : OutSameButStatus (.next t) out) :
    ∃ v rd, out = .next (t.withStatus v rd) := by
  obtain ⟨v, rd, rfl⟩ := h
  exact ⟨v, rd, rfl⟩

/-- Settles O19: every step carries STATUS and the data read along, and decides nothing by them. -/
theorem statusChangesNoBehaviour : Obligations.StatusChangesNoBehaviour := by
  intro s t v hstep
  have hsame := step_sameButStatus s v s.readData
  rw [hstep] at hsame
  exact hsame.exists_next

end Sys2Proof.Machine
end

section
/-! PROOFS. The accesses of the register window (20_memory.md rules R70 to R73, R84, R90; 60_exceptions.md
rule R182): which are legal, what a step does whose turn is one, inside the window or outside it, and that
a step sets one STATUS bit at most. -/

namespace Sys2Proof.Machine

/-! ## Steps whose turn is an access -/

theorem windowOffset_eq_none {base addr : Nat} (h : addr < base ∨ base + Config.regBytes ≤ addr) :
    windowOffset base addr = none := by
  rw [windowOffset, if_neg (by omega)]

section
variable {s : State} {rest : List Turn} {off addr n : Nat} {data : List Byte}

/-- A read in the window reaches the block at its offset (rule R70). -/
theorem step_of_hostRead_inside (hoff : off < Config.regBytes)
    (hs : s.schedule = .hostRead (s.base + off) n :: rest) :
    step s = .next (memRead off n { s with schedule := rest }) := by
  rw [step_of_turn hs, takeTurn, hostRead, windowOffset_base_add s.base hoff]

/-- A write in the window reaches the block at its offset (rule R70). -/
theorem step_of_hostWrite_inside (hoff : off < Config.regBytes)
    (hs : s.schedule = .hostWrite (s.base + off) data :: rest) :
    step s = memWrite off data { s with schedule := rest } := by
  rw [step_of_turn hs, takeTurn, hostWrite, windowOffset_base_add s.base hoff]

theorem step_of_hostRead_outside (hout : addr < s.base ∨ s.base + Config.regBytes ≤ addr)
    (hs : s.schedule = .hostRead addr n :: rest) : step s = .next { s with schedule := rest } := by
  rw [step_of_turn hs, takeTurn, hostRead, windowOffset_eq_none hout]

theorem step_of_hostWrite_outside (hout : addr < s.base ∨ s.base + Config.regBytes ≤ addr)
    (hs : s.schedule = .hostWrite addr data :: rest) : step s = .next { s with schedule := rest } := by
  rw [step_of_turn hs, takeTurn, hostWrite, windowOffset_eq_none hout]

/-- A write of four lanes at offset 0x00 is a CMD write (rule R90). -/
theorem step_of_cmdWrite (hlen : data.length = 4) (hs : s.schedule = .hostWrite s.base data :: rest) :
    step s = runCommand data { s with schedule := rest } := by
  rw [step_of_hostWrite_inside (off := 0) (by decide) hs, memWrite, hlen]
  rfl

end

/-- Settles O16: no offset stands for such an address, so only the turn passes. -/
theorem accessOutsideWindowDoesNothing : Obligations.AccessOutsideWindowDoesNothing :=
  fun _ _ _ _ _ hout => ⟨step_of_hostRead_outside hout, step_of_hostWrite_outside hout⟩

/-! ## Legal and illegal accesses (rules R72, R73) -/

/-- A read is legal iff four bytes wide and at the offset of a register other than CMD (rule R72). -/
theorem readTarget_eq_some {off n : Nat} {r : Reg} :
    readTarget off n = some r ↔ n = 4 ∧ off = r.offset ∧ r ≠ .cmd := by
  unfold readTarget
  split_ifs with hn
  · rw [Option.filter_eq_some_iff, Reg.ofOffset_eq_some, Reg.readable_iff, and_iff_right hn]
  · simp [hn]

theorem exists_readable_offset_iff (off : Nat) :
    (∃ r : Reg, off = r.offset ∧ r ≠ .cmd) ↔
      off % 4 = 0 ∧
        (off ∈ [0x04, 0x08, 0x0C, 0x10, 0x14, 0x18] ∨ (0x40 ≤ off ∧ off ≤ 0x64) ∨
          (0x80 ≤ off ∧ off ≤ 0xA4)) := by
  constructor
  · rintro ⟨r, rfl, hr⟩
    cases r with
    | cmd => exact absurd rfl hr
    | slot i | snap i =>
      have hi : i.val < 10 := i.isLt
      simp only [Reg.offset]
      omega
    | _ => simp [Reg.offset]
  · rintro ⟨halign, hlow | ⟨hmin, hmax⟩ | ⟨hmin, hmax⟩⟩
    · fin_cases hlow
      · exact ⟨.result, rfl, nofun⟩
      · exact ⟨.status, rfl, nofun⟩
      · exact ⟨.gen, rfl, nofun⟩
      · exact ⟨.cfg, rfl, nofun⟩
      · exact ⟨.engT, rfl, nofun⟩
      · exact ⟨.engLowered, rfl, nofun⟩
    · have hi : (off - 0x40) / 4 < 10 := by omega
      exact ⟨.slot ⟨_, hi⟩, by simp only [Reg.offset]; omega, nofun⟩
    · have hi : (off - 0x80) / 4 < 10 := by omega
      exact ⟨.snap ⟨_, hi⟩, by simp only [Reg.offset]; omega, nofun⟩

theorem writeTarget_isSome {off n : Nat} :
    (writeTarget off n).isSome = true ↔ n = 4 ∧ (off = 0x00 ∨ off = 0x08) := by
  rw [writeTarget_eq]
  split_ifs <;> simp [*]

/-- Settles O11: the readable registers by their offsets, the writable ones by `writeTarget_eq`. -/
theorem legalAccessesAreTheseOffsets : Obligations.LegalAccessesAreTheseOffsets := by
  intro off n
  refine ⟨?_, writeTarget_isSome⟩
  simp only [Option.isSome_iff_exists, readTarget_eq_some, exists_and_left]
  rw [exists_readable_offset_iff]

theorem memRead_of_legal {off n : Nat} {r : Reg} (h : readTarget off n = some r) (s : State) :
    memRead off n s = { s with readData := lanesOfWord (r.value s) } := by
  rw [memRead, h]

theorem memRead_of_illegal {off n : Nat} (h : readTarget off n = none) (s : State) :
    memRead off n s = flag .badAcc { s with readData := List.replicate n 0 } := by
  rw [memRead, h]

theorem memWrite_of_illegal {off : Nat} {data : List Byte} (h : writeTarget off data.length = none)
    (s : State) : memWrite off data s = .next (flag .badAcc s) := by
  rw [memWrite, h]

/-- Settles O12: the access reaches the block, has no target there, and flags BADACC. -/
theorem illegalAccessOnlyFlags : Obligations.IllegalAccessOnlyFlags := by
  intro s off rest hoff
  refine ⟨fun n hs hillegal => ?_, fun data hs hillegal => ?_⟩
  · rw [step_of_hostRead_inside hoff hs, memRead_of_illegal hillegal]
    rfl
  · rw [step_of_hostWrite_inside hoff hs, memWrite_of_illegal hillegal]
    rfl

/-! ## Byte lanes and command words (rules R71, R90) -/

theorem lanesOfWord_getElem? (w : Word) {j : Nat} (hj : j < 4) :
    (lanesOfWord w)[j]? = some (w.extractLsb' (8 * j) 8) := by
  interval_cases j <;> rfl

/-- Settles O4: a read returns the lanes of the register's word, a write carries those of its own. -/
theorem byteLanesAreLittleEndian : Obligations.ByteLanesAreLittleEndian := by
  refine ⟨fun s off r j htarget hj => ?_, fun b0 b1 b2 b3 j hj => ?_⟩
  · rw [memRead_of_legal htarget]
    exact lanesOfWord_getElem? (r.value s) hj
  · calc [b0, b1, b2, b3][j]? = (lanesOfWord (wordOfLanes b0 b1 b2 b3))[j]? := by
          rw [lanesOfWord_wordOfLanes]
      _ = some ((busWord [b0, b1, b2, b3]).extractLsb' (8 * j) 8) := lanesOfWord_getElem? _ hj

theorem runCommand_of_decode {s : State} {data : List Byte} {i : Instr}
    (h : decode s.nDesc data = .ok i) : runCommand data s = exec i s := by
  rw [runCommand, h]

/-- Settles O6: the placed turn is a CMD write of the word's lanes, before the turns of `s`. -/
theorem placedWordRunsNext : Obligations.PlacedWordRunsNext := by
  intro s w i hdecode
  have hword : BitVec.ofNat 32 (w % 2 ^ 32) = BitVec.ofNat 32 w := BitVec.eq_of_toNat_eq (by simp)
  have hlanes : decode s.nDesc (lanesOfWord (BitVec.ofNat 32 (w % 2 ^ 32))) = .ok i := by
    rw [hword, decode_lanesOfWord, hdecode]
  exact (step_of_cmdWrite (s := s.withFetchWord 32 w) rfl rfl).trans (runCommand_of_decode hlanes)

/-! ## STATUS (rule R182) -/

/-- A step that sets a STATUS bit sets that bit's mask and changes no other (rules R73, R97, R157, R164). -/
theorem StatusBit.status_eq_of_set {s t : State} {b : StatusBit} (hstep : step s = .next t)
    (hs : s.status.getLsbD b.pos = false) (ht : t.status.getLsbD b.pos = true) :
    t.status = s.status ||| b.mask := by
  rcases step_status_cases hstep with he | ⟨b', -, he⟩ | ⟨_, _, -, -, he⟩ | ⟨_, -, he⟩
  · simp [he, hs] at ht
  · obtain rfl : b' = b := by simpa [he, hs] using ht
    exact he
  · simp [he, hs] at ht
  · simp [he] at ht

/-- Settles O18: the mask that sets the one bit does not hold the other. -/
theorem oneStatusConditionPerStep : Obligations.OneStatusConditionPerStep := by
  intro s t b b' hstep hb hbt hb' hbt'
  rwa [StatusBit.status_eq_of_set hstep hb hbt, BitVec.getLsbD_or, hb', Bool.false_or,
    StatusBit.mask_getLsbD_pos, decide_eq_true_eq] at hbt'

end Sys2Proof.Machine
end

section
/-! PROOFS. The encoding (30_encoding.md rules R90 to R97): a word decodes to a command exactly when it is
the word of that well-formed command, the legal words are those of the opcode table, and what a step does
with a legal and with an illegal word. -/

namespace Sys2Proof.Machine

/-! ## Decoder and encoder -/

/-- A word is determined by its three fields (rule R91). -/
theorem word_eq_of_fields {v w : Word} (hop : opField v = opField w) (hd : dField v = dField w)
    (himm : immField v = immField w) : v = w := by
  rw [← fields_append v, hop, hd, himm, fields_append w]

theorem encodeWord_eq_of_fields {i : Instr} {w : Word} (hop : opField w = i.op)
    (hd : i.desc?.getD 0 = dField w) (himm : i.imm = immField w) : encodeWord i = w :=
  word_eq_of_fields ((opField_encodeWord i).trans hop.symm) ((dField_encodeWord i).trans hd)
    ((immField_encodeWord i).trans himm)

theorem opField_eq_of_toNat {w : Word} {k : Nat} (h : (opField w).toNat = k) :
    opField w = BitVec.ofNat 8 k := by
  rw [← h, BitVec.ofNat_toNat, BitVec.setWidth_eq]

/-- The encoder puts back the fields the decoder took from a word: those it does not keep are zero. -/
theorem encodeWord_of_decodeWord {n : Nat} {w : Word} {i : Instr} (h : decodeWord n w = .ok i) :
    encodeWord i = w := by
  unfold decodeWord at h
  dsimp only at h
  split at h
  case h_12 => cases h
  case h_2 hop =>
    obtain ⟨hmbz, -, rfl⟩ := checked_eq_ok.1 h
    refine encodeWord_eq_of_fields (opField_eq_of_toNat hop) rfl ?_
    rw [← immField_halves, of_decide_eq_true hmbz]
    rfl
  all_goals
    rename_i hop
    obtain ⟨hmbz, -, rfl⟩ := checked_eq_ok.1 h
    refine encodeWord_eq_of_fields (opField_eq_of_toNat hop) ?_ ?_ <;>
      simp_all [Instr.desc?, Instr.imm]

theorem decodeWord_encodeWord {n : Nat} {i : Instr} (h : i.wellFormed n = true) :
    decodeWord n (encodeWord i) = .ok i := by
  unfold decodeWord
  rw [opField_encodeWord, dField_encodeWord, immField_encodeWord]
  cases i with
  | attach d p =>
    rw [attachMbzField_encodeWord, pinField_encodeWord]
    exact checked_eq_ok.2 ⟨rfl, h, rfl⟩
  | _ => exact checked_eq_ok.2 ⟨rfl, h, rfl⟩

/-- A word decodes to a command iff it is the word of that command, and the command is well-formed (rules
R91 to R95). -/
theorem decodeWord_eq_ok_iff {n : Nat} {w : Word} {i : Instr} :
    decodeWord n w = .ok i ↔ i.wellFormed n = true ∧ encodeWord i = w := by
  constructor
  · exact fun h => ⟨wellFormed_of_decodeWord h, encodeWord_of_decodeWord h⟩
  · rintro ⟨hwf, rfl⟩
    exact decodeWord_encodeWord hwf

/-- Only the lanes of a word decode (rule R104). -/
theorem exists_word_of_decode {n : Nat} {bs : List Byte} {i : Instr} (h : decode n bs = .ok i) :
    ∃ w, bs = lanesOfWord w ∧ decodeWord n w = .ok i := by
  unfold decode at h
  split at h
  · exact ⟨_, (lanesOfWord_wordOfLanes _ _ _ _).symm, h⟩
  · cases h

/-- Settles O1: the words' statement, through the lanes of a word. -/
theorem decodeAndEncodeAreInverse : Obligations.DecodeAndEncodeAreInverse := by
  refine ⟨fun n i hwf => ?_, fun n bs i h => ?_⟩
  · rw [encode, decode_lanesOfWord, decodeWord_encodeWord hwf]
  · obtain ⟨w, rfl, hw⟩ := exists_word_of_decode h
    obtain ⟨hwf, rfl⟩ := decodeWord_eq_ok_iff.1 hw
    exact ⟨hwf, rfl⟩

/-- Settles O3: seventeen closed words. -/
theorem decodedWordsAreRight : Obligations.DecodedWordsAreRight := by
  unfold Obligations.DecodedWordsAreRight
  decide

/-! ## The opcode table (rule R95) -/

/-- Rule R95's three conditions on the fields of a word. -/
def LegalFields (n : Nat) (w : Word) : Prop :=
  (opField w).toNat ≤ 0x0A ∧
  (if opField w = 0x00 then dField w = 0 else (dField w).toNat < n) ∧
  (if opField w = 0x01 then attachMbzField w = 0
    else opField w = 0x03 ∨ opField w = 0x04 ∨ immField w = 0)

theorem exists_checked_eq_ok {n : Nat} {z : Bool} {i : Instr} :
    (∃ j, checked n z i = .ok j) ↔ z = true ∧ i.wellFormed n = true := by
  simp [checked_eq_ok]

theorem exists_decodeWord_iff_legalFields (n : Nat) (w : Word) :
    (∃ i, decodeWord n w = .ok i) ↔ LegalFields n w := by
  unfold decodeWord LegalFields
  dsimp only
  split
  case h_12 =>
    simp only [imp_false] at *
    refine iff_of_false nofun fun ⟨hop, _⟩ => ?_
    omega
  all_goals
    rename_i hop
    rw [exists_checked_eq_ok, opField_eq_of_toNat hop]
    simp [Instr.wellFormed, Instr.desc?, and_comm]

/-- The word of every command has the bits of its row (rule R95), by the families of Laws/PerInstr. -/
theorem tableBits (i : Instr) : Laws.TableBits.Statement i := by
  cases i with
  | nop => exact Laws.TableBits.nop
  | attach d p => exact Laws.TableBits.attach d p
  | detach d => exact Laws.TableBits.detach d
  | write d a => exact Laws.TableBits.write d a
  | writeUs d v => exact Laws.TableBits.writeUs d v
  | read d => exact Laws.TableBits.read d
  | readUs d => exact Laws.TableBits.readUs d
  | attached d => exact Laws.TableBits.attached d
  | index d => exact Laws.TableBits.index d
  | pin d => exact Laws.TableBits.pin d
  | release d => exact Laws.TableBits.release d

theorem opcodeRow_fits_iff {n : Nat} {r : OpcodeRow} {w : Word} :
    r.fits n w = true ↔
      w &&& r.mask = r.matchBits ∧ (r.hasDesc = true → (dField w).toNat < n) := by
  cases hr : r.hasDesc <;> simp [OpcodeRow.fits, hr]

theorem rowOf_fits {n : Nat} {i : Instr} (h : i.wellFormed n = true) :
    (Laws.rowOf i).fits n (encodeWord i) = true := by
  refine opcodeRow_fits_iff.2 ⟨(tableBits i).2, fun hdesc => ?_⟩
  rw [dField_encodeWord]
  cases i with
  | nop => cases hdesc
  | _ => exact of_decide_eq_true h

/-- A field that a row's mask covers is fixed by the row. -/
theorem field_eq_of_mask {r : OpcodeRow} {w : Word} (h : w &&& r.mask = r.matchBits) {start len : Nat}
    (hmask : r.mask.extractLsb' start len = BitVec.allOnes len) :
    w.extractLsb' start len = r.matchBits.extractLsb' start len := by
  rw [← h, BitVec.extractLsb'_and, hmask, BitVec.and_allOnes]

/-- Every row fixes the opcode (rule R94). -/
theorem opcodeTable_op : ∀ r ∈ opcodeTable,
    opField r.mask = BitVec.allOnes 8 ∧ (opField r.matchBits).toNat ≤ 0x0A := by
  decide

/-- Every row fixes the must-be-zero bits that rules R92 and R93 ask of its opcode. -/
theorem opcodeTable_mbz : ∀ r ∈ opcodeTable,
    (if opField r.matchBits = 0x00 then dField r.mask = BitVec.allOnes 8 ∧ dField r.matchBits = 0
      else r.hasDesc = true) ∧
    (if opField r.matchBits = 0x01 then
        attachMbzField r.mask = BitVec.allOnes 8 ∧ attachMbzField r.matchBits = 0
      else opField r.matchBits = 0x03 ∨ opField r.matchBits = 0x04 ∨
        immField r.mask = BitVec.allOnes 16 ∧ immField r.matchBits = 0) := by
  decide

theorem opField_of_fits {n : Nat} {r : OpcodeRow} {w : Word} (hr : r ∈ opcodeTable)
    (h : r.fits n w = true) : opField w = opField r.matchBits := by
  obtain ⟨hbits, -⟩ := opcodeRow_fits_iff.1 h
  exact field_eq_of_mask hbits (opcodeTable_op r hr).1

theorem legalFields_of_fits {n : Nat} {r : OpcodeRow} {w : Word} (hr : r ∈ opcodeTable)
    (h : r.fits n w = true) : LegalFields n w := by
  obtain ⟨hbits, hdesc⟩ := opcodeRow_fits_iff.1 h
  obtain ⟨hd, himm⟩ := opcodeTable_mbz r hr
  unfold LegalFields
  rw [opField_of_fits hr h]
  refine ⟨(opcodeTable_op r hr).2, ?_, ?_⟩
  · split_ifs at hd ⊢
    · exact (field_eq_of_mask hbits hd.1).trans hd.2
    · exact hdesc hd
  · split_ifs at himm ⊢
    · exact (field_eq_of_mask hbits himm.1).trans himm.2
    · exact himm.imp_right (Or.imp_right fun hz => (field_eq_of_mask hbits hz.1).trans hz.2)

/-- No two rows have one opcode (rule R96). -/
theorem opcodeTable_opField_injective : ∀ r ∈ opcodeTable, ∀ r' ∈ opcodeTable,
    opField r.matchBits = opField r'.matchBits → r = r' := by
  decide

/-- Settles O2: a command's word fits the command's row, a row fixes every must-be-zero bit, and the opcode
tells the rows apart. -/
theorem legalWordsAreTheTablesWords : Obligations.LegalWordsAreTheTablesWords := by
  intro n w
  refine ⟨exists_decodeWord_iff_legalFields n w, ⟨?_, ?_⟩, fun r hr r' hr' h h' => ?_⟩
  · rintro ⟨i, hi⟩
    obtain ⟨hwf, rfl⟩ := decodeWord_eq_ok_iff.1 hi
    exact ⟨Laws.rowOf i, (tableBits i).1, rowOf_fits hwf⟩
  · rintro ⟨r, hr, h⟩
    exact (exists_decodeWord_iff_legalFields n w).2 (legalFields_of_fits hr h)
  · exact opcodeTable_opField_injective r hr r' hr'
      ((opField_of_fits hr h).symm.trans (opField_of_fits hr' h'))

/-! ## The step of a CMD write (rules R90, R97) -/

/-- Settles O5: what decodes has four lanes, so the write is a CMD write. -/
theorem stepRunsTheDecodedCommand : Obligations.StepRunsTheDecodedCommand := by
  intro s data rest i hs hdecode
  have hlen : data.length = 4 := by
    obtain ⟨w, rfl, -⟩ := exists_word_of_decode hdecode
    rfl
  exact ⟨hlen, (step_of_cmdWrite hlen hs).trans (runCommand_of_decode hdecode)⟩

theorem runCommand_of_decode_error {s : State} {data : List Byte} {r : Reject}
    (h : decode s.nDesc data = .error r) : runCommand data s = .next (illegalCommand s) := by
  rw [runCommand, h]

/-- Settles O21: the CMD write runs `illegalCommand`, and BADCMD is bit 0. -/
theorem illegalWordSetsBadCmd : Obligations.IllegalWordSetsBadCmd := by
  intro s data rest r hs hlen hdecode
  rw [step_of_cmdWrite hlen hs, runCommand_of_decode_error (s := { s with schedule := rest }) hdecode]
  rfl

end Sys2Proof.Machine
end

section
/-! PROOFS. The assembler (30_encoding.md rules R105, R106): the word of each form of a line, the legality
of every assembled word, a line for every legal command, and the pseudo-instructions. -/

namespace Sys2Proof.Machine

/-! ## Operands -/

/-- A command on a descriptor that passed the check of rule R105 is well-formed. -/
theorem wellFormed_of_asmDesc {n d : Nat} {b : Byte} {i : Instr} (hn : n ≤ 256)
    (h : asmDesc n d = some b) (hi : i.desc? = some b) : i.wellFormed n = true := by
  unfold asmDesc at h
  split_ifs at h with hd
  obtain rfl := Option.some.inj h
  have hb : (BitVec.ofNat 8 d).toNat = d := by
    rw [BitVec.toNat_ofNat]
    omega
  simpa [Instr.wellFormed, hi, hb] using hd

theorem asmDesc_toNat {n : Nat} {d : Byte} (h : d.toNat < n) : asmDesc n d.toNat = some d := by
  rw [asmDesc, if_pos h, BitVec.ofNat_toNat, BitVec.setWidth_eq]

theorem asmPin_toNat (p : Byte) : asmPin p.toNat = some p := by
  rw [asmPin, if_pos (by omega), BitVec.ofInt_natCast, BitVec.ofNat_toNat, BitVec.setWidth_eq]

theorem asmHalf_toInt (v : Half) : asmHalf v.toInt = some v := by
  rw [asmHalf, if_pos ⟨BitVec.le_toInt v, Int.le_of_lt_add_one BitVec.toInt_lt⟩, BitVec.ofInt_toInt]

/-- The form of `asmAttach` and `asmWriteUs`: a checked descriptor, then a checked second operand. -/
theorem wellFormed_of_asmDesc_bind {α : Type} {n d : Nat} {i : Instr} {o : Option α}
    {f : Byte → α → Instr} (hn : n ≤ 256) (hf : ∀ b x, (f b x).desc? = some b)
    (h : ((asmDesc n d).bind fun b => o.map fun x => f b x) = some i) : i.wellFormed n = true := by
  obtain ⟨b, hb, h⟩ := Option.bind_eq_some_iff.1 h
  obtain ⟨x, -, rfl⟩ := Option.map_eq_some_iff.1 h
  exact wellFormed_of_asmDesc hn hb (hf b x)

theorem asmAttach_wellFormed {n d : Nat} {p : Int} {i : Instr} (hn : n ≤ 256)
    (h : asmAttach n d p = some i) : i.wellFormed n = true :=
  wellFormed_of_asmDesc_bind hn (fun _ _ => rfl) h

theorem asmWriteUs_wellFormed {n d : Nat} {v : Int} {i : Instr} (hn : n ≤ 256)
    (h : asmWriteUs n d v = some i) : i.wellFormed n = true :=
  wellFormed_of_asmDesc_bind hn (fun _ _ => rfl) h

/-! ## The commands of a line -/

theorem commands_wellFormed {n : Nat} {l : AsmLine} {is : List Instr} (hn : n ≤ 256)
    (h : l.commands n = some is) : ∀ i ∈ is, i.wellFormed n = true := by
  cases l with
  | nop =>
    obtain rfl := Option.some.inj h
    exact List.forall_mem_singleton.2 rfl
  | clearStatus =>
    obtain rfl := Option.some.inj h
    exact List.forall_mem_nil _
  | servo d p v =>
    obtain ⟨w, hw, h⟩ := Option.bind_eq_some_iff.1 h
    obtain ⟨a, ha, rfl⟩ := Option.map_eq_some_iff.1 h
    exact List.forall_mem_cons.2 ⟨asmWriteUs_wellFormed hn hw,
      List.forall_mem_singleton.2 (asmAttach_wellFormed hn ha)⟩
  | attach d p =>
    obtain ⟨a, ha, rfl⟩ := Option.map_eq_some_iff.1 h
    exact List.forall_mem_singleton.2 (asmAttach_wellFormed hn ha)
  | writeUs | center | toMin | toMax =>
    obtain ⟨w, hw, rfl⟩ := Option.map_eq_some_iff.1 h
    exact List.forall_mem_singleton.2 (asmWriteUs_wellFormed hn hw)
  | write d a =>
    obtain ⟨b, hb, h⟩ := Option.bind_eq_some_iff.1 h
    obtain ⟨x, -, rfl⟩ := Option.map_eq_some_iff.1 h
    exact List.forall_mem_singleton.2 (wellFormed_of_asmDesc hn hb rfl)
  | detach | read | readUs | attached | index | pin | release =>
    obtain ⟨b, hb, rfl⟩ := Option.map_eq_some_iff.1 h
    exact List.forall_mem_singleton.2 (wellFormed_of_asmDesc hn hb rfl)

/-- The line that names a command and its operands (rule R105). -/
def lineOf : Instr → AsmLine
  | .nop => .nop
  | .attach d p => .attach d.toNat p.toNat
  | .detach d => .detach d.toNat
  | .write d a => .write d.toNat a.toInt
  | .writeUs d v => .writeUs d.toNat v.toInt
  | .read d => .read d.toNat
  | .readUs d => .readUs d.toNat
  | .attached d => .attached d.toNat
  | .index d => .index d.toNat
  | .pin d => .pin d.toNat
  | .release d => .release d.toNat

theorem commands_lineOf {n : Nat} {i : Instr} (h : i.wellFormed n = true) :
    (lineOf i).commands n = some [i] := by
  cases i with
  | nop => rfl
  | attach d p =>
    simp [lineOf, AsmLine.commands, asmAttach, asmDesc_toNat (of_decide_eq_true h), asmPin_toNat]
  | _ =>
    have hd := asmDesc_toNat (of_decide_eq_true h)
    simp [lineOf, AsmLine.commands, asmWriteUs, hd, asmHalf_toInt]

/-! ## The accesses of a line -/

/-- Every line but `clear_status` assembles to the words of its commands. -/
theorem assemble_eq (n : Nat) {l : AsmLine} (hl : l ≠ .clearStatus) :
    l.assemble n = (l.commands n).map fun is => is.map fun i => .command (encodeWord i) := by
  cases l with
  | clearStatus => exact absurd rfl hl
  | _ => rfl

theorem exists_command_of_mem_assemble {n : Nat} {l : AsmLine} {ops : List HostOp} {w : Word}
    (h : l.assemble n = some ops) (hw : .command w ∈ ops) :
    ∃ is i, l.commands n = some is ∧ i ∈ is ∧ encodeWord i = w := by
  by_cases hl : l = .clearStatus
  · subst hl
    obtain rfl := Option.some.inj h
    simp at hw
  · rw [assemble_eq n hl] at h
    obtain ⟨is, his, rfl⟩ := Option.map_eq_some_iff.1 h
    obtain ⟨i, hi, hiw⟩ := List.mem_map.1 hw
    exact ⟨is, i, his, hi, HostOp.command.inj hiw⟩

section
variable {n d : Nat} {l : AsmLine}

/-- A form `OP dN` is one word, unless N is out of range (rule R105). -/
theorem assemble_of_desc (f : Byte → Instr) (hl : l ≠ .clearStatus)
    (h : l.commands n = (asmDesc n d).map fun b => [f b]) :
    l.assemble n =
      if d < n then some [.command (encodeWord (f (BitVec.ofNat 8 d)))] else none := by
  rw [assemble_eq n hl, h, asmDesc]
  split_ifs <;> rfl

/-- A form `OP dN, V` is one word, unless N or V is out of range (rule R105). -/
theorem assemble_of_desc_half {v : Int} (f : Byte → Half → Instr) (hl : l ≠ .clearStatus)
    (h : l.commands n = (asmDesc n d).bind fun b => (asmHalf v).map fun x => [f b x]) :
    l.assemble n =
      if d < n ∧ -32768 ≤ v ∧ v ≤ 32767 then
        some [.command (encodeWord (f (BitVec.ofNat 8 d) (BitVec.ofInt 16 v)))]
      else none := by
  rw [assemble_eq n hl, h, asmDesc, asmHalf]
  simp only [ite_and]
  split_ifs <;> rfl

end

theorem assemble_attach (n d : Nat) (p : Int) :
    (AsmLine.attach d p).assemble n =
      if d < n ∧ 0 ≤ p ∧ p ≤ 255 then
        some [.command (encodeWord (.attach (BitVec.ofNat 8 d) (BitVec.ofInt 8 p)))]
      else none := by
  rw [assemble_eq n (l := .attach d p) nofun, AsmLine.commands, asmAttach, asmDesc, asmPin]
  simp only [ite_and]
  split_ifs <;> rfl

theorem commands_writeUs (n d : Nat) (v : Int) : (AsmLine.writeUs d v).commands n =
    (asmDesc n d).bind fun b => (asmHalf v).map fun x => [.writeUs b x] := by
  simp [AsmLine.commands, asmWriteUs, Option.map_bind, Function.comp_def]

/-- Settles O59: the forms by what their operands must be, legality and a line for each command through
`decodeWord_eq_ok_iff`. -/
theorem assembledWordsAreTheLegalWords : Obligations.AssembledWordsAreTheLegalWords := by
  refine ⟨fun n d => ⟨rfl, assemble_attach n d, assemble_of_desc .detach nofun rfl,
      fun v => assemble_of_desc_half .write nofun rfl,
      fun v => assemble_of_desc_half .writeUs nofun (commands_writeUs n d v),
      assemble_of_desc .read nofun rfl, assemble_of_desc .readUs nofun rfl,
      assemble_of_desc .attached nofun rfl, assemble_of_desc .index nofun rfl,
      assemble_of_desc .pin nofun rfl, assemble_of_desc .release nofun rfl⟩,
    fun f => ⟨rfl, rfl, rfl, rfl, rfl, rfl, rfl, rfl, rfl, rfl, rfl⟩,
    fun n hn => ⟨fun l ops w h hw => ?_, fun i hwf => ⟨lineOf i, ?_⟩⟩⟩
  · obtain ⟨is, i, his, hi, hw⟩ := exists_command_of_mem_assemble h hw
    exact ⟨i, decodeWord_eq_ok_iff.2 ⟨commands_wellFormed hn his i hi, hw⟩⟩
  · rw [assemble_eq n (by cases i <;> nofun), commands_lineOf hwf]
    rfl

/-! ## Pseudo-instructions (rule R106) -/

/-- Settles O60: the three constants' lines are `write_us` by definition, and `servo` is an error iff one of
its two lines is. -/
theorem pseudoInstructionsExpand : Obligations.PseudoInstructionsExpand := by
  intro n d p v
  refine ⟨rfl, rfl, rfl, ?_, rfl⟩
  rw [assemble_eq n (l := .servo d p v) nofun, assemble_eq n (l := .writeUs d v) nofun,
    assemble_eq n (l := .attach d p) nofun]
  simp only [AsmLine.commands]
  cases asmWriteUs n d v <;> cases asmAttach n d p <;> rfl

end Sys2Proof.Machine
end

section
/-! PROOFS. The commands that keep the registry (40_channel_commands.md rules R108, R110, R118 to R129):
what each answers on a descriptor the block holds, the laws of WRITE's map, and READ as its inverse. -/

namespace Sys2Proof.Machine

/-! ## Completion and NOP -/

/-- Settles O20: a command never stops, and a legal one writes no STATUS bit. -/
theorem legalCommandsCompleteAndKeepStatus : Obligations.LegalCommandsCompleteAndKeepStatus := by
  intro s i hwf
  obtain ⟨t, hexec⟩ := exec_next i s
  exact ⟨t, hexec, exec_status_of_wellFormed hwf hexec⟩

/-- Only NOP has opcode 0 (rule R94). -/
theorem Instr.op_eq_zero {i : Instr} : i.op = 0x00 ↔ i = .nop := by
  cases i <;> simp [Instr.op]

/-- NOP is the word 0 (rule R110). -/
theorem decodeWord_eq_ok_nop {n : Nat} {w : Word} : decodeWord n w = .ok .nop ↔ w = 0 := by
  rw [decodeWord_eq_ok_iff]
  constructor
  · rintro ⟨-, rfl⟩
    rfl
  · rintro rfl
    exact ⟨rfl, rfl⟩

/-- Settles O22: a word with opcode 0 that decodes at all is NOP's, which is the word 0. -/
theorem nopOnlyClearsResult : Obligations.NopOnlyClearsResult := by
  refine ⟨fun _ => rfl, fun _ _ => decodeWord_eq_ok_nop, fun n w hop hne => ?_⟩
  cases hdecode : decodeWord n w with
  | error r => exact ⟨r, rfl⟩
  | ok i =>
    have hi : i = .nop := by
      rw [← Instr.op_eq_zero, ← opField_encodeWord, encodeWord_of_decodeWord hdecode, hop]
    exact absurd (decodeWord_eq_ok_nop.1 (hi ▸ hdecode)) hne

/-! ## What a command answers on a descriptor the block holds -/

section
variable {s : State} {d : Byte} {c : Desc}

/-- A change of a descriptor the block holds replaces it. -/
theorem modifyDesc_eq_set (h : s.desc? d = some c) (f : Desc → Desc) :
    modifyDesc d f s = { s with desc := s.desc.set d.toNat (f c) } := by
  rw [modifyDesc, List.modify_eq_set_getElem?, show s.desc[d.toNat]? = some c from h]
  rfl

theorem exec_write (h : s.desc? d = some c) (angle : Half) : exec (.write d angle) s = .next
    { s with
      desc := s.desc.set d.toNat { c with width := clampWidth (angleToUs angle.toInt) }
      result := 0 } := by
  rw [exec, execWrite, withDesc_some _ h, setWidth, modifyDesc_eq_set h]
  rfl

theorem exec_writeUs (h : s.desc? d = some c) (value : Half) : exec (.writeUs d value) s = .next
    { s with
      desc := s.desc.set d.toNat { c with width := clampWidth value.toInt }
      result := 0 } := by
  rw [exec, execWriteUs, withDesc_some _ h, setWidth, modifyDesc_eq_set h]
  rfl

theorem exec_read (h : s.desc? d = some c) : exec (.read d) s =
    .next { s with result := BitVec.ofInt 32 (widthToAngle c.width) } := by
  rw [exec, execRead, withDesc_some _ h]
  rfl

theorem exec_readUs (h : s.desc? d = some c) : exec (.readUs d) s =
    .next { s with result := c.width.setWidth 32 } := by
  rw [exec, execReadUs, withDesc_some _ h]
  rfl

theorem exec_attached (h : s.desc? d = some c) : exec (.attached d) s =
    .next { s with result := if c.isAttached then 1 else 0 } := by
  rw [exec, execAttached, withDesc_some _ h]
  rfl

theorem exec_index (h : s.desc? d = some c) : exec (.index d) s =
    .next { s with result := c.index.setWidth 32 } := by
  rw [exec, execIndex, withDesc_some _ h]
  rfl

theorem exec_pin (h : s.desc? d = some c) : exec (.pin d) s =
    .next { s with result := c.pin.setWidth 32 } := by
  rw [exec, execPin, withDesc_some _ h]
  rfl

end

/-! ## WRITE and WRITE_US -/

/-- Settles O27: the stored width is the clamp of the map written out. -/
theorem writeStoresTheClampedMap : Obligations.WriteStoresTheClampedMap := by
  intro s d angle c hd
  refine ⟨_, ?_, exec_write hd angle⟩
  rw [clampWidth_toNat, angleToUs_eq]

/-- Settles O29: the stored width is the clamp of the value. -/
theorem writeUsStoresTheClampedValue : Obligations.WriteUsStoresTheClampedValue := by
  intro s d value c hd
  exact ⟨_, clampWidth_toNat _, exec_writeUs hd value⟩

/-- WRITE's map does not decrease with the angle (rule R120). -/
theorem angleToUs_monotone : Monotone angleToUs := by
  intro a b hab
  have hscaled : a * 1856 ≤ b * 1856 := by omega
  have htdiv : Int.tdiv (a * 1856) 180 ≤ Int.tdiv (b * 1856) 180 :=
    Int.tdiv_le_tdiv (by decide) hscaled
  rw [angleToUs_eq, angleToUs_eq]
  omega

/-- A width field does not decrease with the value it clamps (rule R121). -/
theorem clampWidth_monotone : Monotone fun v => (clampWidth v).toNat := by
  intro v w hvw
  have hv := clampWidth_toNat v
  have hw := clampWidth_toNat w
  dsimp only
  omega

/-- Settles O28: the map is monotone and sends the angles 0 and 180 to the ends of the clamp. -/
theorem writeMapLaws : Obligations.WriteMapLaws := by
  refine ⟨fun a => ?_, by decide, by decide, by decide, fun a b hab => ?_⟩
  · have hmin : angleToUs 0 = 544 := by decide
    have hmax : angleToUs 180 = 2400 := by decide
    rw [angleToUs_monotone.map_max, angleToUs_monotone.map_min, hmin, hmax]
  · have hus := angleToUs_monotone hab
    exact ⟨hus, clampWidth_monotone hus⟩

/-! ## READ -/

/-- Every legal width reads as an angle (rules R33, R124). -/
theorem widthToAngle_bounds {w : Half} (hmin : 544 ≤ w.toNat) (hmax : w.toNat ≤ 2400) :
    0 ≤ widthToAngle w ∧ widthToAngle w ≤ 180 := by
  rw [widthToAngle_eq, Int.tdiv_eq_ediv_of_nonneg (by omega)]
  omega

theorem toNat_ofInt_widthToAngle {w : Half} (hmin : 544 ≤ w.toNat) (hmax : w.toNat ≤ 2400) :
    ((BitVec.ofInt 32 (widthToAngle w)).toNat : Int) = widthToAngle w := by
  have hbounds := widthToAngle_bounds hmin hmax
  rw [BitVec.toNat_ofInt]
  omega

/-- Settles O30: the angle of a legal width fits RESULT. -/
theorem readReportsTheAngle : Obligations.ReadReportsTheAngle := by
  intro s d c hd hmin hmax
  have hr := toNat_ofInt_widthToAngle hmin hmax
  have hle := (widthToAngle_bounds hmin hmax).2
  exact ⟨_, hr.trans (widthToAngle_eq _), by omega, exec_read hd⟩

/-- READ's map undoes WRITE's on the angles 0..180 (rule R124): the stored width is 544 plus the
rounded-down 1856/180 of the angle, and one more than that surplus is within one angle's step of it. -/
theorem widthToAngle_clampWidth_angleToUs {a : Int} (hmin : 0 ≤ a) (hmax : a ≤ 180) :
    widthToAngle (clampWidth (angleToUs a)) = a := by
  have hus : angleToUs a = a * 1856 / 180 + 544 := by
    rw [angleToUs_eq, Int.tdiv_eq_ediv_of_nonneg (by omega)]
  have hw : ((clampWidth (angleToUs a)).toNat : Int) = a * 1856 / 180 + 544 := by
    rw [clampWidth_toNat, hus]
    omega
  rw [widthToAngle_eq, hw, Int.tdiv_eq_ediv_of_nonneg (by omega)]
  omega

/-- Settles O31: the descriptor READ finds has the width that WRITE stored, which maps back. -/
theorem readReturnsTheWrittenAngle : Obligations.ReadReturnsTheWrittenAngle := by
  refine ⟨fun s d angle c hd hmin hmax => ⟨_, exec_write hd angle, fun t' hkeep => ?_⟩,
    fun w => widthToAngle_bounds, by decide⟩
  have hlt : d.toNat < s.desc.length := (List.getElem?_eq_some_iff.1 hd).1
  have hstored : (t'.desc? d).map Desc.width = some (clampWidth (angleToUs angle.toInt)) := by
    rw [hkeep]
    simp [State.desc?, hlt]
  obtain ⟨c', hd', hwidth⟩ := Option.map_eq_some_iff.1 hstored
  obtain ⟨hlow, hhigh⟩ := clampWidth_bounds (angleToUs angle.toInt)
  refine ⟨_, exec_read hd', ?_⟩
  rw [hwidth]
  exact (toNat_ofInt_widthToAngle hlow hhigh).trans (widthToAngle_clampWidth_angleToUs hmin hmax)

/-! ## The queries -/

/-- Settles O32: RESULT's 32 bits hold each field. -/
theorem queriesReportTheFields : Obligations.QueriesReportTheFields := by
  intro s d c hd
  refine ⟨⟨_, BitVec.toNat_setWidth_of_le (by decide), exec_readUs hd⟩, ?_,
    ⟨_, BitVec.toNat_setWidth_of_le (by decide), exec_index hd⟩,
    ⟨_, BitVec.toNat_setWidth_of_le (by decide), exec_pin hd⟩⟩
  rw [exec_attached hd]
  by_cases hindex : c.index = 0xFF
  · rw [if_pos hindex, Desc.isAttached_eq_false.2 hindex]
    rfl
  · rw [if_neg hindex, Desc.isAttached_eq_true.2 hindex]
    rfl

/-- A query writes into RESULT a value of the descriptor alone (rules R123, R125 to R128). -/
theorem exec_query {d : Byte} {i : Instr}
    (hi : i ∈ [Instr.read d, .readUs d, .attached d, .index d, .pin d]) :
    ∃ answer : Desc → Word, ∀ (s : State) (c : Desc), s.desc? d = some c →
      exec i s = .next { s with result := answer c } := by
  simp only [List.mem_cons, List.not_mem_nil, or_false] at hi
  rcases hi with rfl | rfl | rfl | rfl | rfl
  · exact ⟨_, fun _ _ => exec_read⟩
  · exact ⟨_, fun _ _ => exec_readUs⟩
  · exact ⟨_, fun _ _ => exec_attached⟩
  · exact ⟨_, fun _ _ => exec_index⟩
  · exact ⟨_, fun _ _ => exec_pin⟩

/-- Settles O33: the queries keep the descriptor that they read, so a repeat writes the same RESULT. -/
theorem queriesChangeOnlyResult : Obligations.QueriesChangeOnlyResult := by
  intro s d i hlt hi
  obtain ⟨answer, hanswer⟩ := exec_query hi
  have hd : s.desc? d = some s.desc[d.toNat] := List.getElem?_eq_getElem hlt
  refine ⟨_, hanswer s _ hd, rfl, hanswer _ _ hd, fun j hj u hu => ?_⟩
  obtain ⟨answer', hanswer'⟩ := exec_query hj
  have hu' := hanswer' { s with result := answer s.desc[d.toNat] } _ hd
  cases hu'.symm.trans hu
  exact hanswer { s with result := answer' s.desc[d.toNat] } _ hd

end Sys2Proof.Machine
end

section
/-! PROOFS. The commands that change the registry (40_channel_commands.md rules R112, R115, R130): the
branches of ATTACH and DETACH, RELEASE as DETACH and construction, the order of the registry, and what the
three leave alone. -/

namespace Sys2Proof.Machine

/-! ## The branches of ATTACH, DETACH and RELEASE -/

/-- What DETACH and RELEASE do to the registry: an attached descriptor `d`, read as `c`, leaves it (rules
R115, R130). -/
def detachIfAttached (d : Byte) (c : Desc) (s : State) : State :=
  if c.isAttached then detachEntry d c.index.toNat s else s

section
variable {s : State} {d : Byte} {c : Desc}

theorem exec_attach_of_attached (h : s.desc? d = some c) (ha : c.isAttached = true) (p : Byte) :
    exec (.attach d p) s = .next { s with result := c.index.setWidth 32 } := by
  rw [exec, execAttach, withDesc_some _ h, if_pos ha]
  rfl

theorem exec_attach_of_full (h : s.desc? d = some c) (ha : c.isAttached = false)
    (hfull : s.registry.count.toNat = Config.maxChannels) (p : Byte) :
    exec (.attach d p) s = .next { s with result := 0x000000FF } := by
  rw [exec, execAttach, withDesc_some _ h, ha, if_neg Bool.false_ne_true, if_pos hfull]
  rfl

theorem exec_attach_of_free (h : s.desc? d = some c) (ha : c.isAttached = false)
    (hfree : s.registry.count.toNat ≠ Config.maxChannels) (p : Byte) : exec (.attach d p) s =
    .next (setResult (s.registry.count.setWidth 32) (attachEntry d p s)) := by
  rw [exec, execAttach, withDesc_some _ h, ha, if_neg Bool.false_ne_true, if_neg hfree]

theorem exec_detach (h : s.desc? d = some c) :
    exec (.detach d) s = .next (setResult 0 (detachIfAttached d c s)) := by
  rw [exec, execDetach, withDesc_some _ h, detachIfAttached]
  split_ifs <;> rfl

theorem exec_release (h : s.desc? d = some c) :
    exec (.release d) s = .next (setResult 0 (construct d (detachIfAttached d c s))) := by
  rw [exec, execRelease, withDesc_some _ h, detachIfAttached]

/-- ATTACH writes at most the index and the pin of its descriptor. -/
theorem exec_attach_desc {t : State} {p : Byte} (h : s.desc? d = some c)
    (hexec : exec (.attach d p) s = .next t) :
    t.desc = s.desc ∨ t.desc = s.desc.modify d.toNat
      (fun c => { c with index := s.registry.count.setWidth 8, pin := p }) := by
  cases ha : c.isAttached with
  | true =>
    cases (exec_attach_of_attached h ha p).symm.trans hexec
    exact .inl rfl
  | false =>
    by_cases hfull : s.registry.count.toNat = Config.maxChannels
    · cases (exec_attach_of_full h ha hfull p).symm.trans hexec
      exact .inl rfl
    · obtain ⟨-, -, -, -, -, -, -, -, -, hdesc, -⟩ := attachEntry_frame d p s
      cases (exec_attach_of_free h ha hfull p).symm.trans hexec
      exact .inr hdesc

end

/-- Settles O23: an append and its frame, split by whether the entry is the first. -/
theorem attachFollowsItsThreeBranches : Obligations.AttachFollowsItsThreeBranches := by
  intro s d p c hd _
  refine ⟨fun hne => exec_attach_of_attached hd (Desc.isAttached_eq_true.2 hne) p,
    fun hfree hfull => exec_attach_of_full hd (Desc.isAttached_eq_false.2 hfree) hfull p,
    fun hfree hlt => ⟨_, exec_attach_of_free hd (Desc.isAttached_eq_false.2 hfree) hlt.ne p, ?_⟩⟩
  obtain ⟨hengine, hstatus, -, hnow, hbase, hread, hsched, hn, -, hdesc, hfirst, hlater⟩ :=
    attachEntry_frame d p s
  have hslot := attachEntry_slotId d p hlt
  refine ⟨BitVec.toNat_setWidth_of_le (by decide), attachEntry_count d p hlt,
    (hslot _).trans (if_pos rfl), fun j hj => (hslot j).trans (if_neg hj.symm), ?_, hn,
    fun q hq => ?_, fun hpos => hlater (mt count_eq_zero.1 hpos.ne'),
    fun h0 => hfirst (count_eq_zero.2 h0), hengine, hstatus, hnow, hbase, hread, hsched⟩
  · rw [setResult_desc?, attachEntry_desc?_same p hd, State.count, BitVec.ofNat_toNat]
  · rw [setResult_desc, hdesc, List.getElem?_modify_ne _ _ hq.symm]

/-! ## What the compaction keeps of the descriptors, in every state -/

theorem getElem?_map_eq {α : Type} {g : Desc → α} {l l' : List Desc} (h : l'.map g = l.map g) (q : Nat) :
    (l'[q]?).map g = (l[q]?).map g := by
  rw [← List.getElem?_map, h, List.getElem?_map]

section
variable {α : Type} (g : Desc → α)

/-- A part of the descriptors that `f` keeps is kept where `f` changes one of them. -/
theorem map_modify_of_keeps {f : Desc → Desc} (hf : ∀ c, g (f c) = g c) (l : List Desc) (q : Nat) :
    (l.modify q f).map g = l.map g := by
  refine List.ext_getElem? fun j => ?_
  rw [List.getElem?_map, List.getElem?_map]
  by_cases hq : q = j
  · rw [hq, List.getElem?_modify_eq, Option.map_eq_map, Option.map_map]
    exact Option.map_congr fun c _ => hf c
  · rw [List.getElem?_modify_ne _ _ hq]

variable (hg : ∀ c x, g { c with index := x } = g c)
include hg

theorem compact_map (i m : Nat) (p : Vector Byte Config.maxChannels × List Desc) :
    (compact i m p).2.map g = p.2.map g := by
  induction m with
  | zero => rfl
  | succ m ih =>
    rw [compact_succ, shiftDown, map_modify_of_keeps g (fun c => hg c _), ih]

/-- A descriptor leaving the registry changes indices only (rule R115). -/
theorem detachIfAttached_map (d : Byte) (c : Desc) (s : State) :
    (detachIfAttached d c s).desc.map g = s.desc.map g := by
  have hremove : ∀ i, (removeEntry d i s).desc.map g = s.desc.map g := fun i =>
    (map_modify_of_keeps g (fun c => hg c _) _ _).trans (compact_map g hg i _ _)
  unfold detachIfAttached detachEntry
  split_ifs
  · exact hremove _
  · exact hremove _
  · rfl

end

theorem detachEntry_desc (d : Byte) (i : Nat) (s : State) : (detachEntry d i s).desc =
    (compacted i s).2.modify d.toNat fun c => { c with index := Config.invalid } := by
  unfold detachEntry
  split_ifs <;> rfl

/-- A descriptor is detached after it left the registry, if it was in it. -/
theorem index_of_detachIfAttached {s : State} {d : Byte} {c x : Desc} (h : s.desc? d = some c)
    (hx : (detachIfAttached d c s).desc? d = some x) : x.index = Config.invalid := by
  unfold detachIfAttached at hx
  split_ifs at hx with ha
  · rw [State.desc?, detachEntry_desc, List.getElem?_modify_eq] at hx
    obtain ⟨y, -, rfl⟩ := Option.map_eq_some_iff.1 hx
    rfl
  · cases h.symm.trans hx
    exact Desc.isAttached_eq_false.1 (Bool.eq_false_iff.2 ha)

/-- DETACH leaves its descriptor detached, with pin and width kept (rule R115). -/
theorem detachIfAttached_desc? {s : State} {d : Byte} {c : Desc} (h : s.desc? d = some c) :
    (detachIfAttached d c s).desc? d = some { c with index := Config.invalid } := by
  have hkeep := getElem?_map_eq
    (detachIfAttached_map (fun c => (c.pin, c.width)) (fun _ _ => rfl) d c s) d.toNat
  rw [show s.desc[d.toNat]? = some c from h] at hkeep
  obtain ⟨x, hx, hpw⟩ := Option.map_eq_some_iff.1 hkeep
  obtain ⟨hpin, hwidth⟩ := Prod.mk.inj hpw
  rw [← hpin, ← hwidth, ← index_of_detachIfAttached h hx]
  exact hx

/-! ## DETACH and RELEASE -/

theorem ofNat_toNat_sub_one {x : Byte} (h : 0 < x.toNat) : BitVec.ofNat 8 (x.toNat - 1) = x - 1 := by
  bv_omega

/-- Settles O24: the else-branch's effect on SLOT, DESC, the generator and the ports, with its frame. -/
theorem detachCompactsTheRegistry : Obligations.DetachCompactsTheRegistry := by
  intro s d c hinv hd
  rw [exec_detach hd, detachIfAttached]
  refine ⟨fun hindex => by rw [Desc.isAttached_eq_false.2 hindex]; rfl, fun hindex => ?_⟩
  have ha : c.isAttached = true := Desc.isAttached_eq_true.2 hindex
  rw [if_pos ha]
  have hi := (hinv.registryInv.indicesNameSlots d c hd ha).1
  have hdesc := fun {q x} => detachEntry_desc? hinv.contiguous hinv.membership hd ha (q := q) (x := x)
  obtain ⟨hengine, hstatus, -, hnow, hbase, hread, hsched, hn, hlast, hother⟩ :=
    detachEntry_frame d c.index.toNat s
  refine ⟨_, rfl, rfl, detachEntry_count d _ s (by omega),
    detachEntry_slotId d _ s hinv.contiguous.1 hi, ?_, fun q x hq hx => ?_, hn,
    fun h1 => hother (mt count_sub_one_eq_zero.1 h1.ne'),
    fun h1 => hlast (count_sub_one_eq_zero.2 h1), hengine, hstatus, hnow, hbase, hread, hsched⟩
  · rw [setResult_desc?, hdesc hd, if_pos rfl]
    rfl
  · simp only [setResult_desc?, hdesc hx, if_neg hq, Desc.isAttached_eq_true, Config.invalid]
    by_cases hmoved : x.index ≠ 0xFF ∧ c.index.toNat < x.index.toNat
    · rw [if_pos hmoved, if_pos hmoved, ofNat_toNat_sub_one (by omega)]
    · rw [if_neg hmoved, if_neg hmoved]

/-- Settles O25: both commands take the descriptor out of the registry, and RELEASE then gives it pin 0 and
width 1500. -/
theorem releaseDetachesAndConstructs : Obligations.ReleaseDetachesAndConstructs := by
  intro s d c hd
  have hu := detachIfAttached_desc? hd
  have hlt : d.toNat < (detachIfAttached d c s).desc.length := (List.getElem?_eq_some_iff.1 hu).1
  refine ⟨_, _, exec_detach hd, exec_release hd, ?_, ?_⟩
  · rw [construct, modifyDesc_eq_set hu]
    rfl
  · rw [construct, modifyDesc_eq_set hu]
    exact List.getElem?_set_self hlt

/-! ## Attach order (rule R38) -/

/-- The list of the attached descriptors, slot by slot. -/
theorem attachedIds_eq_map {s : State} (h : s.count ≤ Config.maxChannels) :
    s.attachedIds = (List.range s.count).map s.slotId := by
  refine List.ext_getElem (by simp [State.attachedIds, h]) fun j hj hj' => ?_
  have hlt : j < s.count := by simpa using hj'
  have h10 : j < Config.maxChannels := by omega
  simp [State.attachedIds, slotId_eq, h10]

theorem attachedIds_getElem? {s : State} (h : s.count ≤ Config.maxChannels) {i : Nat}
    (hi : i < s.count) : s.attachedIds[i]? = some (s.slotId i) := by
  rw [attachedIds_eq_map h, List.getElem?_map, List.getElem?_range hi]
  rfl

theorem attachedIds_nodup {s : State} (h : s.Contiguous) : s.attachedIds.Nodup := by
  rw [attachedIds_eq_map h.1]
  refine List.nodup_range.map_on fun i hi j hj => ?_
  exact h.slotId_inj (List.mem_range.1 hi) (List.mem_range.1 hj)

theorem attachEntry_attachedIds (d p : Byte) {s : State} (h : s.count < Config.maxChannels) :
    (attachEntry d p s).attachedIds = s.attachedIds ++ [d] := by
  have hcount := attachEntry_count d p h
  rw [attachedIds_eq_map (by omega), attachedIds_eq_map h.le, hcount, List.range_succ, List.map_append]
  congr 1
  · refine List.map_congr_left fun j hj => ?_
    have hlt := List.mem_range.1 hj
    rw [attachEntry_slotId d p h, if_neg (by omega)]
  · rw [List.map_singleton, attachEntry_slotId d p h, if_pos rfl]

/-- Entry `i` leaves the list, the rest in order (rule R115). -/
theorem detachEntry_attachedIds (d : Byte) {i : Nat} {s : State} (h : s.count ≤ Config.maxChannels)
    (hi : i < s.count) : (detachEntry d i s).attachedIds = s.attachedIds.eraseIdx i := by
  have hcount := detachEntry_count d i s (by omega)
  rw [attachedIds_eq_map (by omega), attachedIds_eq_map h, hcount]
  refine List.ext_getElem (by simp [List.length_eraseIdx_of_lt, hi]) fun j hj hj' => ?_
  have hlt : j < s.count - 1 := by simpa using hj
  rw [List.getElem_eraseIdx]
  simp only [List.getElem_map, List.getElem_range, detachEntry_slotId d i s h hi]
  by_cases hij : j < i
  · rw [if_neg (by omega), if_neg (by omega), dif_pos hij]
  · rw [if_pos (by omega), dif_neg hij]

/-- Settles O26: ATTACH appends to the list, and DETACH and RELEASE take out of it the entry that the
descriptor's index names. -/
theorem registryKeepsAttachOrder : Obligations.RegistryKeepsAttachOrder := by
  intro s t i hinv hexec
  have leaves : ∀ d c, s.desc? d = some c → c.isAttached = true → d ∈ s.attachedIds ∧
      (detachEntry d c.index.toNat s).attachedIds = s.attachedIds.erase d := by
    intro d c hd hc
    obtain ⟨hi, hs⟩ := hinv.registryInv.indicesNameSlots d c hd hc
    have hentry := attachedIds_getElem? hinv.contiguous.1 hi
    rw [hs] at hentry
    obtain ⟨hlt, hget⟩ := List.getElem?_eq_some_iff.1 hentry
    refine ⟨List.mem_of_getElem? hentry, ?_⟩
    rw [detachEntry_attachedIds d hinv.contiguous.1 hi,
      ← (attachedIds_nodup hinv.contiguous).erase_getElem _ hlt, hget]
  rcases exec_cases hexec with ⟨_, -, -, rfl⟩ | ⟨_, rfl⟩ | ⟨_, _, _, -, -, -, rfl⟩ |
    ⟨d, p, c, rfl, hd, hc, hfull, rfl⟩ | ⟨d, c, rfl, hd, hc, rfl⟩ | ⟨d, c, rfl, hd, hc, rfl⟩ |
    ⟨_, _, -, -, -, rfl⟩
  · exact .inl rfl
  · exact .inl rfl
  · exact .inl rfl
  · refine .inr (.inl ⟨d, p, rfl, fun hmem => ?_,
      attachEntry_attachedIds d p (lt_of_le_of_ne hinv.contiguous.1 hfull)⟩)
    rw [attachedIds_eq_map hinv.contiguous.1] at hmem
    obtain ⟨j, hj, hslot⟩ := List.mem_map.1 hmem
    have ha := (slot_attached hinv.contiguous hd (List.mem_range.1 hj) hslot).2
    rw [hc] at ha
    cases ha
  · exact .inr (.inr ⟨d, .inl rfl, leaves d c hd hc⟩)
  · exact .inr (.inr ⟨d, .inr rfl, leaves d c hd hc⟩)
  · exact .inl rfl

/-! ## What the three commands leave alone -/

/-- A command is no bus read and takes no turn. -/
theorem exec_readData_schedule {i : Instr} {s t : State} (h : exec i s = .next t) :
    t.readData = s.readData ∧ t.schedule = s.schedule := by
  rcases exec_cases h with ⟨_, -, -, rfl⟩ | ⟨_, rfl⟩ | ⟨_, _, _, -, -, -, rfl⟩ |
    ⟨d, p, _, -, -, -, -, rfl⟩ | ⟨d, c, -, -, -, rfl⟩ | ⟨d, c, -, -, -, rfl⟩ | ⟨_, _, -, -, -, rfl⟩
  · exact ⟨rfl, rfl⟩
  · exact ⟨rfl, rfl⟩
  · exact ⟨rfl, rfl⟩
  · obtain ⟨-, -, -, -, -, hread, hsched, -⟩ := attachEntry_frame d p s
    exact ⟨hread, hsched⟩
  · obtain ⟨-, -, -, -, -, hread, hsched, -⟩ := detachEntry_frame d c.index.toNat s
    exact ⟨hread, hsched⟩
  · obtain ⟨-, -, -, -, -, hread, hsched, -⟩ := detachEntry_frame d c.index.toNat s
    exact ⟨hread, hsched⟩
  · exact ⟨rfl, rfl⟩

/-- Pins and widths under the three commands: ATTACH writes a pin, RELEASE a pin and a width, both of the
named descriptor, DETACH none (rules R112, R115, R130). -/
theorem registryCommand_desc {s t : State} {d p : Byte} {c : Desc} {i : Instr} (hd : s.desc? d = some c)
    (hi : i ∈ [Instr.attach d p, .detach d, .release d]) (hexec : exec i s = .next t) :
    (∀ q, q ≠ d.toNat → (t.desc[q]?).map Desc.pin = (s.desc[q]?).map Desc.pin) ∧
    (∀ q, (q ≠ d.toNat ∨ i ≠ .release d) →
      (t.desc[q]?).map Desc.width = (s.desc[q]?).map Desc.width) ∧
    (i = .detach d → (t.desc? d).map Desc.pin = (s.desc? d).map Desc.pin) := by
  have hpin := getElem?_map_eq (detachIfAttached_map Desc.pin (fun _ _ => rfl) d c s)
  have hwidth := getElem?_map_eq (detachIfAttached_map Desc.width (fun _ _ => rfl) d c s)
  simp only [List.mem_cons, List.not_mem_nil, or_false] at hi
  rcases hi with rfl | rfl | rfl
  · rcases exec_attach_desc hd hexec with h | h <;> rw [h]
    · exact ⟨fun _ _ => rfl, fun _ _ => rfl, nofun⟩
    · refine ⟨fun q hq => ?_, fun q _ => ?_, nofun⟩
      · rw [List.getElem?_modify_ne _ _ hq.symm]
      · refine getElem?_map_eq (map_modify_of_keeps Desc.width (fun c => ?_) _ _) q
        rfl
  · cases (exec_detach hd).symm.trans hexec
    exact ⟨fun q _ => hpin q, fun q _ => hwidth q, fun _ => hpin d.toNat⟩
  · cases (exec_release hd).symm.trans hexec
    have hother : ∀ q, q ≠ d.toNat → (construct d (detachIfAttached d c s)).desc[q]? =
        (detachIfAttached d c s).desc[q]? := fun q hq => List.getElem?_modify_ne _ _ hq.symm
    refine ⟨fun q hq => ?_, fun q hq => ?_, nofun⟩
    · rw [setResult_desc, hother q hq, hpin]
    · rw [setResult_desc, hother q (hq.resolve_right fun h => h rfl), hwidth]

/-- Settles O34: the scalar fields by what every command keeps, pins and widths command by command. -/
theorem registryCommandsFrame : Obligations.RegistryCommandsFrame := by
  intro s t d p i hlt hi hexec
  have hwf : i.wellFormed s.nDesc = true := by
    simp only [List.mem_cons, List.not_mem_nil, or_false] at hi
    rcases hi with rfl | rfl | rfl <;> exact decide_eq_true hlt
  obtain ⟨hnow, hbase, hn, -⟩ := exec_sameMoment hexec
  obtain ⟨hread, hsched⟩ := exec_readData_schedule hexec
  obtain ⟨hpins, hwidths, hown⟩ := registryCommand_desc (List.getElem?_eq_getElem hlt) hi hexec
  exact ⟨exec_engine hexec, exec_status_of_wellFormed hwf hexec, hnow, hbase, hread, hsched, hn, hpins,
    hwidths, hown, exec_trace hexec⟩

end Sys2Proof.Machine
end

section
/-! PROOFS. The generator and the radio port (41_generator.md rules R140 to R146): what a step can do to
both, the cadence of the requests, and the session's events. -/

namespace Sys2Proof.Machine

/-! ## The refresh trigger under a Tick (rule R143) -/

/-- The three ways of the refresh trigger: stopped, its last count, a count before. -/
theorem tickTrigger_cases (s : State) :
    (s.gen.run = false ∧ tickTrigger s = s) ∨
    (s.gen.run = true ∧ s.gen.trigCnt = 1 ∧
      tickTrigger s = { emit (.request theRequest) s with gen := ⟨true, 10000⟩ }) ∨
    (s.gen.run = true ∧ s.gen.trigCnt ≠ 1 ∧
      tickTrigger s = { s with gen := ⟨true, s.gen.trigCnt - 1⟩ }) := by
  unfold tickTrigger
  split_ifs with hrun hlast
  · exact .inr (.inl ⟨hrun, sub_eq_zero.1 hlast, by simp only [hrun]; rfl⟩)
  · exact .inr (.inr ⟨hrun, mt sub_eq_zero.2 hlast, by simp only [hrun]⟩)
  · exact .inl ⟨Bool.eq_false_iff.2 hrun, rfl⟩

@[simp] theorem tickWait_trace (s : State) : (tickWait s).trace = s.trace := by
  unfold tickWait
  split_ifs <;> rfl

theorem tickWait_of_idle {s : State} (h : s.engine.st = .idle) : tickWait s = s :=
  if_neg fun hact => EngState.noConfusion (h.symm.trans hact)

/-! ## Ticks from GenStart on, with the engine idle (rule R144) -/

/-- The state `k` Ticks after `s`, in which GenStart left the trigger at 10000, with the turns `rest` still
to come. -/
def refreshed (s : State) (rest : List Turn) (k : Nat) : State :=
  { s with
    now := s.now + k
    schedule := rest
    gen := ⟨true, BitVec.ofNat 14 (10000 - k % 10000)⟩
    trace := s.trace ++ (List.range (k / 10000)).map fun j =>
      ⟨s.now + 10000 * (j + 1), .request theRequest⟩ }

theorem refreshed_zero {s : State} {rest : List Turn} (hs : s.schedule = rest)
    (hgen : s.gen = ⟨true, 10000⟩) : refreshed s rest 0 = s := by
  cases s
  cases hs; cases hgen
  simp [refreshed]

/-- The trigger's count is 1 before each Tick that completes a refresh interval. -/
theorem refreshed_trigCnt_eq_one {s : State} {rest : List Turn} {k : Nat} :
    (refreshed s rest k).gen.trigCnt = 1 ↔ k % 10000 = 9999 := by
  rw [← BitVec.toNat_inj]
  change (BitVec.ofNat 14 (10000 - k % 10000)).toNat = 1 ↔ _
  rw [BitVec.toNat_ofNat]
  omega

theorem refreshed_succ {s : State} {rest : List Turn} {k : Nat} {g : Generator} {tr : List Stamped}
    (hgen : (refreshed s rest (k + 1)).gen = g) (htrace : (refreshed s rest (k + 1)).trace = tr) :
    refreshed s rest (k + 1) =
      { refreshed s rest k with now := (refreshed s rest k).now + 1, gen := g, trace := tr } := by
  rw [← hgen, ← htrace]
  rfl

theorem tick_refreshed {s : State} (hidle : s.engine.st = .idle) (rest : List Turn) (k : Nat) :
    tick (refreshed s rest k) = refreshed s rest (k + 1) := by
  have hone := refreshed_trigCnt_eq_one (s := s) (rest := rest) (k := k)
  rw [tick]
  rcases tickTrigger_cases { refreshed s rest k with now := (refreshed s rest k).now + 1 } with
    ⟨hstop, -⟩ | ⟨-, hlast, h⟩ | ⟨-, hlast, h⟩
  · cases hstop
  · have hk := hone.1 hlast
    have hmod : (k + 1) % 10000 = 0 := by omega
    have hdiv : (k + 1) / 10000 = k / 10000 + 1 := by omega
    have htime : s.now + 10000 * (k / 10000 + 1) = s.now + k + 1 := by omega
    rw [h, refreshed_succ (g := ⟨true, 10000⟩)
      (tr := (refreshed s rest k).trace ++ [⟨s.now + k + 1, .request theRequest⟩])]
    · exact tickWait_of_idle hidle
    · simp only [refreshed, hmod]
      rfl
    · simp only [refreshed, hdiv, List.range_succ, List.map_append, List.map_singleton, htime,
        List.append_assoc]
  · have hk := mt hone.2 hlast
    have hmod : 10000 - (k + 1) % 10000 = 10000 - k % 10000 - 1 := by omega
    have hdiv : (k + 1) / 10000 = k / 10000 := by omega
    have hpred : BitVec.ofNat 14 (10000 - k % 10000 - 1) = BitVec.ofNat 14 (10000 - k % 10000) - 1 :=
      (BitVec.ofNat_sub_ofNat_of_le _ 1 (by decide) (by omega)).symm
    rw [h, refreshed_succ (g := ⟨true, (refreshed s rest k).gen.trigCnt - 1⟩)
      (tr := (refreshed s rest k).trace)]
    · exact tickWait_of_idle hidle
    · simp only [refreshed, hmod, hpred]
    · simp only [refreshed, hdiv]

theorem run_succ_of_run (M : Host.Core) {k : Nat} {s t : M.State} (h : M.run k s = .next t) :
    M.run (k + 1) s = M.step t := by
  induction k generalizing s with
  | zero =>
    cases h
    rw [Host.Core.run]
    cases M.step t <;> rfl
  | succ k ih =>
    rw [Host.Core.run] at h ⊢
    cases hstep : M.step s with
    | next u =>
      rw [hstep] at h
      exact ih h
    | fault r => rw [hstep] at h; cases h
    | refused r => rw [hstep] at h; cases h

/-- Ticks from GenStart on, with the engine idle, do nothing but count and request (rule R144). -/
theorem run_of_ticks (k : Nat) {s : State} {rest : List Turn} (hidle : s.engine.st = .idle)
    (hgen : s.gen = ⟨true, 10000⟩) (hs : s.schedule = List.replicate k .tick ++ rest) :
    Sys2Proof.core.run k s = .next (refreshed s rest k) := by
  induction k generalizing rest with
  | zero => exact congrArg Host.Outcome.next (refreshed_zero hs hgen).symm
  | succ k ih =>
    have hs' : s.schedule = List.replicate k .tick ++ (.tick :: rest) := by
      rw [hs, List.replicate_succ', List.append_assoc]
      rfl
    have hen : tickEnabled (refreshed s (.tick :: rest) k) = true :=
      tickEnabled_iff.2 ⟨fun h => EngState.noConfusion (hidle.symm.trans h.1),
        fun h => EngState.noConfusion (hidle.symm.trans h)⟩
    have hstep := step_of_tick_enabled (s := refreshed s (.tick :: rest) k) rfl hen
    rw [run_succ_of_run Sys2Proof.core (ih hs')]
    exact hstep.trans (congrArg Host.Outcome.next (tick_refreshed hidle rest k))

/-! ## The radio port over one step -/

/-- The events on the radio port that a step added. -/
def newRadio (s t : State) : List Stamped := portTrace .radio (newEvents s t)

theorem newRadio_eq {s t : State} {es : List Stamped} (h : t.trace = s.trace ++ es) :
    newRadio s t = portTrace .radio es := by rw [newRadio, newEvents_eq h]

theorem newRadio_eq_nil {s t : State} (h : t.trace = s.trace) : newRadio s t = [] := by
  rw [newRadio, newEvents_of_trace_eq h]
  rfl

/-- Requests are events of the radio port. -/
theorem requestEvents_portTrace (tr : List Stamped) :
    requestEvents (portTrace .radio tr) = requestEvents tr := by
  rw [requestEvents, requestEvents, portTrace, List.filter_filter]
  refine List.filter_congr fun e _ => ?_
  obtain ⟨_, event⟩ := e
  cases event <;> rfl

/-- Session events are events of the radio port. -/
theorem sessionEvents_portTrace (tr : List Stamped) :
    sessionEvents (portTrace .radio tr) = sessionEvents tr := by
  rw [sessionEvents, sessionEvents, portTrace, List.filter_filter]
  refine List.filter_congr fun e _ => ?_
  obtain ⟨_, event⟩ := e
  cases event <;> rfl

/-- What a step other than a reset does to time, the generator and the radio port: nothing, GenStart,
GenStop, or a Tick with the generator stopped, before its last count, at its last count (rules R140, R141,
R143). -/
def RadioStep (s t : State) : Prop :=
  (t.now = s.now ∧ t.gen = s.gen ∧ newRadio s t = []) ∨
  (s.gen.run = false ∧ t.gen.run = true ∧
    newRadio s t = [⟨s.now, .openSession⟩, ⟨s.now, .request theRequest⟩]) ∨
  (s.gen.run = true ∧ t.gen.run = false ∧ newRadio s t = [⟨s.now, .closeSession⟩]) ∨
  (s.gen.run = false ∧ t.now = s.now + 1 ∧ t.gen = s.gen ∧ newRadio s t = []) ∨
  (s.gen.run = true ∧ s.gen.trigCnt ≠ 1 ∧ t.now = s.now + 1 ∧ t.gen = ⟨true, s.gen.trigCnt - 1⟩ ∧
    newRadio s t = []) ∨
  (s.gen.run = true ∧ s.gen.trigCnt = 1 ∧ t.now = s.now + 1 ∧ t.gen = ⟨true, 10000⟩ ∧
    newRadio s t = [⟨s.now + 1, .request theRequest⟩])

namespace RadioStep

theorem of_silent {s t : State} {es : List Stamped} (hnow : t.now = s.now) (hgen : t.gen = s.gen)
    (htrace : t.trace = s.trace ++ es) (hes : ∀ e ∈ es, e.event.port ≠ .radio) : RadioStep s t := by
  refine .inl ⟨hnow, hgen, ?_⟩
  rw [newRadio_eq htrace]
  exact List.filter_eq_nil_iff.2 fun e he h => hes e he (of_decide_eq_true h)

theorem of_trace_eq {s t : State} (hnow : t.now = s.now) (hgen : t.gen = s.gen)
    (htrace : t.trace = s.trace) : RadioStep s t :=
  .inl ⟨hnow, hgen, newRadio_eq_nil htrace⟩

end RadioStep

theorem attachEntry_radioStep {s : State} (h : s.GenOk) (d p : Byte) :
    RadioStep s (attachEntry d p s) := by
  obtain ⟨-, -, -, hnow, -, -, -, -, -, -, hfirst, hlater⟩ := attachEntry_frame d p s
  by_cases h0 : s.registry.count = 0
  · obtain ⟨hgen, htrace⟩ := hfirst h0
    have hstopped : s.gen.run = false := by
      rw [← Bool.not_eq_true, h.1, count_eq_zero.1 h0]
      exact lt_irrefl 0
    exact .inr (.inl ⟨hstopped, by rw [hgen], newRadio_eq htrace⟩)
  · obtain ⟨hgen, htrace⟩ := hlater h0
    exact .of_silent hnow hgen htrace (by simp [PortEvent.port])

theorem detachEntry_radioStep {s : State} (h : s.GenOk) (d : Byte) (i : Nat) :
    RadioStep s (detachEntry d i s) := by
  obtain ⟨-, -, -, hnow, -, -, -, -, hlast, hother⟩ := detachEntry_frame d i s
  by_cases h1 : s.registry.count - 1 = 0
  · obtain ⟨hgen, htrace⟩ := hlast h1
    have hrunning : s.gen.run = true := h.1.2 (by rw [count_sub_one_eq_zero.1 h1]; exact one_pos)
    exact .inr (.inr (.inl ⟨hrunning, by rw [hgen]; rfl, newRadio_eq htrace⟩))
  · obtain ⟨hgen, htrace⟩ := hother h1
    exact .of_trace_eq hnow hgen htrace

theorem exec_radioStep {i : Instr} {s t : State} (h : s.GenOk) (hexec : exec i s = .next t) :
    RadioStep s t := by
  rcases exec_cases hexec with ⟨_, -, -, rfl⟩ | ⟨_, rfl⟩ | ⟨_, _, _, -, -, -, rfl⟩ |
    ⟨d, p, _, -, -, -, -, rfl⟩ | ⟨d, c, -, -, -, rfl⟩ | ⟨d, c, -, -, -, rfl⟩ | ⟨_, _, -, -, -, rfl⟩
  · exact .of_trace_eq rfl rfl rfl
  · exact .of_trace_eq rfl rfl rfl
  · exact .of_trace_eq rfl rfl rfl
  · exact attachEntry_radioStep h d p
  · exact detachEntry_radioStep h d _
  · exact detachEntry_radioStep h d _
  · exact .of_trace_eq rfl rfl rfl

theorem hostWrite_radioStep {addr : Nat} {data : List Byte} {s t : State} (h : s.GenOk)
    (hw : hostWrite addr data s = .next t) : RadioStep s t := by
  rcases hostWrite_cases hw with rfl | ⟨i, -, -, hexec⟩ | ⟨_, -, -, -, rfl⟩ | ⟨-, -, rfl⟩ |
    ⟨_, -, -, -, rfl⟩
  · exact .of_trace_eq rfl rfl rfl
  · exact exec_radioStep h hexec
  · exact .of_trace_eq rfl rfl rfl
  · exact .of_trace_eq rfl rfl rfl
  · exact .of_trace_eq rfl rfl rfl

theorem hostRead_radioStep (addr n : Nat) (s : State) : RadioStep s (hostRead addr n s) := by
  rcases hostRead_cases addr n s with h | ⟨_, _, -, -, h⟩ | ⟨_, -, -, -, h⟩ <;> rw [h] <;>
    exact .of_trace_eq rfl rfl rfl

/-- The engine's own events are of the pin and the action port (rules R160, R162). -/
theorem engineStep_radioStep (s : State) : RadioStep s (engineStep s) := by
  rcases engineStep_cases s with ⟨-, -, h⟩ | ⟨-, h⟩ | ⟨-, h⟩ <;> rw [h]
  · exact .of_silent rfl rfl rfl (by simp [PortEvent.port])
  · exact .of_silent rfl rfl rfl (by simp [PortEvent.port])
  · exact .of_trace_eq rfl rfl rfl

/-- A delivery drives pins and gives answers (rule R155). -/
theorem deliver_radioStep (code : Byte) (s : State) : RadioStep s (deliver code s) := by
  rcases deliver_cases code s with ⟨-, -, h⟩ | ⟨-, -, h⟩ | ⟨-, -, h⟩ | ⟨-, -, h⟩ | ⟨-, -, h⟩ <;> rw [h]
  · exact .of_silent rfl rfl rfl (by simp [PortEvent.port])
  · exact .of_silent rfl rfl rfl (by simp [PortEvent.port])
  · exact .of_silent rfl rfl (List.append_assoc _ _ _) (by simp [PortEvent.port])
  · exact .of_silent rfl rfl rfl (by simp [PortEvent.port])
  · exact .of_silent rfl rfl rfl (by simp [PortEvent.port])

theorem tick_radioStep (s : State) : RadioStep s (tick s) := by
  have hnow : (tick s).now = s.now + 1 := (tick_sameMoment s).now
  have hgen : (tick s).gen = (tickTrigger { s with now := s.now + 1 }).gen := tickWait_gen _
  have htrace : (tick s).trace = (tickTrigger { s with now := s.now + 1 }).trace := tickWait_trace _
  rcases tickTrigger_cases { s with now := s.now + 1 } with ⟨hrun, h⟩ | ⟨hrun, hcnt, h⟩ |
    ⟨hrun, hcnt, h⟩ <;> rw [h] at hgen htrace
  · exact .inr (.inr (.inr (.inl ⟨hrun, hnow, hgen, newRadio_eq_nil htrace⟩)))
  · exact .inr (.inr (.inr (.inr (.inr ⟨hrun, hcnt, hnow, hgen, newRadio_eq htrace⟩))))
  · exact .inr (.inr (.inr (.inr (.inl ⟨hrun, hcnt, hnow, hgen, newRadio_eq_nil htrace⟩))))

/-- Everything a step can do to the generator and on the radio port. -/
theorem step_radioStep {s t : State} (h : s.GenOk) (hstep : step s = .next t) :
    RadioStep s t ∨ ∃ rest, s.schedule = .reset :: rest ∧ t.gen.run = false := by
  rcases step_cases hstep with ⟨-, -, rfl⟩ | ⟨-, -, rfl⟩ | ⟨u, rest, hs, hturn⟩
  · exact .inl (tick_radioStep s)
  · exact .inl (engineStep_radioStep s)
  rcases hturn with ⟨addr, n, -, rfl⟩ | ⟨addr, data, -, hw⟩ | ⟨code, -, rfl⟩ | ⟨-, -, rfl⟩ |
    ⟨-, -, rfl⟩ | ⟨-, rfl⟩ | ⟨rfl, rfl⟩
  · exact .inl (hostRead_radioStep addr n { s with schedule := rest })
  · exact .inl (hostWrite_radioStep (s := { s with schedule := rest }) h hw)
  · exact .inl (deliver_radioStep code { s with schedule := rest })
  · exact .inl (tick_radioStep { s with schedule := rest })
  · exact .inl (engineStep_radioStep s)
  · exact .inl (engineStep_radioStep { s with schedule := rest })
  · exact .inr ⟨rest, hs, rfl⟩

/-! ## Requests and session events -/

/-- Settles O38: run by run for the Ticks from GenStart on, and by what a step can do on the radio port for
every other step. -/
theorem requestsComeEveryRefreshInterval : Obligations.RequestsComeEveryRefreshInterval := by
  refine ⟨fun k s rest hs hidle hgen => run_of_ticks k hidle hgen hs,
    fun s t hinv hstep hrun hrun' => ?_⟩
  dsimp only
  have hpos := (hinv.gen.2.1 hrun).1
  rw [← requestEvents_portTrace]
  change (requestEvents (newRadio s t) = _ ∧ _) ∨ (requestEvents (newRadio s t) = _ ∧ _)
  rcases step_radioStep hinv.gen hstep with hradio | ⟨_, -, hstop⟩
  · rcases hradio with ⟨hnow, hgen, h⟩ | ⟨hstop, -⟩ | ⟨-, hstop, -⟩ | ⟨hstop, -⟩ |
      ⟨-, hcnt, hnow, hgen, h⟩ | ⟨-, hcnt, hnow, hgen, h⟩
    · rw [h, hnow, hgen]
      exact .inl ⟨rfl, by omega, rfl⟩
    · rw [hrun] at hstop; cases hstop
    · rw [hrun'] at hstop; cases hstop
    · rw [hrun] at hstop; cases hstop
    · have hne : s.gen.trigCnt.toNat ≠ 1 := fun h1 => hcnt (BitVec.eq_of_toNat_eq h1)
      have hpred : (s.gen.trigCnt - 1).toNat = s.gen.trigCnt.toNat - 1 :=
        BitVec.toNat_sub_of_le (BitVec.le_def.2 hpos)
      rw [h, hnow, hgen]
      exact .inl ⟨rfl, by omega, by simp only [hpred]; omega⟩
    · rw [h, hnow, hgen, hcnt]
      exact .inr ⟨rfl, rfl, rfl⟩
  · rw [hrun'] at hstop; cases hstop

/-- Settles O39: by what a step can do on the radio port. -/
theorem sessionEventsFollowTheGenerator : Obligations.SessionEventsFollowTheGenerator := by
  intro s t hinv hstep hreset
  rw [← sessionEvents_portTrace]
  change (sessionEvents (newRadio s t)).map Stamped.event = _
  rcases step_radioStep hinv.gen hstep with hradio | ⟨rest, hs, -⟩
  · rcases hradio with ⟨-, hgen, h⟩ | ⟨hrun, hrun', h⟩ | ⟨hrun, hrun', h⟩ | ⟨-, -, hgen, h⟩ |
      ⟨hrun, -, -, hgen, h⟩ | ⟨hrun, -, -, hgen, h⟩ <;> rw [h]
    · rw [hgen]; cases s.gen.run <;> rfl
    · rw [hrun, hrun']; rfl
    · rw [hrun, hrun']; rfl
    · rw [hgen]; cases s.gen.run <;> rfl
    · rw [hrun, hgen]; rfl
    · rw [hrun, hgen]; rfl
  · exact absurd hs (hreset rest)

end Sys2Proof.Machine
end

section
/-! PROOFS. The timebase's Tick (41_generator.md rules R143, R167, R197): its whole effect, what it leaves
when nothing runs, and the generator that the pulse engine neither reads nor is written by. -/

namespace Sys2Proof.Machine

/-! ## What a Tick does (rule R143) -/

/-- The three ways of a Tick with the generator and the trace. -/
theorem tick_gen_trace_cases (s : State) :
    (s.gen.run = false ∧ (tick s).gen = s.gen ∧ (tick s).trace = s.trace) ∨
    (s.gen.run = true ∧ s.gen.trigCnt = 1 ∧ (tick s).gen = ⟨true, 10000⟩ ∧
      (tick s).trace = s.trace ++ [⟨s.now + 1, .request theRequest⟩]) ∨
    (s.gen.run = true ∧ s.gen.trigCnt ≠ 1 ∧ (tick s).gen = ⟨true, s.gen.trigCnt - 1⟩ ∧
      (tick s).trace = s.trace) := by
  rw [tick, tickWait_gen, tickWait_trace]
  rcases tickTrigger_cases { s with now := s.now + 1 } with ⟨hrun, h⟩ | ⟨hrun, hcnt, h⟩ |
    ⟨hrun, hcnt, h⟩ <;> rw [h]
  · exact .inl ⟨hrun, rfl, rfl⟩
  · exact .inr (.inl ⟨hrun, hcnt, rfl, rfl⟩)
  · exact .inr (.inr ⟨hrun, hcnt, rfl, rfl⟩)

theorem tick_engine_of_active {s : State} (h : s.engine.st = .slotActive) :
    (tick s).engine = { s.engine with waitCnt := s.engine.waitCnt - 1 } := by
  simp [tick, tickWait, h]

theorem tick_engine_of_not_active {s : State} (h : s.engine.st ≠ .slotActive) :
    (tick s).engine = s.engine := by
  simp [tick, tickWait, h]

theorem tick_result_readData (s : State) :
    (tick s).result = s.result ∧ (tick s).readData = s.readData := by
  unfold tick tickWait tickTrigger
  split_ifs <;> exact ⟨rfl, rfl⟩

/-- Settles O37: the trigger by its three ways, the wait by whether a train is active. -/
theorem tickCountsTimeTriggerAndWait : Obligations.TickCountsTimeTriggerAndWait := by
  refine ⟨fun _ => tickEnabled_iff, fun s rest hs hwake hend => ?_⟩
  have hstep := step_of_tick_enabled hs (tickEnabled_iff.2 ⟨hwake, hend⟩)
  have htrigger := tick_gen_trace_cases { s with schedule := rest }
  obtain ⟨hdesc, hreg, hstatus⟩ := tick_frame { s with schedule := rest }
  obtain ⟨hresult, hread⟩ := tick_result_readData { s with schedule := rest }
  have htime := tick_sameMoment { s with schedule := rest }
  refine ⟨_, hstep, htime.now, tick_schedule _, fun hrun => ?_, fun hrun hcnt => ?_,
    fun hrun hcnt => ?_, fun hact => ?_, tick_engine_of_not_active (s := { s with schedule := rest }),
    hdesc, hreg, hstatus, hresult, htime.base, hread⟩
  · rcases htrigger with ⟨-, h⟩ | ⟨hrun', -⟩ | ⟨hrun', -⟩
    · exact h
    · exact Bool.noConfusion (hrun.symm.trans hrun')
    · exact Bool.noConfusion (hrun.symm.trans hrun')
  · rcases htrigger with ⟨hstop, -⟩ | ⟨-, hone, -⟩ | ⟨-, -, hgen, htrace⟩
    · exact Bool.noConfusion (hrun.symm.trans hstop)
    · rw [hone] at hcnt
      exact absurd hcnt (by decide)
    · rw [hgen]
      exact ⟨rfl, BitVec.toNat_sub_of_le (BitVec.le_def.2 (Nat.le_of_succ_le hcnt)), htrace⟩
  · rcases htrigger with ⟨hstop, -⟩ | ⟨-, -, hgen, htrace⟩ | ⟨-, hne, -⟩
    · exact Bool.noConfusion (hrun.symm.trans hstop)
    · rw [hgen]
      exact ⟨rfl, rfl, htrace⟩
    · exact absurd (BitVec.eq_of_toNat_eq hcnt) hne
  · rw [tick_engine_of_active (s := { s with schedule := rest }) hact]
    have hne : s.engine.waitCnt ≠ 0 := fun h0 => hwake ⟨hact, h0⟩
    refine ⟨rfl, ?_⟩
    change (s.engine.waitCnt - 1).toNat + 1 = s.engine.waitCnt.toNat
    bv_omega

/-! ## Stopped and idle (rule R197) -/

theorem tick_of_stopped_idle {s : State} (hstop : s.gen.run = false) (hidle : s.engine.st = .idle) :
    tick s = { s with now := s.now + 1 } := by
  have htrigger : tickTrigger { s with now := s.now + 1 } = { s with now := s.now + 1 } := by
    rw [tickTrigger, hstop]
    rfl
  rw [tick, htrigger]
  exact tickWait_of_idle hidle

theorem tickEnabled_of_idle {s : State} (hidle : s.engine.st = .idle) : tickEnabled s = true := by
  rw [tickEnabled_iff, hidle]
  exact ⟨fun h => EngState.noConfusion h.1, nofun⟩

/-- The engine has no step to take when idle (log 7). -/
theorem engineStep_of_idle {s : State} (hidle : s.engine.st = .idle) : engineStep s = s := by
  rcases engineStep_cases s with ⟨hact, -⟩ | ⟨hend, -⟩ | ⟨-, h⟩
  · exact EngState.noConfusion (hidle.symm.trans hact)
  · exact EngState.noConfusion (hidle.symm.trans hend)
  · exact h

theorem step_tick_of_stopped_idle {s : State} {rest : List Turn} (hs : s.schedule = .tick :: rest)
    (hstop : s.gen.run = false) (hidle : s.engine.st = .idle) :
    step s = .next { s with now := s.now + 1, schedule := rest } := by
  rw [step_of_tick_enabled hs (tickEnabled_of_idle hidle)]
  exact congrArg _ (tick_of_stopped_idle (s := { s with schedule := rest }) hstop hidle)

theorem run_ticks_of_stopped_idle (k : Nat) {s : State} {rest : List Turn}
    (hs : s.schedule = List.replicate k .tick ++ rest) (hstop : s.gen.run = false)
    (hidle : s.engine.st = .idle) :
    Sys2Proof.core.run k s = .next { s with now := s.now + k, schedule := rest } := by
  induction k generalizing s with
  | zero =>
    cases s
    cases hs
    rfl
  | succ k ih =>
    have hstep := step_tick_of_stopped_idle hs hstop hidle
    have hrest := ih (s := { s with now := s.now + 1, schedule := List.replicate k .tick ++ rest })
      rfl hstop hidle
    refine (run_succ_of_step Sys2Proof.core hstep k).trans (hrest.trans ?_)
    simp only [Nat.add_assoc, Nat.add_comm 1 k]

/-- Settles O40: a Tick by Tick run, and the engine's turn without an urgent step. -/
theorem stoppedAndIdleOnlyTimePasses : Obligations.StoppedAndIdleOnlyTimePasses := by
  refine ⟨fun k s rest hs hstop hidle => run_ticks_of_stopped_idle k hs hstop hidle,
    fun s rest hs hidle => ?_⟩
  rw [step_of_turn hs]
  exact congrArg _ (engineStep_of_idle (s := { s with schedule := rest }) hidle)

/-! ## The pulse engine and the generator (rule R167) -/

theorem engineStep_withGen (s : State) (g : Generator) :
    engineStep { s with gen := g } = { engineStep s with gen := g } := by
  have hwake : wakeEnabled { s with gen := g } = wakeEnabled s := rfl
  have hend : endEnabled { s with gen := g } = endEnabled s := rfl
  unfold engineStep
  rw [hwake, hend]
  split_ifs <;> rfl

theorem deliver_withGen (s : State) (g : Generator) (code : Byte) :
    deliver code { s with gen := g } = { deliver code s with gen := g } := by
  unfold deliver
  cases eventKind code with
  | slotStarted =>
    dsimp only [slotStarted]
    split_ifs <;> rfl
  | timerExpiry =>
    dsimp only [timerExpiry]
    split_ifs <;> rfl
  | radio => rfl
  | other c => rfl

/-- Settles O47: the engine's step and the deliveries decide by the engine's state and the code alone. -/
theorem engineAndGeneratorAreIndependent : Obligations.EngineAndGeneratorAreIndependent := by
  intro s g code
  obtain ⟨-, -, hdeliver⟩ := deliver_frame code s
  obtain ⟨-, -, hstep⟩ := engineStep_frame s
  exact ⟨deliver_withGen s g code, engineStep_withGen s g, hdeliver, hstep, genStart_engine s,
    genStop_engine s⟩

end Sys2Proof.Machine
end

section
/-! PROOFS. What a step can do to the pulse engine and the pins (42_pulse_engine.md rules R155 to R164), and
the start time that a train's counters show (10_state.md rule R46). -/

namespace Sys2Proof.Machine

/-! ## The pin drives of one step -/

/-- The pin drives that a step added to the trace. -/
def newPins (s t : State) : List Stamped := pinDrives (newEvents s t)

theorem newPins_eq {s t : State} {es : List Stamped} (h : t.trace = s.trace ++ es) :
    newPins s t = pinDrives es := by rw [newPins, newEvents_eq h]

theorem newPins_eq_nil {s t : State} (h : t.trace = s.trace) : newPins s t = [] := by
  rw [newPins, newEvents_of_trace_eq h]
  rfl

theorem newPins_of_silent {s t : State} {es : List Stamped} (h : t.trace = s.trace ++ es)
    (hes : pinDrives es = []) : newPins s t = [] := (newPins_eq h).trans hes

theorem pinDrives_eq_self {tr : List Stamped} (h : ∀ e ∈ tr, ∃ p l, e.event = .set p l) :
    pinDrives tr = tr :=
  List.filter_eq_self.2 fun e he => (List.mem_filter.1 (mem_pinDrives.2 ⟨he, h e he⟩)).2

/-! ## What a step can do to the pulse engine -/

/-- What a step that aborts no train does to time, the pulse engine and the pins: nothing, a Tick with the
engine idle, a Tick of a train's wait, a slot start, a Wake, an End (rules R143, R158, R160, R162). -/
inductive PulseStep (s t : State) : Prop
  | keep (now : t.now = s.now) (engine : t.engine = s.engine) (pins : newPins s t = [])
  | idleTick (idle : s.engine.st = .idle) (now : t.now = s.now + 1) (engine : t.engine = s.engine)
      (pins : newPins s t = [])
  | waitTick (active : s.engine.st = .slotActive) (wait : s.engine.waitCnt ≠ 0)
      (now : t.now = s.now + 1)
      (engine : t.engine = { s.engine with waitCnt := s.engine.waitCnt - 1 })
      (pins : newPins s t = [])
  | slotStart (idle : s.engine.st = .idle) (now : t.now = s.now)
      (engine : t.engine = (loadSnapshot s).rise)
      (pins : newPins s t = (loadSnapshot s).entries.map fun x => ⟨s.now, .set x.pin .high⟩)
  | wake (active : s.engine.st = .slotActive) (wait : s.engine.waitCnt = 0) (now : t.now = s.now)
      (engine : t.engine = s.engine.lowerDue.rewait)
      (pins : newPins s t = s.engine.due.map fun k => ⟨s.now, .set (s.engine.pinOf k) .low⟩)
  | endSlot (ending : s.engine.st = .ending) (now : t.now = s.now)
      (engine : t.engine = { s.engine with st := .idle }) (pins : newPins s t = [])

/-- The turns still to come play no part. -/
theorem PulseStep.of_setSchedule {s t : State} {rest : List Turn}
    (h : PulseStep { s with schedule := rest } t) : PulseStep s t := by
  cases h with
  | keep now engine pins => exact .keep now engine pins
  | idleTick idle now engine pins => exact .idleTick idle now engine pins
  | waitTick active wait now engine pins => exact .waitTick active wait now engine pins
  | slotStart idle now engine pins => exact .slotStart idle now engine pins
  | wake active wait now engine pins => exact .wake active wait now engine pins
  | endSlot ending now engine pins => exact .endSlot ending now engine pins

theorem hostRead_pulseStep (addr n : Nat) (s : State) : PulseStep s (hostRead addr n s) := by
  rcases hostRead_cases addr n s with h | ⟨_, _, -, -, h⟩ | ⟨_, -, -, -, h⟩ <;> rw [h] <;>
    exact .keep rfl rfl (newPins_eq_nil rfl)

theorem exec_pulseStep {i : Instr} {s t : State} (h : exec i s = .next t) : PulseStep s t := by
  obtain ⟨es, htrace, hes⟩ := exec_trace h
  exact .keep (exec_sameMoment h).now (exec_engine h) (newPins_of_silent htrace hes)

theorem hostWrite_pulseStep {addr : Nat} {data : List Byte} {s t : State}
    (hw : hostWrite addr data s = .next t) : PulseStep s t := by
  rcases hostWrite_cases hw with rfl | ⟨i, -, -, hexec⟩ | ⟨_, -, -, -, rfl⟩ | ⟨-, -, rfl⟩ |
    ⟨_, -, -, -, rfl⟩
  · exact .keep rfl rfl (newPins_eq_nil rfl)
  · exact exec_pulseStep hexec
  · exact .keep rfl rfl (newPins_eq_nil rfl)
  · exact .keep rfl rfl (newPins_eq_nil rfl)
  · exact .keep rfl rfl (newPins_eq_nil rfl)

theorem slotStart_pulseStep {s : State} (h : s.engine.st = .idle) : PulseStep s (slotStart s) := by
  refine .slotStart h rfl rfl ((newPins_eq rfl).trans ?_)
  rw [List.map_map, pinDrives_eq_self (by simp)]
  rfl

/-- A delivery starts a slot, aborts a train, or only answers (rule R155). -/
theorem deliver_pulseStep (code : Byte) (s : State) :
    PulseStep s (deliver code s) ∨ (code = 0x01 ∧ (deliver code s).engine.st = .idle) := by
  rcases deliver_cases code s with ⟨-, hidle, h⟩ | ⟨-, -, h⟩ | ⟨rfl, -, h⟩ | ⟨-, -, h⟩ | ⟨-, -, h⟩ <;>
    rw [h]
  · exact .inl (slotStart_pulseStep hidle)
  · exact .inl (.keep rfl rfl (newPins_of_silent rfl rfl))
  · exact .inr ⟨rfl, rfl⟩
  · exact .inl (.keep rfl rfl (newPins_of_silent rfl rfl))
  · exact .inl (.keep rfl rfl (newPins_of_silent rfl rfl))

theorem engineStep_pulseStep (s : State) : PulseStep s (engineStep s) := by
  rcases engineStep_cases s with ⟨hactive, hwait, h⟩ | ⟨hend, h⟩ | ⟨-, h⟩ <;> rw [h]
  · refine .wake hactive hwait rfl rfl ((newPins_eq rfl).trans ?_)
    rw [List.map_map, pinDrives_eq_self (by simp)]
    rfl
  · exact .endSlot hend rfl rfl (newPins_of_silent rfl rfl)
  · exact .keep rfl rfl (newPins_eq_nil rfl)

theorem newPins_tick (s : State) : newPins s (tick s) = [] := by
  rcases tick_gen_trace_cases s with ⟨-, -, h⟩ | ⟨-, -, -, h⟩ | ⟨-, -, -, h⟩
  · exact newPins_eq_nil h
  · exact newPins_of_silent h rfl
  · exact newPins_eq_nil h

theorem tick_pulseStep {s : State} (hen : tickEnabled s = true) : PulseStep s (tick s) := by
  obtain ⟨hwake, hend⟩ := tickEnabled_iff.1 hen
  have hnow : (tick s).now = s.now + 1 := (tick_sameMoment s).now
  cases hst : s.engine.st with
  | idle =>
    have hne : s.engine.st ≠ .slotActive := by rw [hst]; nofun
    exact .idleTick hst hnow (tick_engine_of_not_active hne) (newPins_tick s)
  | slotActive =>
    exact .waitTick hst (fun h0 => hwake ⟨hst, h0⟩) hnow (tick_engine_of_active hst) (newPins_tick s)
  | ending => exact absurd hst hend

/-- Everything a step can do to the pulse engine: a `PulseStep`, or by a timer expiry or a reset it leaves
the engine IDLE (rules R164, R200). -/
theorem step_pulseStep {s t : State} (h : step s = .next t) :
    PulseStep s t ∨ ((∃ rest, s.schedule = .deliver 0x01 :: rest ∨ s.schedule = .reset :: rest) ∧
      t.engine.st = .idle) := by
  rcases step_cases h with ⟨-, hen, rfl⟩ | ⟨-, -, rfl⟩ | ⟨u, rest, hs, hturn⟩
  · exact .inl (tick_pulseStep hen)
  · exact .inl (engineStep_pulseStep s)
  rcases hturn with ⟨addr, n, -, rfl⟩ | ⟨addr, data, -, hw⟩ | ⟨code, rfl, rfl⟩ | ⟨-, hen, rfl⟩ |
    ⟨-, -, rfl⟩ | ⟨-, rfl⟩ | ⟨rfl, rfl⟩
  · exact .inl (hostRead_pulseStep addr n _).of_setSchedule
  · exact .inl (hostWrite_pulseStep hw).of_setSchedule
  · rcases deliver_pulseStep code { s with schedule := rest } with hpulse | ⟨rfl, hidle⟩
    · exact .inl hpulse.of_setSchedule
    · exact .inr ⟨⟨rest, .inl hs⟩, hidle⟩
  · exact .inl (tick_pulseStep (s := { s with schedule := rest }) hen).of_setSchedule
  · exact .inl (engineStep_pulseStep s)
  · exact .inl (engineStep_pulseStep _).of_setSchedule
  · exact .inr ⟨⟨rest, .inr hs⟩, rfl⟩

/-! ## The start time of a train (rule R46) -/

/-- After a Wake that does not end the train, the new wait is what the next width exceeds CUR_T by
(rule R160). -/
theorem Engine.next_wait {e : Engine} {w : Nat} (hmin : e.lowerDue.minPendingWidth = some w) :
    e.curT.toNat < w ∧ (BitVec.ofNat 16 w - e.curT).toNat = w - e.curT.toNat := by
  have hw := Engine.toNat_minPendingWidth hmin
  obtain ⟨⟨k, hk, rfl⟩, -⟩ := Engine.minPendingWidth_eq_some.1 hmin
  have hlt : e.curT.toNat < e.widthOf k := (Engine.mem_lowerDue_pending.1 hk).2
  refine ⟨hlt, ?_⟩
  rw [BitVec.toNat_sub_of_le] <;> simp only [BitVec.le_def, Engine.lowerDue_widthOf] at hw ⊢ <;> omega

/-- A step within a train keeps the start time that the counters show. -/
theorem PulseStep.trainStart_eq {s t : State} (h : PulseStep s t) (hs : s.engine.st = .slotActive)
    (ht : t.engine.st = .slotActive) : t.trainStart = s.trainStart := by
  unfold State.trainStart
  cases h with
  | keep now engine => rw [now, engine]
  | idleTick idle | slotStart idle => exact EngState.noConfusion (hs.symm.trans idle)
  | waitTick _ wait now engine =>
    have hpred : (s.engine.waitCnt - 1).toNat + 1 = s.engine.waitCnt.toNat := by bv_omega
    rw [now, engine]
    dsimp only
    omega
  | wake _ wait now engine =>
    rcases Engine.rewait_cases s.engine.lowerDue with ⟨-, hre⟩ | ⟨w, hmin, hre⟩ <;> rw [hre] at engine
    · rw [engine] at ht
      cases ht
    · obtain ⟨hlt, hnext⟩ := Engine.next_wait hmin
      have hw := Engine.toNat_minPendingWidth hmin
      rw [now, engine, wait]
      simp only [Engine.lowerDue_curT, hnext, hw]
      change _ = s.now + 0 - _
      omega
  | endSlot ending => exact EngState.noConfusion (hs.symm.trans ending)

/-- A train's first wait is all of its CUR_T (rule R158). -/
theorem Engine.waitCnt_rise {e : Engine} (h : e.rise.st = .slotActive) : e.rise.waitCnt = e.rise.curT := by
  rcases Engine.rise_cases e with ⟨-, hrise⟩ | ⟨w, -, hrise⟩ <;> rw [hrise] at h ⊢
  cases h

/-- A step into a train is a slot start, whose time is the start time that the counters show. -/
theorem PulseStep.trainStart_eq_now {s t : State} (h : PulseStep s t) (hs : s.engine.st ≠ .slotActive)
    (ht : t.engine.st = .slotActive) : t.trainStart = s.now := by
  cases h with
  | keep _ engine | idleTick _ _ engine => exact absurd (engine ▸ ht) hs
  | waitTick active | wake active => exact absurd active hs
  | slotStart _ now engine =>
    rw [engine] at ht
    rw [State.trainStart, now, engine, Engine.waitCnt_rise ht, Nat.add_sub_cancel]
  | endSlot _ _ engine =>
    rw [engine] at ht
    cases ht

/-- Settles O50: a train goes on by waits and Wakes, and begins by a slot start. -/
theorem trainClockIsExact : Obligations.TrainClockIsExact := by
  intro s t _ hstep ht
  rcases step_pulseStep hstep with hpulse | ⟨-, hidle⟩
  · exact ⟨fun hs => hpulse.trainStart_eq hs ht, fun hs => hpulse.trainStart_eq_now hs ht⟩
  · exact EngState.noConfusion (ht.symm.trans hidle)

end Sys2Proof.Machine
end

section
/-! PROOFS. The law of a whole train (42_pulse_engine.md rules R163, R169): every step of a train takes off
the LOW events owed what it drives, so what is driven and owed stays the function `train` of the snapshot. -/

namespace Sys2Proof.Machine

/-! ## The entries of a snapshot -/

/-- A list made of the valid entries is a list made of their numbers. -/
theorem Engine.entries_map {α : Type} {e : Engine} {f : SnapEntry → α} {g : Nat → α}
    (hn : e.snapN.toNat ≤ Config.maxChannels)
    (h : ∀ k x, k < e.snapN.toNat → e.snap[k]? = some x → f x = g k) :
    e.entries.map f = (List.range e.snapN.toNat).map g := by
  refine List.ext_getElem (by simp [Engine.entries, hn]) fun k hk hk' => ?_
  have hlt : k < e.snapN.toNat := by simpa using hk'
  simp only [Engine.entries, List.getElem_map, List.getElem_take, List.getElem_range,
    Vector.getElem_toList]
  exact h k _ hlt (Vector.getElem?_eq_getElem (hlt.trans_le hn))

theorem Engine.widthOf_eq {e : Engine} {k : Nat} {x : SnapEntry} (h : e.snap[k]? = some x) :
    e.widthOf k = x.width.toNat := by
  rw [Engine.widthOf, h]
  rfl

theorem Engine.pinOf_eq {e : Engine} {k : Nat} {x : SnapEntry} (h : e.snap[k]? = some x) :
    e.pinOf k = x.pin := by
  rw [Engine.pinOf, h]
  rfl

/-- While nothing is lowered, the valid entries are pending. -/
theorem Engine.pending_perm_of_lowered_eq_zero {e : Engine}
    (hn : e.snapN.toNat ≤ Config.maxChannels) (h : e.lowered = 0) :
    e.pending.Perm (List.range e.snapN.toNat) := by
  refine (List.perm_ext_iff_of_nodup e.pending_nodup List.nodup_range).2 fun k => ?_
  rw [Engine.mem_pending, h, List.mem_range]
  exact ⟨fun hk => hk.2.1, fun hk => ⟨hk.trans_le hn, hk, BitVec.getLsbD_zero⟩⟩

theorem registryEntry_eq {s : State} {k : Nat} {c : Desc} (h : s.desc? (s.slotId k) = some c) :
    registryEntry s k = ⟨c.pin, c.width⟩ := by
  rw [registryEntry, ← slotId_eq, h]
  rfl

/-- The snapshot of a slot start is the registry's, in registry order (rules R158, R159). -/
theorem loadSnapshot_entries {s : State} (h : s.Contiguous) : (loadSnapshot s).entries =
    s.attachedIds.filterMap fun d => (s.desc? d).map fun c => ⟨c.pin, c.width⟩ := by
  obtain ⟨hle, hslots, -⟩ := h
  have hentries : (loadSnapshot s).entries.map id = (List.range s.count).map (registryEntry s) :=
    Engine.entries_map hle fun k x hk hx => Option.some.inj
      (hx.symm.trans (loadSnapshot_snap_lt s hk (lt_of_lt_of_le hk hle)))
  rw [attachedIds_eq_map hle, List.filterMap_map, ← List.map_id (loadSnapshot s).entries, hentries,
    ← List.filterMap_eq_map]
  refine List.filterMap_congr fun k hk => ?_
  obtain ⟨c, hc, -⟩ := hslots k (List.mem_range.1 hk)
  simp [hc, registryEntry_eq hc]

/-! ## The largest width -/

/-- The largest width of a snapshot, 0 if it is empty. -/
def maxWidth (es : List SnapEntry) : Nat := (es.map fun x => x.width.toNat).max?.getD 0

/-- At the Wake that ends a train, CUR_T is the largest width (rules R46, R160). -/
theorem maxWidth_of_lastWake {s : State} (hn : s.engine.snapN.toNat ≤ Config.maxChannels)
    (htrain : s.TrainOk) (hactive : s.engine.st = .slotActive) (hlast : s.engine.lowerDue.pending = []) :
    maxWidth s.engine.entries = s.engine.curT.toNat := by
  obtain ⟨-, -, hmin, hlow, -⟩ := htrain hactive
  obtain ⟨⟨k, hk, hkw⟩, -⟩ := Engine.minPendingWidth_eq_some.1 hmin
  have hbound : ∀ j, j < s.engine.snapN.toNat → s.engine.widthOf j ≤ s.engine.curT.toNat := by
    intro j hj
    cases hl : s.engine.lowered.getLsbD j with
    | true => exact ((hlow j hj).1 hl).le
    | false =>
      by_contra hwide
      have hmem := Engine.mem_lowerDue_pending.2
        ⟨Engine.mem_pending.2 ⟨hj.trans_le hn, hj, hl⟩, not_le.1 hwide⟩
      rw [hlast] at hmem
      cases hmem
  have hmax : (s.engine.entries.map fun x => x.width.toNat).max? = some s.engine.curT.toNat := by
    rw [Engine.entries_map hn fun _ _ _ hx => (Engine.widthOf_eq hx).symm, List.max?_eq_some_iff]
    refine ⟨List.mem_map.2 ⟨k, List.mem_range.2 (Engine.mem_pending.1 hk).2.1, hkw⟩, fun w hw => ?_⟩
    obtain ⟨j, hj, rfl⟩ := List.mem_map.1 hw
    exact hbound j (List.mem_range.1 hj)
  rw [maxWidth, hmax]
  rfl

/-! ## What a step drives and what stays owed -/

/-- The LOW event of entry `k` of a train begun at `ts`. -/
def Engine.lowAt (e : Engine) (ts k : Nat) : Stamped := ⟨ts + e.widthOf k, .set (e.pinOf k) .low⟩

theorem owedLows_of_active {s : State} (h : s.engine.st = .slotActive) :
    s.owedLows = s.engine.pending.map (s.engine.lowAt s.trainStart) := if_pos h

theorem owedLows_of_not_active {s : State} (h : s.engine.st ≠ .slotActive) : s.owedLows = [] :=
  if_neg h

/-- A Wake finds the time CUR_T after the start of the train. -/
theorem now_eq_of_waking {s : State} (htrain : s.TrainOk) (hactive : s.engine.st = .slotActive)
    (hwait : s.engine.waitCnt = 0) : s.now = s.trainStart + s.engine.curT.toNat := by
  obtain ⟨-, -, -, -, -, hstart⟩ := htrain hactive
  have hzero : s.engine.waitCnt.toNat = 0 := by rw [hwait]; rfl
  rw [State.trainStart]
  omega

/-- Every entry that a Wake lowers is lowered at its own width (rule R163). -/
theorem due_lows {s : State} (htrain : s.TrainOk) (hactive : s.engine.st = .slotActive)
    (hwait : s.engine.waitCnt = 0) :
    (s.engine.due.map fun k => (⟨s.now, .set (s.engine.pinOf k) .low⟩ : Stamped)) =
      s.engine.due.map (s.engine.lowAt s.trainStart) := by
  refine List.map_congr_left fun k hk => ?_
  obtain ⟨hpending, hle⟩ := Engine.mem_due.1 hk
  obtain ⟨-, -, hmin, -⟩ := htrain hactive
  have hge := (Engine.minPendingWidth_eq_some.1 hmin).2 k hpending
  rw [Engine.lowAt, now_eq_of_waking htrain hactive hwait, le_antisymm hle hge]

/-- A Wake splits what is pending into what it lowers and what stays. -/
theorem Engine.due_append_perm (e : Engine) : (e.due ++ e.lowerDue.pending).Perm e.pending := by
  simp only [Engine.lowerDue_pending, ← not_le, decide_not]
  exact List.filter_append_perm _ e.pending

/-- A step outside IDLE that aborts no train takes off the LOW events owed exactly what it drives. -/
theorem PulseStep.owedLows_perm {s t : State} (h : PulseStep s t) (htrain : s.TrainOk)
    (hne : s.engine.st ≠ .idle) : (newPins s t ++ t.owedLows).Perm s.owedLows := by
  cases h with
  | keep now engine pins =>
    rw [pins, State.owedLows, State.owedLows, State.trainStart, State.trainStart, now, engine]
    rfl
  | idleTick idle | slotStart idle => exact absurd idle hne
  | waitTick active wait now engine pins =>
    have hactive : t.engine.st = .slotActive := by rw [engine]; exact active
    have hstart := (PulseStep.waitTick active wait now engine pins).trainStart_eq active hactive
    rw [pins, owedLows_of_active active, owedLows_of_active hactive, hstart, engine]
    rfl
  | wake active wait now engine pins =>
    have howed : t.owedLows = s.engine.lowerDue.pending.map (s.engine.lowAt s.trainStart) := by
      rcases Engine.rewait_cases s.engine.lowerDue with ⟨hlast, hre⟩ | ⟨w, hmin, hre⟩
      · have hend : t.engine.st ≠ .slotActive := by rw [engine, hre]; nofun
        rw [owedLows_of_not_active hend, hlast]
        rfl
      · have hactive : t.engine.st = .slotActive := by rw [engine, hre]; exact active
        have hstart := (PulseStep.wake active wait now engine pins).trainStart_eq active hactive
        rw [owedLows_of_active hactive, hstart, engine, hre]
        rfl
    rw [pins, due_lows htrain active wait, howed, owedLows_of_active active, ← List.map_append]
    exact s.engine.due_append_perm.map _
  | endSlot ending now engine pins =>
    have hidle : t.engine.st ≠ .slotActive := by rw [engine]; nofun
    have hend : s.engine.st ≠ .slotActive := by rw [ending]; nofun
    rw [pins, owedLows_of_not_active hidle, owedLows_of_not_active hend]
    rfl

/-! ## The turns still to come -/

theorem hostRead_schedule (addr n : Nat) (s : State) : (hostRead addr n s).schedule = s.schedule := by
  rcases hostRead_cases addr n s with h | ⟨_, _, -, -, h⟩ | ⟨_, -, -, -, h⟩
  · rw [h]
  · rw [h]
  · rw [h, flag_schedule]

theorem hostWrite_schedule {addr : Nat} {data : List Byte} {s t : State}
    (hw : hostWrite addr data s = .next t) : t.schedule = s.schedule := by
  rcases hostWrite_cases hw with rfl | ⟨i, -, -, hexec⟩ | ⟨_, -, -, -, rfl⟩ | ⟨-, -, rfl⟩ |
    ⟨_, -, -, -, rfl⟩
  · rfl
  · exact (exec_readData_schedule hexec).2
  · rfl
  · rfl
  · rfl

theorem deliver_schedule (code : Byte) (s : State) : (deliver code s).schedule = s.schedule := by
  rcases deliver_cases code s with ⟨-, -, h⟩ | ⟨-, -, h⟩ | ⟨-, -, h⟩ | ⟨-, -, h⟩ | ⟨-, -, h⟩ <;>
    rw [h] <;> rfl

/-- A step lists no new turn (log 4). -/
theorem step_schedule_subset {s t : State} (h : step s = .next t) : t.schedule ⊆ s.schedule := by
  rcases step_cases h with ⟨-, -, rfl⟩ | ⟨-, -, rfl⟩ | ⟨u, rest, hs, hturn⟩
  · rw [tick_schedule]
    exact List.Subset.refl _
  · rw [engineStep_schedule]
    exact List.Subset.refl _
  have hstays : t.schedule = s.schedule ∨ t.schedule = rest := by
    rcases hturn with ⟨addr, n, -, rfl⟩ | ⟨addr, data, -, hw⟩ | ⟨code, -, rfl⟩ | ⟨-, -, rfl⟩ |
      ⟨-, -, rfl⟩ | ⟨-, rfl⟩ | ⟨-, rfl⟩
    · exact .inr (hostRead_schedule addr n _)
    · exact .inr (hostWrite_schedule hw)
    · exact .inr (deliver_schedule code _)
    · exact .inr (tick_schedule _)
    · exact .inl (engineStep_schedule s)
    · exact .inr (engineStep_schedule _)
    · exact .inr rfl
  rcases hstays with h | h <;> rw [h]
  · exact List.Subset.refl _
  · rw [hs]
    exact List.subset_cons_self u rest

/-- The invariant says nothing of the turns still to come. -/
theorem State.Inv.setSchedule {s : State} (h : s.Inv) (ts : List Turn) :
    ({ s with schedule := ts } : State).Inv := by
  obtain ⟨size, widths, indices, contiguous, membership, gen, train, engine, status, trace⟩ := h
  exact ⟨size, widths, indices, contiguous, membership, gen, train, engine, status, trace⟩

/-! ## A train from its slot start on -/

@[simp] theorem Engine.rise_entries (e : Engine) : e.rise.entries = e.entries := by
  rcases Engine.rise_cases e with ⟨-, h⟩ | ⟨_, -, h⟩ <;> rw [h] <;> rfl

@[simp] theorem Engine.rewait_lowerDue_entries (e : Engine) : e.lowerDue.rewait.entries = e.entries := by
  rcases Engine.rewait_cases e.lowerDue with ⟨-, h⟩ | ⟨_, -, h⟩ <;> rw [h] <;> rfl

/-- A train of the entries `es` begun at `ts` is where the counters and the time say it is: the counters
show its start, or it is over and the time is that of its last fall (rules R46, R163). -/
def OnClock (ts : Nat) (es : List SnapEntry) (t : State) : Prop :=
  (t.engine.st = .slotActive → t.trainStart = ts ∧ t.engine.entries = es) ∧
  (t.engine.st ≠ .slotActive → t.now = ts + maxWidth es)

/-- `t` is in the train of `es` that a slot start in `s` began, or at its end: what was driven since and
what is owed are together that train (rules R163, R169). -/
structure InTrain (s : State) (es : List SnapEntry) (t : State) : Prop where
  inv : t.Inv
  turns : ∀ u ∈ t.schedule, u ≠ .deliver 0x01 ∧ u ≠ .reset
  pins : ∃ evs, t.trace = s.trace ++ evs ∧
    (pinDrives evs ++ t.owedLows).Perm ((train es).map (TrainEvent.stamped s.now))
  clock : OnClock s.now es t

section SlotStart
variable {s : State}

/-- The LOW events of a slot's loaded snapshot, one per entry. -/
theorem loadSnapshot_lows_perm (h : s.Contiguous) (ts : Nat) :
    ((loadSnapshot s).pending.map ((loadSnapshot s).lowAt ts)).Perm
      ((loadSnapshot s).entries.map fun x => ⟨ts + x.width.toNat, .set x.pin .low⟩) := by
  have hn : (loadSnapshot s).snapN.toNat ≤ Config.maxChannels := h.1
  rw [Engine.entries_map (g := (loadSnapshot s).lowAt ts) hn fun k x _ hx => by
    rw [Engine.lowAt, Engine.widthOf_eq hx, Engine.pinOf_eq hx]]
  exact (Engine.pending_perm_of_lowered_eq_zero hn rfl).map _

/-- A slot start owes one LOW event per entry of its snapshot (rule R158). -/
theorem slotStart_owedLows_perm (h : s.Contiguous) (hidle : s.engine.st = .idle) :
    (slotStart s).owedLows.Perm
      ((loadSnapshot s).entries.map fun x => ⟨s.now + x.width.toNat, .set x.pin .low⟩) := by
  have hlows := loadSnapshot_lows_perm h s.now
  have he : (slotStart s).engine = (loadSnapshot s).rise := rfl
  rcases Engine.rise_cases (loadSnapshot s) with ⟨hpending, hrise⟩ | ⟨w, -, hrise⟩ <;> rw [hrise] at he
  · rw [owedLows_of_not_active (by rw [he]; nofun)]
    rwa [hpending] at hlows
  · have hactive : (slotStart s).engine.st = .slotActive := by rw [he]
    have hstart := (slotStart_pulseStep hidle).trainStart_eq_now (by rw [hidle]; nofun) hactive
    rw [owedLows_of_active hactive, hstart, he]
    exact hlows

theorem slotStart_onClock (h : s.Contiguous) (hidle : s.engine.st = .idle) :
    OnClock s.now (loadSnapshot s).entries (slotStart s) := by
  have he : (slotStart s).engine = (loadSnapshot s).rise := rfl
  refine ⟨fun hactive => ⟨?_, ?_⟩, fun hend => ?_⟩
  · exact (slotStart_pulseStep hidle).trainStart_eq_now (by rw [hidle]; nofun) hactive
  · rw [he, Engine.rise_entries]
  · have hpending : (loadSnapshot s).pending = [] := by
      rcases Engine.rise_cases (loadSnapshot s) with ⟨hpending, -⟩ | ⟨w, -, hrise⟩
      · exact hpending
      · exact absurd (by rw [he, hrise]) hend
    have hlows := loadSnapshot_lows_perm h s.now
    rw [hpending] at hlows
    rw [List.map_eq_nil_iff.1 (List.nil_perm.1 hlows)]
    rfl

/-- A slot start begins the train of its snapshot (rules R158, R169). -/
theorem slotStart_inTrain (hinv : s.Inv) (hidle : s.engine.st = .idle)
    (hturns : ∀ u ∈ s.schedule, u ≠ .deliver 0x01 ∧ u ≠ .reset) (ht : (slotStart s).Inv) :
    InTrain s (loadSnapshot s).entries (slotStart s) := by
  refine ⟨ht, hturns, ⟨_, rfl, ?_⟩, slotStart_onClock hinv.contiguous hidle⟩
  have htrain := (trainFunctionPulsesEveryEntry (loadSnapshot s).entries).1.map (TrainEvent.stamped s.now)
  rw [pinDrives_eq_self (by simp)]
  refine ((slotStart_owedLows_perm hinv.contiguous hidle).append_left _).trans (.trans ?_ htrain.symm)
  simp only [List.map_append, List.map_map]
  exact .refl _

end SlotStart

section
variable {s t u : State} {es : List SnapEntry}

/-- A step outside IDLE keeps a train on its clock, and the Wake that ends it comes at its largest width. -/
theorem PulseStep.keeps_onClock {ts : Nat} (h : PulseStep t u) (hinv : t.Inv)
    (hne : t.engine.st ≠ .idle) (hclock : OnClock ts es t) : OnClock ts es u := by
  cases h with
  | keep now engine =>
    rw [OnClock, State.trainStart, now, engine]
    exact hclock
  | idleTick idle | slotStart idle => exact absurd idle hne
  | waitTick active wait now engine pins =>
    obtain ⟨hstart, hentries⟩ := hclock.1 active
    have hactive : u.engine.st = .slotActive := by rw [engine]; exact active
    refine ⟨fun hu => ⟨?_, ?_⟩, fun hu => absurd hactive hu⟩
    · rw [(PulseStep.waitTick active wait now engine pins).trainStart_eq active hu, hstart]
    · rw [engine]
      exact hentries
  | wake active wait now engine pins =>
    obtain ⟨hstart, hentries⟩ := hclock.1 active
    refine ⟨fun hu => ⟨?_, ?_⟩, fun hu => ?_⟩
    · rw [(PulseStep.wake active wait now engine pins).trainStart_eq active hu, hstart]
    · rw [engine, Engine.rewait_lowerDue_entries, hentries]
    · have hlast : t.engine.lowerDue.pending = [] := by
        rcases Engine.rewait_cases t.engine.lowerDue with ⟨hlast, -⟩ | ⟨w, -, hre⟩
        · exact hlast
        · exact absurd (by rw [engine, hre]; exact active) hu
      rw [now, now_eq_of_waking hinv.train active wait, hstart, ← hentries,
        maxWidth_of_lastWake hinv.engine.1 hinv.train active hlast]
  | endSlot ending now engine =>
    refine ⟨fun hu => ?_, fun _ => now.trans (hclock.2 (by rw [ending]; nofun))⟩
    rw [engine] at hu
    cases hu

/-- A step before the engine is IDLE again stays in the train. -/
theorem InTrain.step (h : InTrain s es t) (hne : t.engine.st ≠ .idle)
    (hstep : Machine.step t = .next u) : InTrain s es u := by
  obtain ⟨hinv, hturns, ⟨evs, htrace, hpins⟩, hclock⟩ := h
  have hpulse : PulseStep t u := by
    refine (step_pulseStep hstep).resolve_right ?_
    rintro ⟨⟨rest, hs | hs⟩, -⟩
    · exact (hturns _ (hs ▸ List.mem_cons_self)).1 rfl
    · exact (hturns _ (hs ▸ List.mem_cons_self)).2 rfl
  obtain ⟨new, hnew, -⟩ := traceOnlyGrowsWithStampedEvents t u hstep
  refine ⟨stepKeepsTheInvariant t u hinv hstep, fun v hv => hturns v (step_schedule_subset hstep hv),
    ⟨evs ++ new, ?_, ?_⟩, hpulse.keeps_onClock hinv hne hclock⟩
  · rw [hnew, htrace, List.append_assoc]
  · have howed := hpulse.owedLows_perm hinv.train hne
    rw [newPins_eq hnew] at howed
    rw [pinDrives_append, List.append_assoc]
    exact (howed.append_left _).trans hpins

/-- The first step of a run that reaches a next state, and the run after it. -/
theorem exists_step_of_run {M : Host.Core} {k : Nat} {a b : M.State} (h : M.run (k + 1) a = .next b) :
    ∃ c, M.step a = .next c ∧ M.run k c = .next b := by
  rw [Host.Core.run] at h
  cases hstep : M.step a with
  | next c =>
    rw [hstep] at h
    exact ⟨c, rfl, h⟩
  | fault r => rw [hstep] at h; cases h
  | refused r => rw [hstep] at h; cases h

/-- A run up to the first return to IDLE stays in the train. -/
theorem InTrain.run (h : InTrain s es t) (k : Nat) (hrun : Sys2Proof.core.run k t = .next u)
    (hne : ∀ j v, j < k → Sys2Proof.core.run j t = .next v → v.engine.st ≠ .idle) :
    InTrain s es u := by
  induction k generalizing t with
  | zero =>
    cases hrun
    exact h
  | succ k ih =>
    obtain ⟨v, hv, hrun⟩ := exists_step_of_run hrun
    refine ih (h.step (hne 0 t k.succ_pos rfl) hv) hrun fun j w hj hw => ?_
    exact hne (j + 1) w (Nat.succ_lt_succ hj) ((run_succ_of_step Sys2Proof.core hv j).trans hw)

end

/-- Settles O52: a slot start begins its train, and the run stays in it. -/
theorem pulseTrainIsTheTrainFunction : Obligations.PulseTrainIsTheTrainFunction := by
  intro s t rest k hinv hidle hs hturns hrun hne
  have hstep : step s = .next (slotStart { s with schedule := rest }) := by
    rw [step_of_turn hs]
    exact congrArg _ (if_pos hidle)
  have hrest := run_succ_of_step Sys2Proof.core hstep
  have hinv' := hinv.setSchedule rest
  have hbegin := slotStart_inTrain hinv' hidle hturns (stepKeepsTheInvariant _ _ hinv hstep)
  obtain ⟨-, -, ⟨evs, htrace, hpins⟩, -, hended⟩ := hbegin.run k ((hrest k).symm.trans hrun)
    fun j v hj hv => hne j v hj ((hrest j).trans hv)
  rw [loadSnapshot_entries hinv'.contiguous] at hpins hended
  refine ⟨?_, fun hend => ⟨owedLows_of_not_active hend, hended hend⟩⟩
  rw [newEvents_eq (s := s) htrace]
  exact hpins

end Sys2Proof.Machine
end

section
/-! PROOFS. The answers the pulse engine gives at once (42_pulse_engine.md rules R157, R162, R164 to R166):
the whole next state of End and of every delivery but the slot start. -/

namespace Sys2Proof.Machine

section
variable {s t : State} {rest : List Turn}

theorem step_of_deliver {code : Byte} (h : s.schedule = .deliver code :: rest)
    (ht : deliver code { s with schedule := rest } = t) : step s = .next t :=
  (step_of_turn h).trans (congrArg _ ht)

theorem step_of_engineTurn (h : s.schedule = .engine :: rest)
    (ht : engineStep { s with schedule := rest } = t) : step s = .next t :=
  (step_of_turn h).trans (congrArg _ ht)

end

section
variable {s : State} {code : Byte}

/-- A slot-started event in IDLE starts a slot (rule R158). -/
theorem deliver_slotStarted_of_idle (h : s.engine.st = .idle) : deliver 0x00 s = slotStart s :=
  if_pos h

/-- A slot-started event outside IDLE is an overlap (rule R157). -/
theorem deliver_slotStarted_of_not_idle (h : s.engine.st ≠ .idle) : deliver 0x00 s = slotOverlap s :=
  if_neg h

/-- A timer expiry in SLOT_ACTIVE gives the owed answer and its own, and leaves the engine IDLE (rule
R164). -/
theorem deliver_timerExpiry_of_active (h : s.engine.st = .slotActive) : deliver 0x01 s = { s with
    status := s.status ||| 0x4
    trace := s.trace ++ [⟨s.now, .answer 0x00 .endSlot⟩, ⟨s.now, .answer 0x01 .endSlot⟩]
    engine := { s.engine with st := .idle } } := by
  have habort : deliver 0x01 s = emit (.answer 0x01 .endSlot) (abortTrain s) :=
    congrArg (emit _) (if_pos h)
  exact habort.trans (congrArg (fun tr => { abortTrain s with trace := tr })
    (List.append_assoc s.trace [_] [_]))

/-- A timer expiry outside SLOT_ACTIVE is only answered (rule R164). -/
theorem deliver_timerExpiry_of_not_active (h : s.engine.st ≠ .slotActive) :
    deliver 0x01 s = emit (.answer 0x01 .endSlot) s :=
  congrArg (emit _) (if_neg h)

/-- Every other event is only answered (rules R165, R166). -/
theorem deliver_of_other (hslot : code ≠ 0x00) (htimer : code ≠ 0x01) :
    deliver code s = emit (.answer code .none) s := by
  rcases deliver_cases code s with ⟨h, -, -⟩ | ⟨h, -, -⟩ | ⟨h, -, -⟩ | ⟨h, -, -⟩ | ⟨-, -, h⟩
  · exact absurd h hslot
  · exact absurd h hslot
  · exact absurd h htimer
  · exact absurd h htimer
  · exact h

end

/-- Settles O42: the delivery is an overlap, which flags bit 3 and answers. -/
theorem slotStartDuringTrainIsAnsweredNone : Obligations.SlotStartDuringTrainIsAnsweredNone :=
  fun _ _ hs hne => step_of_deliver hs (deliver_slotStarted_of_not_idle hne)

/-- Settles O44: the engine's turn in ENDING is End. -/
theorem endAnswersTheSlot : Obligations.EndAnswersTheSlot :=
  fun _ _ hs hend => step_of_engineTurn hs (engineStep_of_ending hend)

/-- Settles O45: in SLOT_ACTIVE the train is aborted, elsewhere the timer expiry's answer is all. -/
theorem timerExpiryAbortsTheTrain : Obligations.TimerExpiryAbortsTheTrain := fun _ _ hs =>
  ⟨fun hactive => step_of_deliver hs (deliver_timerExpiry_of_active hactive),
    fun hne => step_of_deliver hs (deliver_timerExpiry_of_not_active hne)⟩

/-- Settles O46: the delivery is only answered. -/
theorem otherEventsAreAnsweredNone : Obligations.OtherEventsAreAnsweredNone :=
  fun _ _ _ hs hslot htimer => step_of_deliver hs (deliver_of_other hslot htimer)

end Sys2Proof.Machine
end

section
/-! PROOFS. The two steps that drive pins, the slot start and the Wake (42_pulse_engine.md rules R158, R160):
what they drive, what they lower and which wait comes next. -/

namespace Sys2Proof.Machine

/-! ## The engine's next wait -/

section
variable {e : Engine}

@[simp] theorem Engine.rise_snap (e : Engine) : e.rise.snap = e.snap := by
  rcases Engine.rise_cases e with ⟨-, h⟩ | ⟨_, -, h⟩ <;> rw [h]

@[simp] theorem Engine.rise_snapN (e : Engine) : e.rise.snapN = e.snapN := by
  rcases Engine.rise_cases e with ⟨-, h⟩ | ⟨_, -, h⟩ <;> rw [h]

@[simp] theorem Engine.rise_lowered (e : Engine) : e.rise.lowered = e.lowered := by
  rcases Engine.rise_cases e with ⟨-, h⟩ | ⟨_, -, h⟩ <;> rw [h]

@[simp] theorem Engine.rewait_snap (e : Engine) : e.rewait.snap = e.snap := by
  rcases Engine.rewait_cases e with ⟨-, h⟩ | ⟨_, -, h⟩ <;> rw [h]

@[simp] theorem Engine.rewait_snapN (e : Engine) : e.rewait.snapN = e.snapN := by
  rcases Engine.rewait_cases e with ⟨-, h⟩ | ⟨_, -, h⟩ <;> rw [h]

@[simp] theorem Engine.rewait_lowered (e : Engine) : e.rewait.lowered = e.lowered := by
  rcases Engine.rewait_cases e with ⟨-, h⟩ | ⟨_, -, h⟩ <;> rw [h]

@[simp] theorem Engine.rise_widthOf (e : Engine) (k : Nat) : e.rise.widthOf k = e.widthOf k := by
  rw [Engine.widthOf, Engine.rise_snap, Engine.widthOf]

@[simp] theorem Engine.rise_pinOf (e : Engine) (k : Nat) : e.rise.pinOf k = e.pinOf k := by
  rw [Engine.pinOf, Engine.rise_snap, Engine.pinOf]

@[simp] theorem Engine.rewait_widthOf (e : Engine) (k : Nat) : e.rewait.widthOf k = e.widthOf k := by
  rw [Engine.widthOf, Engine.rewait_snap, Engine.widthOf]

/-- With nothing pending a slot start is over at once. -/
theorem Engine.rise_of_pending_eq_nil (h : e.pending = []) : e.rise = { e with st := .ending } := by
  rw [Engine.rise, Engine.minPendingWidth_eq_none.2 h]

/-- With nothing pending a Wake ends the train. -/
theorem Engine.rewait_of_pending_eq_nil (h : e.pending = []) : e.rewait = { e with st := .ending } := by
  rw [Engine.rewait, Engine.minPendingWidth_eq_none.2 h]

/-- A train's first wait is the least pending width. -/
theorem Engine.rise_of_pending_ne_nil (h : e.pending ≠ []) : e.rise.st = .slotActive ∧
    e.rise.waitCnt = e.rise.curT ∧ e.minPendingWidth = some e.rise.curT.toNat := by
  rcases Engine.rise_cases e with ⟨hnil, -⟩ | ⟨w, hmin, hrise⟩
  · exact absurd hnil h
  · rw [hrise]
    exact ⟨rfl, rfl, hmin.trans (congrArg some (Engine.toNat_minPendingWidth hmin).symm)⟩

/-- The wait after a Wake lasts up to the least width that remains. -/
theorem Engine.rewait_lowerDue_of_pending_ne_nil (h : e.lowerDue.pending ≠ []) :
    e.lowerDue.rewait.st = e.st ∧ e.lowerDue.minPendingWidth = some e.lowerDue.rewait.curT.toNat ∧
      e.curT.toNat < e.lowerDue.rewait.curT.toNat ∧
      e.lowerDue.rewait.waitCnt.toNat = e.lowerDue.rewait.curT.toNat - e.curT.toNat := by
  rcases Engine.rewait_cases e.lowerDue with ⟨hnil, -⟩ | ⟨w, hmin, hre⟩
  · exact absurd hnil h
  · obtain ⟨hlt, hnext⟩ := Engine.next_wait hmin
    have hw := Engine.toNat_minPendingWidth hmin
    rw [hre]
    simp only [hw, Engine.lowerDue_curT, hnext]
    exact ⟨rfl, hmin, hlt, trivial⟩

/-! ## Which entries are pending and due -/

/-- SNAP_N is at most 10, so the pending entries are the valid ones whose bit in LOWERED is clear. -/
theorem Engine.mem_pending_of_le (hn : e.snapN.toNat ≤ Config.maxChannels) {k : Nat} :
    k ∈ e.pending ↔ k < e.snapN.toNat ∧ e.lowered.getLsbD k = false := by
  rw [Engine.mem_pending]
  exact ⟨fun h => h.2, fun h => ⟨h.1.trans_le hn, h⟩⟩

theorem Engine.pending_eq_nil_iff (hn : e.snapN.toNat ≤ Config.maxChannels) :
    e.pending = [] ↔ ∀ k, k < e.snapN.toNat → e.lowered.getLsbD k = true := by
  simp only [List.eq_nil_iff_forall_not_mem, Engine.mem_pending_of_le hn, not_and, Bool.not_eq_false]

/-- A Wake lowers the valid entries not lowered yet of width at most CUR_T. -/
theorem Engine.due_perm (hn : e.snapN.toNat ≤ Config.maxChannels) :
    e.due.Perm ((List.range e.snapN.toNat).filter fun k =>
      !e.lowered.getLsbD k && decide (e.widthOf k ≤ e.curT.toNat)) := by
  refine (List.perm_ext_iff_of_nodup e.due_nodup (List.nodup_range.filter _)).2 fun k => ?_
  simp [Engine.mem_due, Engine.mem_pending_of_le hn, and_assoc]

/-- While the counters show the least pending width, some entry is due. -/
theorem Engine.due_ne_nil (hmin : e.minPendingWidth = some e.curT.toNat) : e.due ≠ [] := by
  obtain ⟨⟨k, hk, hwidth⟩, -⟩ := Engine.minPendingWidth_eq_some.1 hmin
  exact List.ne_nil_of_mem (Engine.mem_due.2 ⟨hk, hwidth.le⟩)

/-- A Wake leaves a valid entry lowered iff it was, or its width is at most CUR_T. -/
theorem Engine.lowerDue_lowered_iff (hn : e.snapN.toNat ≤ Config.maxChannels) {k : Nat}
    (hk : k < e.snapN.toNat) : e.lowerDue.lowered.getLsbD k = true ↔
      e.lowered.getLsbD k = true ∨ e.widthOf k ≤ e.curT.toNat := by
  simp only [Engine.lowerDue_lowered, Engine.mem_due, Engine.mem_pending_of_le hn, hk]
  cases e.lowered.getLsbD k <;> simp

/-- A Wake leaves the bits of LOWERED above the valid entries alone. -/
theorem Engine.lowerDue_lowered_of_le {k : Nat} (hk : e.snapN.toNat ≤ k) :
    e.lowerDue.lowered.getLsbD k = e.lowered.getLsbD k := by
  have hdue : k ∉ e.due := fun h => by
    have := (Engine.mem_pending.1 (Engine.mem_due.1 h).1).2.1
    omega
  simp [Engine.lowerDue_lowered, hdue]

end

/-! ## The slot start (rule R158) -/

section
variable {s : State}

theorem mem_loadSnapshot_pending (h : s.Contiguous) {k : Nat} :
    k ∈ (loadSnapshot s).pending ↔ k < s.count :=
  ((Engine.pending_perm_of_lowered_eq_zero (e := loadSnapshot s) h.1 rfl).mem_iff).trans List.mem_range

theorem loadSnapshot_snap_of_lt (h : s.Contiguous) {k : Nat} (hk : k < s.count) :
    ∃ c, s.desc? (s.slotId k) = some c ∧ (loadSnapshot s).snap[k]? = some ⟨c.pin, c.width⟩ := by
  obtain ⟨hle, hslots, -⟩ := h
  obtain ⟨c, hc, -⟩ := hslots k hk
  exact ⟨c, hc, (loadSnapshot_snap_lt s hk (hk.trans_le hle)).trans (congrArg some (registryEntry_eq hc))⟩

/-- A slot start drives the pin of every registry entry HIGH. -/
theorem slotStart_trace (h : s.Contiguous) : (slotStart s).trace = s.trace ++
    (List.range s.count).map fun k => ⟨s.now, .set ((slotStart s).engine.pinOf k) .high⟩ := by
  have hpins : (loadSnapshot s).entries.map SnapEntry.pin =
      (List.range s.count).map (loadSnapshot s).pinOf :=
    Engine.entries_map (e := loadSnapshot s) h.1 fun _ _ _ hx => (Engine.pinOf_eq hx).symm
  have hevents := congrArg (List.map fun p => (⟨s.now, .set p .high⟩ : Stamped)) hpins
  simpa [slotStart, Function.comp_def] using hevents

/-- A slot start on an empty registry is over at once, with no event. -/
theorem slotStart_of_empty (h : s.Contiguous) (h0 : s.count = 0) :
    (slotStart s).engine = { loadSnapshot s with st := .ending } ∧ (slotStart s).trace = s.trace := by
  refine ⟨Engine.rise_of_pending_eq_nil (List.eq_nil_iff_forall_not_mem.2 fun k hk => ?_), ?_⟩
  · have := (mem_loadSnapshot_pending h).1 hk
    omega
  · rw [slotStart_trace h, h0]
    exact List.append_nil _

/-- A slot start on a registry with entries waits for the least of their widths. -/
theorem slotStart_of_nonempty (h : s.Contiguous) (hpos : 0 < s.count) :
    (slotStart s).engine.st = .slotActive ∧ (slotStart s).engine.waitCnt = (slotStart s).engine.curT ∧
      (∃ k, k < s.count ∧ (slotStart s).engine.widthOf k = (slotStart s).engine.curT.toNat) ∧
      (∀ k, k < s.count → (slotStart s).engine.curT.toNat ≤ (slotStart s).engine.widthOf k) := by
  have hpending := List.ne_nil_of_mem ((mem_loadSnapshot_pending h).2 hpos)
  obtain ⟨hst, hwait, hmin⟩ := Engine.rise_of_pending_ne_nil hpending
  obtain ⟨⟨k, hk, hkw⟩, hleast⟩ := Engine.minPendingWidth_eq_some.1 hmin
  refine ⟨hst, hwait, ⟨k, (mem_loadSnapshot_pending h).1 hk, (Engine.rise_widthOf _ k).trans hkw⟩,
    fun j hj => ?_⟩
  exact (hleast j ((mem_loadSnapshot_pending h).2 hj)).trans_eq (Engine.rise_widthOf _ j).symm

end

/-- Settles O41: the slot start loads the registry and rises; with no entry it is over at once. -/
theorem slotStartSnapshotsAndRises : Obligations.SlotStartSnapshotsAndRises := by
  intro s rest hinv hs hidle
  have hcontiguous := (hinv.setSchedule rest).contiguous
  refine ⟨_, step_of_deliver hs (deliver_slotStarted_of_idle hidle), Engine.rise_snapN _,
    Engine.rise_lowered _, fun k hk => ?_, fun k hk => ?_, fun h0 => ?_, fun hpos => ?_,
    rfl, rfl, rfl, rfl, rfl, rfl, rfl, rfl, rfl⟩
  · obtain ⟨c, hc, hsnap⟩ := loadSnapshot_snap_of_lt hcontiguous hk
    exact ⟨c, hc, (congrArg (·[k]?) (Engine.rise_snap _)).trans hsnap⟩
  · exact (congrArg (·[k]?) (Engine.rise_snap _)).trans (loadSnapshot_snap_ge _ hk)
  · obtain ⟨hengine, htrace⟩ := slotStart_of_empty hcontiguous h0
    rw [hengine]
    exact ⟨rfl, rfl, rfl, htrace⟩
  · obtain ⟨hst, hwait, hfirst, hleast⟩ := slotStart_of_nonempty hcontiguous hpos
    exact ⟨hst, hwait, hfirst, hleast, _, slotStart_trace hcontiguous, .refl _⟩

/-! ## The Wake (rule R160) -/

section
variable {s : State}

/-- A Wake that leaves nothing pending ends the train and leaves the counters alone. -/
theorem wake_of_last (hn : s.engine.snapN.toNat ≤ Config.maxChannels)
    (hlast : ∀ k, k < s.engine.snapN.toNat → s.engine.lowerDue.lowered.getLsbD k = true) :
    (wake s).engine = { s.engine.lowerDue with st := .ending } :=
  Engine.rewait_of_pending_eq_nil ((Engine.pending_eq_nil_iff (e := s.engine.lowerDue) hn).2 hlast)

/-- A Wake that leaves entries pending waits for the least of their widths. -/
theorem wake_of_remaining (hinv : s.EngineInv) (hactive : s.engine.st = .slotActive) {j : Nat}
    (hj : j < s.engine.snapN.toNat) (hpending : s.engine.lowerDue.lowered.getLsbD j = false) :
    (wake s).engine.st = .slotActive ∧
      (∃ k, k < s.engine.snapN.toNat ∧ (wake s).engine.lowered.getLsbD k = false ∧
        (wake s).engine.widthOf k = (wake s).engine.curT.toNat) ∧
      (∀ k, k < s.engine.snapN.toNat → (wake s).engine.lowered.getLsbD k = false →
        (wake s).engine.curT.toNat ≤ (wake s).engine.widthOf k) ∧
      s.engine.curT.toNat < (wake s).engine.curT.toNat ∧
      (wake s).engine.curT.toNat ≤ Config.maxPulseWidth ∧
      (wake s).engine.waitCnt.toNat = (wake s).engine.curT.toNat - s.engine.curT.toNat := by
  have hmem : ∀ k, k ∈ s.engine.lowerDue.pending ↔
      k < s.engine.snapN.toNat ∧ s.engine.lowerDue.lowered.getLsbD k = false :=
    fun _ => Engine.mem_pending_of_le (e := s.engine.lowerDue) hinv.engine.1
  obtain ⟨hst, hmin, hlt, hwait⟩ :=
    Engine.rewait_lowerDue_of_pending_ne_nil (List.ne_nil_of_mem ((hmem j).2 ⟨hj, hpending⟩))
  obtain ⟨⟨k, hk, hkw⟩, hleast⟩ := Engine.minPendingWidth_eq_some.1 hmin
  obtain ⟨-, hwidths, -⟩ := hinv.train hactive
  have hbound := (hwidths k ((hmem k).1 hk).1).2
  have he : (wake s).engine = s.engine.lowerDue.rewait := rfl
  simp only [he, Engine.rewait_lowered, Engine.rewait_widthOf]
  exact ⟨hst.trans hactive, ⟨k, ((hmem k).1 hk).1, ((hmem k).1 hk).2, hkw⟩,
    fun i hi hl => hleast i ((hmem i).2 ⟨hi, hl⟩), hlt, hkw.symm.trans_le hbound, hwait⟩

end

/-- Settles O43: the due entries are lowered, and what remains decides how the Wake ends. -/
theorem wakeLowersTheDuePins : Obligations.WakeLowersTheDuePins := by
  intro s rest hinv hs hactive hwait
  have hn := hinv.engine.1
  obtain ⟨-, -, hmin, -⟩ := hinv.train hactive
  have hlowered : s.engine.lowerDue.rewait.lowered = s.engine.lowerDue.lowered := Engine.rewait_lowered _
  refine ⟨wake { s with schedule := rest }, s.engine.due.map fun k => ⟨s.now, .set (s.engine.pinOf k) .low⟩,
    step_of_engineTurn hs (engineStep_of_waking hactive hwait), ?_,
    mt List.map_eq_nil_iff.1 (Engine.due_ne_nil hmin), (Engine.due_perm hn).map _, Engine.rewait_snap _,
    Engine.rewait_snapN _, fun k hk => ?_, fun k hk => ?_, fun hlast => ?_, ?_,
    rfl, rfl, rfl, rfl, rfl, rfl, rfl, rfl, rfl⟩
  · simp [wake, Function.comp_def]
  · exact hlowered ▸ Engine.lowerDue_lowered_iff hn hk
  · exact hlowered ▸ Engine.lowerDue_lowered_of_le hk
  · rw [wake_of_last (s := { s with schedule := rest }) hn fun k hk => hlowered ▸ hlast k hk]
    exact ⟨rfl, rfl, hwait⟩
  · rintro ⟨j, hj, hpending⟩
    exact wake_of_remaining (s := { s with schedule := rest }) (hinv.setSchedule rest).engineInv hactive hj
      (hlowered ▸ hpending)

end Sys2Proof.Machine
end

section
/-! PROOFS. What holds of every step about the train and its answers (42_pulse_engine.md rules R156, R168;
20_memory.md rule R79): a command leaves the train alone, every event is answered once, trains never
overlap. -/

namespace Sys2Proof.Machine

/-! ## The engine's step reads the engine and the time alone (rule R79) -/

theorem engineStep_of_tickEnabled {s : State} (h : tickEnabled s = true) : engineStep s = s := by
  obtain ⟨hwake, hend⟩ := tickEnabled_iff.1 h
  rcases engineStep_cases s with ⟨hactive, hwait, -⟩ | ⟨hending, -⟩ | ⟨-, hstep⟩
  · exact absurd ⟨hactive, hwait⟩ hwake
  · exact absurd hending hend
  · exact hstep

/-- In two states with the same engine at the same time the engine's step does the same to the engine and
emits the same events. -/
theorem engineStep_congr {s t : State} (hengine : t.engine = s.engine) (hnow : t.now = s.now) :
    (engineStep t).engine = (engineStep s).engine ∧
      newEvents t (engineStep t) = newEvents s (engineStep s) := by
  rcases engineStep_cases s with ⟨hactive, hwait, h⟩ | ⟨hend, h⟩ | ⟨hen, h⟩ <;> rw [h]
  · rw [engineStep_of_waking (hengine ▸ hactive) (hengine ▸ hwait), newEvents_eq (s := s) rfl,
      newEvents_eq (s := t) rfl, wake, wake, hengine, hnow]
    exact ⟨rfl, rfl⟩
  · rw [engineStep_of_ending (hengine ▸ hend), newEvents_eq (s := s) rfl, newEvents_eq (s := t) rfl,
      endSlot, endSlot, hengine, hnow]
    exact ⟨rfl, rfl⟩
  · have hen' : tickEnabled t = true := by rwa [tickEnabled_iff, hengine, ← tickEnabled_iff]
    rw [engineStep_of_tickEnabled hen', newEvents_of_trace_eq rfl, newEvents_of_trace_eq rfl]
    exact ⟨hengine, rfl⟩

/-- Settles O36: a command writes no engine state and takes no time. -/
theorem commandsLeaveTheTrainAlone : Obligations.CommandsLeaveTheTrainAlone := fun _ _ _ hexec =>
  ⟨exec_engine hexec, engineStep_congr (exec_engine hexec) (exec_sameMoment hexec).now⟩

/-! ## Answers given and owed (rule R156) -/

/-- The answers given and the answers owed, together. -/
def State.answersDue (s : State) : Nat := answersGiven s.trace + s.owedAnswers

theorem owedAnswers_of_idle {s : State} (h : s.engine.st = .idle) : s.owedAnswers = 0 := if_pos h

theorem owedAnswers_of_not_idle {s : State} (h : s.engine.st ≠ .idle) : s.owedAnswers = 1 := if_neg h

theorem answersGiven_map_set {α : Type} (t : Nat) (f : α → Byte) (l : Level) (xs : List α) :
    answersGiven (xs.map fun x => ⟨t, .set (f x) l⟩) = 0 :=
  List.length_eq_zero_iff.2 (List.filter_eq_nil_iff.2 (by simp [PortEvent.port]))

/-- A step that gives no answer and keeps the engine's state keeps the count. -/
theorem answersDue_of_silent {s t : State} {es : List Stamped} (htrace : t.trace = s.trace ++ es)
    (hes : answersGiven es = 0) (hengine : t.engine.st = s.engine.st) : t.answersDue = s.answersDue := by
  rw [State.answersDue, State.answersDue, State.owedAnswers, State.owedAnswers, hengine, htrace,
    answersGiven_append, hes]
  rfl

/-- An answer given while the engine's state stays is one more. -/
theorem answersDue_emit_answer (code : Byte) (a : Action) (s : State) :
    (emit (.answer code a) s).answersDue = s.answersDue + 1 := by
  rw [State.answersDue, emit_trace, answersGiven_append, Nat.add_right_comm]
  rfl

/-- The answer that ends a train is the one owed for it. -/
theorem answersDue_endSlot {s : State} (h : s.engine.st ≠ .idle) :
    (endSlot s).answersDue = s.answersDue := by
  rw [State.answersDue, State.answersDue, owedAnswers_of_not_idle h, owedAnswers_of_idle rfl]
  exact answersGiven_append s.trace [_]

theorem answersDue_attachEntry (d p : Byte) (s : State) :
    (attachEntry d p s).answersDue = s.answersDue := by
  obtain ⟨hengine, -, -, -, -, -, -, -, -, -, hfirst, hlater⟩ := attachEntry_frame d p s
  by_cases h : s.registry.count = 0
  · exact answersDue_of_silent (hfirst h).2 rfl (congrArg _ hengine)
  · exact answersDue_of_silent (hlater h).2 rfl (congrArg _ hengine)

theorem answersDue_detachEntry (d : Byte) (i : Nat) (s : State) :
    (detachEntry d i s).answersDue = s.answersDue := by
  obtain ⟨hengine, -, -, -, -, -, -, -, hlast, hother⟩ := detachEntry_frame d i s
  by_cases h : s.registry.count - 1 = 0
  · exact answersDue_of_silent (hlast h).2 rfl (congrArg _ hengine)
  · exact answersDue_of_silent ((hother h).2.trans (List.append_nil _).symm) rfl (congrArg _ hengine)

theorem exec_answersDue {i : Instr} {s t : State} (h : exec i s = .next t) :
    t.answersDue = s.answersDue := by
  rcases exec_cases h with ⟨_, -, -, rfl⟩ | ⟨_, rfl⟩ | ⟨_, _, _, -, -, -, rfl⟩ |
    ⟨d, p, _, -, -, -, -, rfl⟩ | ⟨d, c, -, -, -, rfl⟩ | ⟨d, c, -, -, -, rfl⟩ | ⟨_, _, -, -, -, rfl⟩
  · rfl
  · rfl
  · rfl
  · exact answersDue_attachEntry d p s
  · exact answersDue_detachEntry d _ s
  · exact answersDue_detachEntry d _ s
  · rfl

theorem hostRead_answersDue (addr n : Nat) (s : State) :
    (hostRead addr n s).answersDue = s.answersDue := by
  rcases hostRead_cases addr n s with h | ⟨_, _, -, -, h⟩ | ⟨_, -, -, -, h⟩ <;> rw [h] <;> rfl

theorem hostWrite_answersDue {addr : Nat} {data : List Byte} {s t : State}
    (hw : hostWrite addr data s = .next t) : t.answersDue = s.answersDue := by
  rcases hostWrite_cases hw with rfl | ⟨i, -, -, hexec⟩ | ⟨_, -, -, -, rfl⟩ | ⟨-, -, rfl⟩ |
    ⟨_, -, -, -, rfl⟩
  · rfl
  · exact exec_answersDue hexec
  · rfl
  · rfl
  · rfl

@[simp] theorem tick_engine_st (s : State) : (tick s).engine.st = s.engine.st := by
  by_cases h : s.engine.st = .slotActive
  · rw [tick_engine_of_active h]
  · rw [tick_engine_of_not_active h]

theorem tick_answersDue (s : State) : (tick s).answersDue = s.answersDue := by
  have hst := tick_engine_st s
  rcases tick_gen_trace_cases s with ⟨-, -, h⟩ | ⟨-, -, -, h⟩ | ⟨-, -, -, h⟩
  · exact answersDue_of_silent (h.trans (List.append_nil _).symm) rfl hst
  · exact answersDue_of_silent h rfl hst
  · exact answersDue_of_silent (h.trans (List.append_nil _).symm) rfl hst

/-- A slot start leaves IDLE, so an answer is owed. -/
theorem Engine.rise_st_ne_idle (e : Engine) : e.rise.st ≠ .idle := by
  rcases Engine.rise_cases e with ⟨-, h⟩ | ⟨_, -, h⟩ <;> rw [h] <;> nofun

/-- A Wake stays in the train or ends it, and does not return to IDLE. -/
theorem Engine.rewait_st (e : Engine) : e.rewait.st = .ending ∨ e.rewait.st = e.st := by
  rcases Engine.rewait_cases e with ⟨-, h⟩ | ⟨_, -, h⟩ <;> rw [h]
  · exact .inl rfl
  · exact .inr rfl

theorem answersDue_slotStart {s : State} (h : s.engine.st = .idle) :
    (slotStart s).answersDue = s.answersDue + 1 := by
  have hgiven : answersGiven (slotStart s).trace = answersGiven s.trace := by
    rw [slotStart, emitAll_trace, List.map_map, answersGiven_append]
    exact congrArg _ (answersGiven_map_set s.now SnapEntry.pin .high _)
  rw [State.answersDue, State.answersDue, owedAnswers_of_idle h, hgiven,
    owedAnswers_of_not_idle (Engine.rise_st_ne_idle _)]

theorem answersDue_wake {s : State} (h : s.engine.st = .slotActive) :
    (wake s).answersDue = s.answersDue := by
  have hgiven : answersGiven (wake s).trace = answersGiven s.trace := by
    rw [wake, emitAll_trace, List.map_map, answersGiven_append]
    exact congrArg _ (answersGiven_map_set s.now s.engine.pinOf .low _)
  have howed : (wake s).engine.st ≠ .idle := by
    rcases Engine.rewait_st s.engine.lowerDue with hst | hst <;> rw [wake, hst]
    · nofun
    · rw [Engine.lowerDue_st, h]
      nofun
  rw [State.answersDue, State.answersDue, hgiven, owedAnswers_of_not_idle howed,
    owedAnswers_of_not_idle (by rw [h]; nofun)]

/-- The engine answers only what it owes (rule R162). -/
theorem engineStep_answersDue (s : State) : (engineStep s).answersDue = s.answersDue := by
  rcases engineStep_cases s with ⟨hactive, -, h⟩ | ⟨hend, h⟩ | ⟨-, h⟩ <;> rw [h]
  · exact answersDue_wake hactive
  · exact answersDue_endSlot (by rw [hend]; nofun)

/-- A delivery is answered, or its answer is owed, once (rules R155, R156). -/
theorem deliver_answersDue (code : Byte) (s : State) :
    (deliver code s).answersDue = s.answersDue + 1 := by
  rcases deliver_cases code s with ⟨-, hidle, h⟩ | ⟨-, -, h⟩ | ⟨-, hactive, h⟩ | ⟨-, -, h⟩ | ⟨-, -, h⟩ <;>
    rw [h]
  · exact answersDue_slotStart hidle
  · exact answersDue_emit_answer _ _ _
  · have hne : (flag .overrun s).engine.st ≠ .idle := by rw [flag_engine, hactive]; nofun
    rw [answersDue_emit_answer, abortTrain, answersDue_endSlot hne]
    rfl
  · exact answersDue_emit_answer _ _ _
  · exact answersDue_emit_answer _ _ _

/-- A step that is no delivery and no reset keeps the answers given and owed. -/
theorem step_answersDue {s t : State} (hstep : step s = .next t)
    (hreset : ∀ rest, s.schedule ≠ .reset :: rest)
    (hdeliver : ∀ code rest, s.schedule ≠ .deliver code :: rest) : t.answersDue = s.answersDue := by
  rcases step_cases hstep with ⟨-, -, rfl⟩ | ⟨-, -, rfl⟩ | ⟨u, rest, hs, hturn⟩
  · exact tick_answersDue s
  · exact engineStep_answersDue s
  rcases hturn with ⟨addr, n, -, rfl⟩ | ⟨addr, data, -, hw⟩ | ⟨code, rfl, -⟩ | ⟨-, -, rfl⟩ |
    ⟨-, -, rfl⟩ | ⟨-, rfl⟩ | ⟨rfl, -⟩
  · exact hostRead_answersDue addr n _
  · exact hostWrite_answersDue (s := { s with schedule := rest }) hw
  · exact absurd hs (hdeliver code rest)
  · exact tick_answersDue _
  · exact engineStep_answersDue s
  · exact engineStep_answersDue _
  · exact absurd hs (hreset rest)

/-- Settles O48: a delivery adds one to the answers given and owed, every other step keeps them. -/
theorem everyEventIsAnsweredOnce : Obligations.EveryEventIsAnsweredOnce := by
  refine fun s t hstep hreset => ⟨?_, step_answersDue hstep hreset⟩
  rintro ⟨code, rest, hs⟩
  cases hstep.symm.trans (step_of_deliver hs rfl)
  exact deliver_answersDue code { s with schedule := rest }

/-! ## Trains never overlap (rule R168) -/

/-- What a step can do to ENG_STATE: keep it, or one of the ways out of and back to IDLE (rules R158, R160,
R162, R164, R200). -/
inductive PhaseStep (s t : State) : Prop
  | keep (st : t.engine.st = s.engine.st)
  | slotStart (idle : s.engine.st = .idle) (turn : ∃ rest, s.schedule = .deliver 0x00 :: rest)
  | lastWake (active : s.engine.st = .slotActive) (ending : t.engine.st = .ending)
  | endSlot (ending : s.engine.st = .ending) (answer : ⟨s.now, .answer 0x00 .endSlot⟩ ∈ newEvents s t)
  | abort (active : s.engine.st = .slotActive) (turn : ∃ rest, s.schedule = .deliver 0x01 :: rest)
  | reset (turn : ∃ rest, s.schedule = .reset :: rest) (idle : t.engine.st = .idle)

/-- The engine's step, taken with any turns still to come. -/
theorem engineStep_phaseStep (s : State) (ts : List Turn) :
    PhaseStep s (engineStep { s with schedule := ts }) := by
  rcases engineStep_cases { s with schedule := ts } with ⟨hactive, -, h⟩ | ⟨hend, h⟩ | ⟨-, h⟩ <;> rw [h]
  · rcases Engine.rewait_st s.engine.lowerDue with hst | hst
    · exact .lastWake hactive hst
    · exact .keep hst
  · refine .endSlot hend ?_
    rw [newEvents_eq (s := s) rfl]
    exact List.mem_singleton_self _
  · exact .keep rfl

theorem deliver_phaseStep {code : Byte} {s : State} {rest : List Turn}
    (hs : s.schedule = .deliver code :: rest) : PhaseStep s (deliver code { s with schedule := rest }) := by
  rcases deliver_cases code { s with schedule := rest } with ⟨rfl, hidle, -⟩ | ⟨-, -, h⟩ |
    ⟨rfl, hactive, -⟩ | ⟨-, -, h⟩ | ⟨-, -, h⟩
  · exact .slotStart hidle ⟨rest, hs⟩
  · exact .keep (by rw [h]; rfl)
  · exact .abort hactive ⟨rest, hs⟩
  · exact .keep (by rw [h]; rfl)
  · exact .keep (by rw [h]; rfl)

theorem step_phaseStep {s t : State} (h : step s = .next t) : PhaseStep s t := by
  rcases step_cases h with ⟨-, -, rfl⟩ | ⟨-, -, rfl⟩ | ⟨u, rest, hs, hturn⟩
  · exact .keep (tick_engine_st s)
  · exact engineStep_phaseStep s s.schedule
  rcases hturn with ⟨addr, n, -, rfl⟩ | ⟨addr, data, -, hw⟩ | ⟨code, rfl, rfl⟩ | ⟨-, -, rfl⟩ |
    ⟨-, -, rfl⟩ | ⟨-, rfl⟩ | ⟨rfl, rfl⟩
  · obtain ⟨-, -, -, hengine⟩ := hostRead_frame addr n { s with schedule := rest }
    exact .keep (congrArg _ hengine)
  · exact .keep (congrArg Engine.st (hostWrite_engine (s := { s with schedule := rest }) hw))
  · exact deliver_phaseStep hs
  · exact .keep (tick_engine_st _)
  · exact engineStep_phaseStep s s.schedule
  · exact engineStep_phaseStep s rest
  · exact .reset ⟨rest, hs⟩ rfl

/-- The engine leaves IDLE only by a slot-started event. -/
theorem PhaseStep.leaves_idle {s t : State} (h : PhaseStep s t) (hs : s.engine.st = .idle)
    (ht : t.engine.st ≠ .idle) : ∃ rest, s.schedule = .deliver 0x00 :: rest := by
  cases h with
  | keep st => exact absurd (st.trans hs) ht
  | slotStart _ turn => exact turn
  | lastWake active | abort active => exact EngState.noConfusion (hs.symm.trans active)
  | endSlot ending => exact EngState.noConfusion (hs.symm.trans ending)
  | reset _ idle => exact absurd idle ht

/-- The engine comes back to IDLE only by End, an abort or a reset. -/
theorem PhaseStep.returns_to_idle {s t : State} (h : PhaseStep s t) (hs : s.engine.st ≠ .idle)
    (ht : t.engine.st = .idle) :
    (s.engine.st = .ending ∧ ⟨s.now, .answer 0x00 .endSlot⟩ ∈ newEvents s t) ∨
      (s.engine.st = .slotActive ∧ ∃ rest, s.schedule = .deliver 0x01 :: rest) ∨
      ∃ rest, s.schedule = .reset :: rest := by
  cases h with
  | keep st => exact absurd (st.symm.trans ht) hs
  | slotStart idle => exact absurd idle hs
  | lastWake _ ending => exact EngState.noConfusion (ending.symm.trans ht)
  | endSlot ending answer => exact .inl ⟨ending, answer⟩
  | abort active turn => exact .inr (.inl ⟨active, turn⟩)
  | reset turn => exact .inr (.inr turn)

/-- Outside IDLE a step that aborts no train drives no pin HIGH. -/
theorem PulseStep.not_high {s t : State} (h : PulseStep s t) (hs : s.engine.st ≠ .idle) {e : Stamped}
    (he : e ∈ newPins s t) (p : Byte) : e.event ≠ .set p .high := by
  cases h with
  | keep _ _ pins | idleTick _ _ _ pins | waitTick _ _ _ _ pins | endSlot _ _ _ pins =>
    rw [pins] at he
    cases he
  | slotStart idle => exact absurd idle hs
  | wake _ _ _ _ pins =>
    rw [pins] at he
    obtain ⟨k, -, rfl⟩ := List.mem_map.1 he
    nofun

/-- A timer expiry and a reset drive no pin (rules R164, R201). -/
theorem newPins_of_timerExpiry_or_reset {s t : State} {rest : List Turn} (hstep : step s = .next t)
    (hs : s.schedule = .deliver 0x01 :: rest ∨ s.schedule = .reset :: rest) : newPins s t = [] := by
  rcases hs with hs | hs
  · obtain ⟨habort, hother⟩ := timerExpiryAbortsTheTrain s rest hs
    by_cases hactive : s.engine.st = .slotActive
    · cases hstep.symm.trans (habort hactive)
      exact newPins_of_silent rfl rfl
    · cases hstep.symm.trans (hother hactive)
      exact newPins_of_silent rfl rfl
  · cases hstep.symm.trans (step_of_turn hs)
    exact newPins_eq_nil rfl

theorem step_not_high {s t : State} (hstep : step s = .next t) (hs : s.engine.st ≠ .idle) {e : Stamped}
    (he : e ∈ newEvents s t) (p : Byte) : e.event ≠ .set p .high := by
  intro hset
  have hpin : e ∈ newPins s t := mem_pinDrives.2 ⟨he, p, .high, hset⟩
  rcases step_pulseStep hstep with hpulse | ⟨⟨rest, hturn⟩, -⟩
  · exact hpulse.not_high hs hpin p hset
  · rw [newPins_of_timerExpiry_or_reset hstep hturn] at hpin
    cases hpin

/-- Settles O49: by what a step can do to the pins and to ENG_STATE. -/
theorem trainsNeverOverlap : Obligations.TrainsNeverOverlap := fun _ _ hstep =>
  ⟨fun hs _ he => step_not_high hstep hs he, (step_phaseStep hstep).leaves_idle,
    (step_phaseStep hstep).returns_to_idle⟩

end Sys2Proof.Machine
end

section
/-! PROOFS. The block raises no exception (60_exceptions.md rule R180): along the layers of a step, from
the command through the bus to the turn, every input is answered by a next state. -/

namespace Sys2Proof.Machine

/-- A CMD write never stops: a legal command completes, and an illegal word has rule R97's effect. -/
theorem runCommand_next (data : List Byte) (s : State) : ∃ t, runCommand data s = .next t := by
  cases hdecode : decode s.nDesc data with
  | ok i =>
    rw [runCommand_of_decode hdecode]
    exact exec_next i s
  | error r => exact ⟨_, runCommand_of_decode_error hdecode⟩

theorem memWrite_next (off : Nat) (data : List Byte) (s : State) :
    ∃ t, memWrite off data s = .next t := by
  unfold memWrite
  split
  · exact runCommand_next data s
  · exact ⟨clearStatus (busWord data) s, rfl⟩
  · exact ⟨flag .badAcc s, rfl⟩

theorem hostWrite_next (addr : Nat) (data : List Byte) (s : State) :
    ∃ t, hostWrite addr data s = .next t := by
  unfold hostWrite
  cases windowOffset s.base addr with
  | none => exact ⟨s, rfl⟩
  | some off => exact memWrite_next off data s

/-- No agent's turn stops the machine; the host's write is the only one that could answer otherwise, and
a Tick is taken or waits. -/
theorem takeTurn_next (u : Turn) (s : State) : ∃ t, takeTurn u s = .next t := by
  cases u with
  | hostRead addr n => exact ⟨hostRead addr n s, rfl⟩
  | hostWrite addr data => exact hostWrite_next addr data s
  | deliver code => exact ⟨deliver code s, rfl⟩
  | tick =>
    by_cases hen : tickEnabled s = true
    · exact ⟨tick s, if_pos hen⟩
    · exact ⟨engineStep { s with schedule := .tick :: s.schedule }, if_neg hen⟩
  | engine => exact ⟨engineStep s, rfl⟩
  | reset => exact ⟨resetStep s, rfl⟩

/-- Settles O7: an empty schedule advances the machine, and a listed turn is always answered. -/
theorem everyStepAnswersANextState : Obligations.EveryStepAnswersANextState := by
  intro s
  cases hs : s.schedule with
  | nil => exact ⟨advance s, by rw [step, hs]⟩
  | cons u rest =>
    rw [step_of_turn hs]
    exact takeTurn_next u _

end Sys2Proof.Machine
end

section
/-! PROOFS. Reset (70_reset_and_hazards.md rules R200, R201, R203): the turn of the RESET port is
`resetStep`, and `resetStep` spelled out element by element. -/

namespace Sys2Proof.Machine

/-- The RESET port's turn does `resetStep` and nothing else. -/
theorem step_of_reset {s : State} {rest : List Turn} (h : s.schedule = .reset :: rest) :
    step s = .next (resetStep { s with schedule := rest }) := by
  rw [step_of_turn h, takeTurn]

/-- The constructed descriptor's fields: detached, pin 0, the default width (rule R34). -/
theorem Desc.constructed_eq : Desc.constructed = ⟨0xFF, 0, 1500⟩ := rfl

/-- The sequencer's elements come from the reset state for the block's own parameters; the time, the
trace, the bus's data and the turns to come are the old state's. -/
theorem resetStep_eq (s : State) :
    resetStep s =
      { desc := List.replicate s.nDesc Desc.constructed
        registry := Registry.empty
        gen := Generator.stopped
        engine := Engine.atReset
        status := 0
        result := 0
        now := s.now
        trace := s.trace
        base := s.base
        readData := s.readData
        schedule := s.schedule } := rfl

/-- Settles O56: the reset turn is `resetStep`, whose named reset values are the ones of rule R200; taking
the turn off the schedule changes no other field that reset keeps. -/
theorem resetRestoresEveryElement : Obligations.ResetRestoresEveryElement := by
  intro s rest hs
  rw [step_of_reset hs, resetStep_eq, Desc.constructed_eq, Registry.empty, Generator.stopped,
    Engine.atReset]
  rfl

end Sys2Proof.Machine
end
